-- ==== Sys2Proof/Word.lean ====
section
/-! DEFINITION. The bit vectors of WSFC: bytes, lengths, keys and the command word (spec/00_scope.md R6, R7, R9). -/

namespace Sys2Proof

/-- One byte of a stream or of PBUF: `BYTE_W = 8` (R6). -/
abbrev Byte := BitVec 8

/-- A payload length: `LEN_W = 64` (R6). -/
abbrev Len := BitVec 64

/-- A masking key packed as R56 and D28 say: `K[0]` in bits 31..24, `K[3]` in bits 7..0. -/
abbrev Key := BitVec 32

/-- A command word: `CMD_W = 112` (R6, R93). -/
abbrev CmdWord := BitVec 112

/-- One bit as a vector of width 1. -/
abbrev bit (b : Bool) : BitVec 1 := BitVec.ofBool b

end Sys2Proof
end

