-- ==== Sys2Proof/Config.lean ====
section
/-! DEFINITION. What an implementation of WSFC fixes (its two open parameters, R6) and the free values that stand
where the spec says `UNSPEC` (R10, R27, R28, R36; spec/93_implementation_defined.md U1 to U3). -/

namespace Sys2Proof.Config

/-- The OPEN parameters of R6. State carries them as a record that no step changes, so that a statement over every
state holds for every value of both (notes/assumptions/1.md). -/
structure Params where
  /-- `PBUF_BYTES`, 0 to 2^64-1: the capacity of PBUF (D13). -/
  pbufBytes : Len
  /-- `MAX_DECLARED_LEN`, 0 to 2^64-1: the cap above which a declared length is flagged (D18). -/
  maxDeclaredLen : Len
  deriving DecidableEq, Repr

/-- The parameters State.reset carries. `MAX_DECLARED_LEN = 2^64-1` is R6's default.
`PBUF_BYTES = 65536` is a DESIGN CHOICE: the least value the spec's test vectors assume (notes/assumptions/1.md). -/
def Params.initial : Params := { pbufBytes := 65536, maxDeclaredLen := 0xFFFFFFFFFFFFFFFF }

/-- The registers the spec leaves `UNSPEC` at some moment. -/
inductive FreeName where
  | errinfo | fin | rsv1 | rsv2 | rsv3 | opc | cls | kind | masked | key | len | overcap | fmt | field | ext | cnt
  | frFin | frRsv1 | frRsv2 | frRsv3 | frOpc | frMasked | frKey | frPlen
  | pos | rem | pidx | cmd
  deriving DecidableEq, Repr

/-- A free value of a one-bit register: nothing in Lean can say which. The number is State's counter. -/
opaque freeBit : FreeName → Nat → Bool

/-- A free value of a register of `w` bits. -/
opaque freeBits (w : Nat) : FreeName → Nat → BitVec w

/-- A free value for a byte of PBUF that holds none: State's counter and the address. -/
opaque freePbuf : Nat → Nat → Byte

end Sys2Proof.Config
end

