-- ==== Sys2Proof/Syntax.lean ====
section
/-! DEFINITION. The instructions of WSFC: one constructor per row of spec/opcode_table.json (R94, R95, R99).
Three kinds of row: command words (CMD), fixed byte 0 of a header on the wire (WIRE_B0), whole headers on the wire
(WIRE_HDR). A constructor carries exactly the fields the row's operation reads (R94). How a WIRE row comes to be an
instruction is notes/assumptions/10.md. -/

namespace Sys2Proof

/-- An instruction of WSFC. -/
inductive Instr where
  -- CMD rows: the twelve operations (R94)
  | opcDecode (opc : BitVec 4)
  | opcEncode (cls : Bool) (kind : BitVec 2) (opc : BitVec 4)
  | lenfmtForLength (len : Len)
  | lenfmtOfField (field : BitVec 7)
  | hdrLen (masked : Bool) (len : Len)
  | hdrParse
  | hdrFormat (fin rsv1 rsv2 rsv3 : Bool) (opc : BitVec 4) (masked : Bool) (key : Key) (len : Len)
  | applyMask (key : Key) (len : Len)
  | frameMessage (opc : BitVec 4) (len : Len)
  | frameSetKey (masked : Bool) (key : Key)
  | frameFormat
  | frameLen
  -- CMD rows: the four reserved operation codes (R95)
  | reservedOp0
  | reservedOp13
  | reservedOp14
  | reservedOp15
  -- WIRE_B0 rows: fixed byte 0 by its wire opcode (R81, R88)
  | wireContinue (fin rsv1 rsv2 rsv3 : Bool)
  | wireText (fin rsv1 rsv2 rsv3 : Bool)
  | wireBinary (fin rsv1 rsv2 rsv3 : Bool)
  | wireDrsv3 (fin rsv1 rsv2 rsv3 : Bool)
  | wireDrsv4 (fin rsv1 rsv2 rsv3 : Bool)
  | wireDrsv5 (fin rsv1 rsv2 rsv3 : Bool)
  | wireDrsv6 (fin rsv1 rsv2 rsv3 : Bool)
  | wireDrsv7 (fin rsv1 rsv2 rsv3 : Bool)
  | wireClose (fin rsv1 rsv2 rsv3 : Bool)
  | wirePing (fin rsv1 rsv2 rsv3 : Bool)
  | wirePong (fin rsv1 rsv2 rsv3 : Bool)
  | wireCrsv11 (fin rsv1 rsv2 rsv3 : Bool)
  | wireCrsv12 (fin rsv1 rsv2 rsv3 : Bool)
  | wireCrsv13 (fin rsv1 rsv2 rsv3 : Bool)
  | wireCrsv14 (fin rsv1 rsv2 rsv3 : Bool)
  | wireCrsv15 (fin rsv1 rsv2 rsv3 : Bool)
  -- WIRE_HDR rows: the six header shapes (R85)
  | hdrH2 (fin rsv1 rsv2 rsv3 : Bool) (opc : BitVec 4) (len : BitVec 7)
  | hdrH6 (fin rsv1 rsv2 rsv3 : Bool) (opc : BitVec 4) (len : BitVec 7) (key : Key)
  | hdrH4 (fin rsv1 rsv2 rsv3 : Bool) (opc : BitVec 4) (len : BitVec 16)
  | hdrH8 (fin rsv1 rsv2 rsv3 : Bool) (opc : BitVec 4) (len : BitVec 16) (key : Key)
  | hdrH10 (fin rsv1 rsv2 rsv3 : Bool) (opc : BitVec 4) (len : BitVec 64)
  | hdrH14 (fin rsv1 rsv2 rsv3 : Bool) (opc : BitVec 4) (len : BitVec 64) (key : Key)
  deriving DecidableEq, Repr

end Sys2Proof
end

