-- ==== Sys2Proof/WellFormed.lean ====
section
/-! DEFINITION. Which instructions are well-formed. Operand widths are in the types of Syntax.lean; the one check left is
the `constraint` of the table's rows H2 and H6 (R85): their seven length bits, as a number, are below 126. -/

namespace Sys2Proof

/-- The length bits of a shape-H2 or shape-H6 header are a direct length (R82, R83, R85). -/
abbrev directLength (len : BitVec 7) : Bool := decide (len.toNat < 126)

/-- The well-formed instructions. -/
def wellFormed : Instr → Bool
  | .hdrH2 _ _ _ _ _ len => directLength len
  | .hdrH6 _ _ _ _ _ len _ => directLength len
  | .opcDecode _ => true
  | .opcEncode _ _ _ => true
  | .lenfmtForLength _ => true
  | .lenfmtOfField _ => true
  | .hdrLen _ _ => true
  | .hdrParse => true
  | .hdrFormat _ _ _ _ _ _ _ _ => true
  | .applyMask _ _ => true
  | .frameMessage _ _ => true
  | .frameSetKey _ _ => true
  | .frameFormat => true
  | .frameLen => true
  | .reservedOp0 => true
  | .reservedOp13 => true
  | .reservedOp14 => true
  | .reservedOp15 => true
  | .wireContinue _ _ _ _ => true
  | .wireText _ _ _ _ => true
  | .wireBinary _ _ _ _ => true
  | .wireDrsv3 _ _ _ _ => true
  | .wireDrsv4 _ _ _ _ => true
  | .wireDrsv5 _ _ _ _ => true
  | .wireDrsv6 _ _ _ _ => true
  | .wireDrsv7 _ _ _ _ => true
  | .wireClose _ _ _ _ => true
  | .wirePing _ _ _ _ => true
  | .wirePong _ _ _ _ => true
  | .wireCrsv11 _ _ _ _ => true
  | .wireCrsv12 _ _ _ _ => true
  | .wireCrsv13 _ _ _ _ => true
  | .wireCrsv14 _ _ _ _ => true
  | .wireCrsv15 _ _ _ _ => true
  | .hdrH4 _ _ _ _ _ _ => true
  | .hdrH8 _ _ _ _ _ _ _ => true
  | .hdrH10 _ _ _ _ _ _ => true
  | .hdrH14 _ _ _ _ _ _ _ => true

end Sys2Proof
end

