-- ==== Sys2Proof/Decode.lean ====
section
/-! DEFINITION. Decoding and encoding (spec/30_encoding.md).
A command word is read by its fields (R93, R94, R95): every 112-bit word is some row of the table.
A header is read from a list of wire bytes, byte 0 first (R80 to R87): the six shapes of R85 selected by fixed byte 1,
and fixed byte 0 alone by its wire opcode (R88) while the header is not all there.
After the decoder stands the encoder, written from the same tables. -/

namespace Sys2Proof

/-- Why a list of bytes is not the instruction asked for. -/
inductive DecodeError where
  /-- There is no byte at all. -/
  | noByte
  /-- Fewer than the two fixed bytes (R130 step 1). -/
  | fixedShort
  /-- The two fixed bytes are there and the length extension they announce is not complete (R130 step 3). -/
  | extensionShort
  /-- The length is complete and the key announced by MASK is not (R130 step 4). -/
  | keyShort
  /-- Bytes stand after the instruction. -/
  | trailingBytes
  deriving DecidableEq, Repr

/-! ## Fields of the command word (R93) -/

/-- `op`, bits 111 to 108. -/
def cmdOp (w : CmdWord) : BitVec 4 := w.extractLsb' 108 4

/-- `fin`, bit 107. -/
def cmdFin (w : CmdWord) : Bool := w.getLsbD 107

/-- `rsv1`, bit 106. -/
def cmdRsv1 (w : CmdWord) : Bool := w.getLsbD 106

/-- `rsv2`, bit 105. -/
def cmdRsv2 (w : CmdWord) : Bool := w.getLsbD 105

/-- `rsv3`, bit 104. -/
def cmdRsv3 (w : CmdWord) : Bool := w.getLsbD 104

/-- `opc`, bits 103 to 100. -/
def cmdOpc (w : CmdWord) : BitVec 4 := w.extractLsb' 100 4

/-- `masked`, bit 99. -/
def cmdMasked (w : CmdWord) : Bool := w.getLsbD 99

/-- `class`, bit 98. -/
def cmdClass (w : CmdWord) : Bool := w.getLsbD 98

/-- `kind`, bits 97 to 96. -/
def cmdKind (w : CmdWord) : BitVec 2 := w.extractLsb' 96 2

/-- `key`, bits 95 to 64. -/
def cmdKey (w : CmdWord) : Key := w.extractLsb' 64 32

/-- `len`, bits 63 to 0. -/
def cmdLen (w : CmdWord) : Len := w.extractLsb' 0 64

/-- The operation a command word stands for, with the fields that operation reads (R94), or the reserved code (R95). -/
def decodeCommand (w : CmdWord) : Instr :=
  match (cmdOp w).toNat with
  | 0 => .reservedOp0
  | 1 => .opcDecode (cmdOpc w)
  | 2 => .opcEncode (cmdClass w) (cmdKind w) (cmdOpc w)
  | 3 => .lenfmtForLength (cmdLen w)
  | 4 => .lenfmtOfField ((cmdLen w).extractLsb' 0 7)
  | 5 => .hdrLen (cmdMasked w) (cmdLen w)
  | 6 => .hdrParse
  | 7 => .hdrFormat (cmdFin w) (cmdRsv1 w) (cmdRsv2 w) (cmdRsv3 w) (cmdOpc w) (cmdMasked w) (cmdKey w) (cmdLen w)
  | 8 => .applyMask (cmdKey w) (cmdLen w)
  | 9 => .frameMessage (cmdOpc w) (cmdLen w)
  | 10 => .frameSetKey (cmdMasked w) (cmdKey w)
  | 11 => .frameFormat
  | 12 => .frameLen
  | 13 => .reservedOp13
  | 14 => .reservedOp14
  | _ => .reservedOp15

/-! ## Bytes of a header (R80 to R87) -/

/-- FIN, bit 7 of fixed byte 0 (R81). -/
def byte0Fin (b : Byte) : Bool := b.getLsbD 7

/-- RSV1, bit 6 of fixed byte 0 (R81). -/
def byte0Rsv1 (b : Byte) : Bool := b.getLsbD 6

/-- RSV2, bit 5 of fixed byte 0 (R81). -/
def byte0Rsv2 (b : Byte) : Bool := b.getLsbD 5

/-- RSV3, bit 4 of fixed byte 0 (R81). -/
def byte0Rsv3 (b : Byte) : Bool := b.getLsbD 4

/-- The wire opcode, bits 3 to 0 of fixed byte 0 (R81). -/
def byte0Opc (b : Byte) : BitVec 4 := b.extractLsb' 0 4

/-- MASK, bit 7 of fixed byte 1 (R82). -/
def byte1Mask (b : Byte) : Bool := b.getLsbD 7

/-- The length field `F`, bits 6 to 0 of fixed byte 1 (R82). -/
def byte1Field (b : Byte) : BitVec 7 := b.extractLsb' 0 7

/-- Fixed byte 0 alone: the WIRE_B0 row of its opcode (R88, R99). -/
def decodeFixedByte0 (b : Byte) : Instr :=
  match (byte0Opc b).toNat with
  | 0 => .wireContinue (byte0Fin b) (byte0Rsv1 b) (byte0Rsv2 b) (byte0Rsv3 b)
  | 1 => .wireText (byte0Fin b) (byte0Rsv1 b) (byte0Rsv2 b) (byte0Rsv3 b)
  | 2 => .wireBinary (byte0Fin b) (byte0Rsv1 b) (byte0Rsv2 b) (byte0Rsv3 b)
  | 3 => .wireDrsv3 (byte0Fin b) (byte0Rsv1 b) (byte0Rsv2 b) (byte0Rsv3 b)
  | 4 => .wireDrsv4 (byte0Fin b) (byte0Rsv1 b) (byte0Rsv2 b) (byte0Rsv3 b)
  | 5 => .wireDrsv5 (byte0Fin b) (byte0Rsv1 b) (byte0Rsv2 b) (byte0Rsv3 b)
  | 6 => .wireDrsv6 (byte0Fin b) (byte0Rsv1 b) (byte0Rsv2 b) (byte0Rsv3 b)
  | 7 => .wireDrsv7 (byte0Fin b) (byte0Rsv1 b) (byte0Rsv2 b) (byte0Rsv3 b)
  | 8 => .wireClose (byte0Fin b) (byte0Rsv1 b) (byte0Rsv2 b) (byte0Rsv3 b)
  | 9 => .wirePing (byte0Fin b) (byte0Rsv1 b) (byte0Rsv2 b) (byte0Rsv3 b)
  | 10 => .wirePong (byte0Fin b) (byte0Rsv1 b) (byte0Rsv2 b) (byte0Rsv3 b)
  | 11 => .wireCrsv11 (byte0Fin b) (byte0Rsv1 b) (byte0Rsv2 b) (byte0Rsv3 b)
  | 12 => .wireCrsv12 (byte0Fin b) (byte0Rsv1 b) (byte0Rsv2 b) (byte0Rsv3 b)
  | 13 => .wireCrsv13 (byte0Fin b) (byte0Rsv1 b) (byte0Rsv2 b) (byte0Rsv3 b)
  | 14 => .wireCrsv14 (byte0Fin b) (byte0Rsv1 b) (byte0Rsv2 b) (byte0Rsv3 b)
  | _ => .wireCrsv15 (byte0Fin b) (byte0Rsv1 b) (byte0Rsv2 b) (byte0Rsv3 b)

/-- A shape with a direct length (rows H2, H6): what follows the fixed bytes is the key, if MASK says so. -/
def decodeU8 (b0 : Byte) (masked : Bool) (f : BitVec 7) (rest : List Byte) : Except DecodeError (Instr × List Byte) :=
  if masked then
    match rest with
    | k0 :: k1 :: k2 :: k3 :: rest =>
      .ok (.hdrH6 (byte0Fin b0) (byte0Rsv1 b0) (byte0Rsv2 b0) (byte0Rsv3 b0) (byte0Opc b0) f (k0 ++ k1 ++ k2 ++ k3), rest)
    | _ => .error .keyShort
  else .ok (.hdrH2 (byte0Fin b0) (byte0Rsv1 b0) (byte0Rsv2 b0) (byte0Rsv3 b0) (byte0Opc b0) f, rest)

/-- A shape with a 2-byte big-endian extension (rows H4, H8). -/
def decodeU16 (b0 : Byte) (masked : Bool) (rest : List Byte) : Except DecodeError (Instr × List Byte) :=
  match rest with
  | l0 :: l1 :: rest =>
    if masked then
      match rest with
      | k0 :: k1 :: k2 :: k3 :: rest =>
        .ok (.hdrH8 (byte0Fin b0) (byte0Rsv1 b0) (byte0Rsv2 b0) (byte0Rsv3 b0) (byte0Opc b0) (l0 ++ l1)
          (k0 ++ k1 ++ k2 ++ k3), rest)
      | _ => .error .keyShort
    else .ok (.hdrH4 (byte0Fin b0) (byte0Rsv1 b0) (byte0Rsv2 b0) (byte0Rsv3 b0) (byte0Opc b0) (l0 ++ l1), rest)
  | _ => .error .extensionShort

/-- A shape with an 8-byte big-endian extension (rows H10, H14). -/
def decodeU64 (b0 : Byte) (masked : Bool) (rest : List Byte) : Except DecodeError (Instr × List Byte) :=
  match rest with
  | l0 :: l1 :: l2 :: l3 :: l4 :: l5 :: l6 :: l7 :: rest =>
    if masked then
      match rest with
      | k0 :: k1 :: k2 :: k3 :: rest =>
        .ok (.hdrH14 (byte0Fin b0) (byte0Rsv1 b0) (byte0Rsv2 b0) (byte0Rsv3 b0) (byte0Opc b0)
          (l0 ++ l1 ++ l2 ++ l3 ++ l4 ++ l5 ++ l6 ++ l7) (k0 ++ k1 ++ k2 ++ k3), rest)
      | _ => .error .keyShort
    else
      .ok (.hdrH10 (byte0Fin b0) (byte0Rsv1 b0) (byte0Rsv2 b0) (byte0Rsv3 b0) (byte0Opc b0)
        (l0 ++ l1 ++ l2 ++ l3 ++ l4 ++ l5 ++ l6 ++ l7), rest)
  | _ => .error .extensionShort

/-- The header at the front of a byte list and the bytes after it; the shape is selected by fixed byte 1 (R85, R86). -/
def decodeHeader : List Byte → Except DecodeError (Instr × List Byte)
  | [] => .error .noByte
  | [_] => .error .fixedShort
  | b0 :: b1 :: rest =>
    if (byte1Field b1).toNat < 126 then decodeU8 b0 (byte1Mask b1) (byte1Field b1) rest
    else if (byte1Field b1).toNat = 126 then decodeU16 b0 (byte1Mask b1) rest
    else decodeU64 b0 (byte1Mask b1) rest

/-- The instruction at the front of the RX bytes: a whole header where one is there, else fixed byte 0 alone. -/
def decodeRx (bs : List Byte) : Except DecodeError (Instr × List Byte) :=
  match decodeHeader bs, bs with
  | .ok r, _ => .ok r
  | .error e, [] => .error e
  | .error _, b0 :: rest => .ok (decodeFixedByte0 b0, rest)

/-! ## The encoder -/

/-- The words of an instruction and the port they stand on. -/
inductive Encoded where
  /-- A command word on the command port. -/
  | command (w : CmdWord)
  /-- Bytes on the RX stream, the first to travel first. -/
  | rx (bytes : List Byte)
  deriving DecidableEq, Repr

/-- A command word from its fields, most significant first (R93). -/
def cmdWord (op : BitVec 4) (fin rsv1 rsv2 rsv3 : Bool) (opc : BitVec 4) (masked cls : Bool) (kind : BitVec 2)
    (key : Key) (len : Len) : CmdWord :=
  op ++ bit fin ++ bit rsv1 ++ bit rsv2 ++ bit rsv3 ++ opc ++ bit masked ++ bit cls ++ kind ++ key ++ len

/-- A command word with no operand (R94): every field but `op` zero. -/
def cmdBare (op : BitVec 4) : CmdWord := cmdWord op false false false false 0 false false 0 0 0

/-- `byte0 = [FIN, RSV1, RSV2, RSV3, opc]`, most significant first (R81). -/
def fixedByte0 (fin rsv1 rsv2 rsv3 : Bool) (opc : BitVec 4) : Byte :=
  bit fin ++ bit rsv1 ++ bit rsv2 ++ bit rsv3 ++ opc

/-- `byte1 = [MASK, F]`, most significant first (R82). -/
def fixedByte1 (masked : Bool) (f : BitVec 7) : Byte := bit masked ++ f

/-- `be_2` (R9). -/
def be2 (v : BitVec 16) : List Byte := [v.extractLsb' 8 8, v.extractLsb' 0 8]

/-- `be_8` (R9). -/
def be8 (v : BitVec 64) : List Byte :=
  [v.extractLsb' 56 8, v.extractLsb' 48 8, v.extractLsb' 40 8, v.extractLsb' 32 8,
   v.extractLsb' 24 8, v.extractLsb' 16 8, v.extractLsb' 8 8, v.extractLsb' 0 8]

/-- The four bytes `K[0] K[1] K[2] K[3]` of a packed key (R56, R84). -/
def keyBytes (k : Key) : List Byte := [k.extractLsb' 24 8, k.extractLsb' 16 8, k.extractLsb' 8 8, k.extractLsb' 0 8]

/-- The words of an instruction: fields its operation does not read are zero (R94, R96). -/
def encode : Instr → Encoded
  | .opcDecode opc => .command (cmdWord 1 false false false false opc false false 0 0 0)
  | .opcEncode cls kind opc => .command (cmdWord 2 false false false false opc false cls kind 0 0)
  | .lenfmtForLength len => .command (cmdWord 3 false false false false 0 false false 0 0 len)
  | .lenfmtOfField f => .command (cmdWord 4 false false false false 0 false false 0 0 ((0 : BitVec 57) ++ f))
  | .hdrLen masked len => .command (cmdWord 5 false false false false 0 masked false 0 0 len)
  | .hdrParse => .command (cmdBare 6)
  | .hdrFormat fin rsv1 rsv2 rsv3 opc masked key len =>
    .command (cmdWord 7 fin rsv1 rsv2 rsv3 opc masked false 0 key len)
  | .applyMask key len => .command (cmdWord 8 false false false false 0 false false 0 key len)
  | .frameMessage opc len => .command (cmdWord 9 false false false false opc false false 0 0 len)
  | .frameSetKey masked key => .command (cmdWord 10 false false false false 0 masked false 0 key 0)
  | .frameFormat => .command (cmdBare 11)
  | .frameLen => .command (cmdBare 12)
  | .reservedOp0 => .command (cmdBare 0)
  | .reservedOp13 => .command (cmdBare 13)
  | .reservedOp14 => .command (cmdBare 14)
  | .reservedOp15 => .command (cmdBare 15)
  | .wireContinue fin rsv1 rsv2 rsv3 => .rx [fixedByte0 fin rsv1 rsv2 rsv3 0]
  | .wireText fin rsv1 rsv2 rsv3 => .rx [fixedByte0 fin rsv1 rsv2 rsv3 1]
  | .wireBinary fin rsv1 rsv2 rsv3 => .rx [fixedByte0 fin rsv1 rsv2 rsv3 2]
  | .wireDrsv3 fin rsv1 rsv2 rsv3 => .rx [fixedByte0 fin rsv1 rsv2 rsv3 3]
  | .wireDrsv4 fin rsv1 rsv2 rsv3 => .rx [fixedByte0 fin rsv1 rsv2 rsv3 4]
  | .wireDrsv5 fin rsv1 rsv2 rsv3 => .rx [fixedByte0 fin rsv1 rsv2 rsv3 5]
  | .wireDrsv6 fin rsv1 rsv2 rsv3 => .rx [fixedByte0 fin rsv1 rsv2 rsv3 6]
  | .wireDrsv7 fin rsv1 rsv2 rsv3 => .rx [fixedByte0 fin rsv1 rsv2 rsv3 7]
  | .wireClose fin rsv1 rsv2 rsv3 => .rx [fixedByte0 fin rsv1 rsv2 rsv3 8]
  | .wirePing fin rsv1 rsv2 rsv3 => .rx [fixedByte0 fin rsv1 rsv2 rsv3 9]
  | .wirePong fin rsv1 rsv2 rsv3 => .rx [fixedByte0 fin rsv1 rsv2 rsv3 10]
  | .wireCrsv11 fin rsv1 rsv2 rsv3 => .rx [fixedByte0 fin rsv1 rsv2 rsv3 11]
  | .wireCrsv12 fin rsv1 rsv2 rsv3 => .rx [fixedByte0 fin rsv1 rsv2 rsv3 12]
  | .wireCrsv13 fin rsv1 rsv2 rsv3 => .rx [fixedByte0 fin rsv1 rsv2 rsv3 13]
  | .wireCrsv14 fin rsv1 rsv2 rsv3 => .rx [fixedByte0 fin rsv1 rsv2 rsv3 14]
  | .wireCrsv15 fin rsv1 rsv2 rsv3 => .rx [fixedByte0 fin rsv1 rsv2 rsv3 15]
  | .hdrH2 fin rsv1 rsv2 rsv3 opc len => .rx [fixedByte0 fin rsv1 rsv2 rsv3 opc, fixedByte1 false len]
  | .hdrH6 fin rsv1 rsv2 rsv3 opc len key =>
    .rx ([fixedByte0 fin rsv1 rsv2 rsv3 opc, fixedByte1 true len] ++ keyBytes key)
  | .hdrH4 fin rsv1 rsv2 rsv3 opc len => .rx ([fixedByte0 fin rsv1 rsv2 rsv3 opc, 0x7E] ++ be2 len)
  | .hdrH8 fin rsv1 rsv2 rsv3 opc len key =>
    .rx ([fixedByte0 fin rsv1 rsv2 rsv3 opc, 0xFE] ++ be2 len ++ keyBytes key)
  | .hdrH10 fin rsv1 rsv2 rsv3 opc len => .rx ([fixedByte0 fin rsv1 rsv2 rsv3 opc, 0x7F] ++ be8 len)
  | .hdrH14 fin rsv1 rsv2 rsv3 opc len key =>
    .rx ([fixedByte0 fin rsv1 rsv2 rsv3 opc, 0xFF] ++ be8 len ++ keyBytes key)

/-- The one instruction that the given words are, on the port they stand on. -/
def decode : Encoded → Except DecodeError Instr
  | .command w => .ok (decodeCommand w)
  | .rx bs =>
    match decodeRx bs with
    | .ok (i, []) => .ok i
    | .ok (_, _ :: _) => .error .trailingBytes
    | .error e => .error e

/-- The command word of a command instruction (zero for a WIRE row, which has none). -/
def commandWord (i : Instr) : CmdWord :=
  match encode i with
  | .command w => w
  | .rx _ => 0

/-! ## Words as spec/opcode_table.json numbers them -/

/-- The `n` bytes of a table word, first wire byte first: the table writes a header as one number whose most
significant byte travels first (the rows' `fields`; notes/assumptions/13.md). -/
def tableBytes : Nat → Nat → List Byte
  | 0, _ => []
  | n + 1, w => BitVec.ofNat 8 (w / 256 ^ n) :: tableBytes n w

/-- The port and the words of a table row's word. A 112-bit word is a command word, but for the words of row
RESERVED_OP_0 whose second byte is 0xFF, which are read as row H14: the two rows have the same 112 bits and the table
does not say on which port they stand (notes/assumptions/12.md). -/
def tableWord (nbits w : Nat) : Encoded :=
  if nbits = 112 then
    if w / 2 ^ 108 % 16 = 0 ∧ w / 2 ^ 96 % 256 = 255 then .rx (tableBytes 14 w)
    else .command (BitVec.ofNat 112 w)
  else .rx (tableBytes (nbits / 8) w)

/-- The instruction the decoder reads from a table row's word. -/
def decodeTableWord (nbits w : Nat) : Option Instr :=
  match decode (tableWord nbits w) with
  | .ok i => some i
  | .error _ => none

end Sys2Proof
end

