-- ==== Sys2Proof/Machine/Values.lean ====
section
/-! DEFINITION. The value types of the document's data model (spec/10_state.md R20 to R22) and the status codes
(spec/60_exceptions.md R181). -/

namespace Sys2Proof.Machine

/-- The status codes, exactly ten (R181; U9: values 10 to 15 are never written). -/
inductive Status where
  | reset | ok | none | errTruncKey | errIoRd | errIoWr | errNoFrame | errTooLong | errBadOpcode | errBadCmd
  deriving DecidableEq, Repr

/-- The value of `R_STATUS[3:0]` (R181). -/
def Status.code : Status → BitVec 4
  | .reset => 0
  | .ok => 1
  | .none => 2
  | .errTruncKey => 3
  | .errIoRd => 4
  | .errIoWr => 5
  | .errNoFrame => 6
  | .errTooLong => 7
  | .errBadOpcode => 8
  | .errBadCmd => 9

/-- A LengthFormat: three bare names (R22). -/
inductive LengthFormat where
  | u8 | u16 | u64
  deriving DecidableEq, Repr

/-- The `Data` variants of R20. `reserved k` is `Reserved(3 + k)`, so `n` cannot leave 3..7. -/
inductive DataOp where
  | continue_ | text | binary
  | reserved (k : Fin 5)
  deriving DecidableEq, Repr

/-- The `Control` variants of R20. `reserved k` is `Reserved(11 + k)`, so `n` cannot leave 11..15. -/
inductive ControlOp where
  | close | ping | pong
  | reserved (k : Fin 5)
  deriving DecidableEq, Repr

/-- OpCode: "a tagged union over two categories", sixteen values (R20). -/
inductive OpCode where
  | data (d : DataOp)
  | control (c : ControlOp)
  deriving DecidableEq, Repr

/-- FrameHeader (R21): the payload length is no field of it. Structural equality is equality of the six fields. -/
structure FrameHeader where
  isFinal : Bool
  rsv1 : Bool
  rsv2 : Bool
  rsv3 : Bool
  opcode : OpCode
  mask : Option Key
  deriving DecidableEq, Repr

end Sys2Proof.Machine
end

