-- ==== Sys2Proof/Machine/State.lean ====
section
/-! DEFINITION. The state of WSFC (spec/10_state.md part 2) and of its environment as far as it has been supplied
(spec/20_memory.md R52 to R55), as plain data; the machine after reset (R36). INVENTORY.md, '## State', lists every
field with its rule and its reset value. -/

namespace Sys2Proof.Machine

/-- The result bank (R25): the returned value of the last command. -/
structure ResultBank where
  /-- `R_STATUS` (4 bits by `Status.code`). -/
  status : Status
  /-- `R_ERRINFO`. -/
  errinfo : BitVec 8
  /-- `R_FIN`. -/
  fin : Bool
  /-- `R_RSV1`. -/
  rsv1 : Bool
  /-- `R_RSV2`. -/
  rsv2 : Bool
  /-- `R_RSV3`. -/
  rsv3 : Bool
  /-- `R_OPC`. -/
  opc : BitVec 4
  /-- `R_CLASS`: false is `Data`, true is `Control`. -/
  cls : Bool
  /-- `R_KIND`. -/
  kind : BitVec 2
  /-- `R_MASKED`. -/
  masked : Bool
  /-- `R_KEY`; the parser's key accumulator while a HDR_PARSE runs (R131). -/
  key : Key
  /-- `R_LEN`; the parser's length accumulator `acc` while a HDR_PARSE runs (R131). -/
  len : Len
  /-- `R_OVERCAP`. -/
  overcap : Bool
  /-- `R_FMT`: 0 U8, 1 U16, 2 U64. -/
  fmt : BitVec 2
  /-- `R_FIELD`. -/
  field : BitVec 7
  /-- `R_EXT`. -/
  ext : BitVec 4
  /-- `R_CNT`. -/
  cnt : BitVec 65
  deriving DecidableEq, Repr

/-- The frame register FR (R28). -/
structure FrameRegister where
  /-- `FR_VALID`. -/
  valid : Bool
  /-- `FR_FIN`. -/
  fin : Bool
  /-- `FR_RSV1`. -/
  rsv1 : Bool
  /-- `FR_RSV2`. -/
  rsv2 : Bool
  /-- `FR_RSV3`. -/
  rsv3 : Bool
  /-- `FR_OPC`. -/
  opc : BitVec 4
  /-- `FR_MASKED`. -/
  masked : Bool
  /-- `FR_KEY`. -/
  key : Key
  /-- `FR_PLEN`. -/
  plen : Len
  deriving DecidableEq, Repr

/-- The states of the byte-step machine (R31). -/
inductive Seq where
  | idle | pFix0 | pFix1 | pExt | pKey | sHdr | fPay | mRun | lRun
  deriving DecidableEq, Repr

/-- The sequencing state (R31) and the hidden state that exists while an operation runs (R35). -/
structure Sequencer where
  /-- `SEQ`. -/
  seq : Seq
  /-- `POS`: header bytes consumed or accepted so far. -/
  pos : BitVec 4
  /-- `REM`: extension or key bytes still to come. -/
  rem : BitVec 4
  /-- `PIDX`: index of the next payload or buffer byte; its low two bits are the mask phase. -/
  pidx : Len
  /-- `CMD`: the latched command word (R64). -/
  cmd : CmdWord
  /-- The byte APPLY_MASK has pulled from PIN and not yet pushed to POUT (R151; D30: at most one). -/
  hold : Option Byte
  deriving DecidableEq, Repr

/-- What ends the RX bytes (R52). -/
inductive RxEnd where
  /-- The stream ended cleanly. -/
  | eos
  /-- An I/O failure with this identity. -/
  | err (e : Byte)
  /-- An item of the fourth kind, which the source never presents (R229, U4). -/
  | kind3
  deriving DecidableEq, Repr

/-- What the TX sink answers to an offered byte (R54). -/
inductive TxAnswer where
  | ack
  /-- The byte is not accepted; an error identity. -/
  | fail (e : Byte)
  /-- `tx_ack` and `tx_fail` together, which the sink never answers (R229, U5). -/
  | both
  deriving DecidableEq, Repr

/-- The four streams: what their environment has supplied so far and what has crossed (R52, R54, R55).
The environment moves by changing these fields between steps (notes/assumptions/7.md). -/
structure Streams where
  /-- RX bytes supplied and not yet pulled, the next one first. -/
  rx : List Byte
  /-- What follows them, if that is settled already. -/
  rxEnd : Option RxEnd
  /-- The bytes the TX sink has accepted, the first first. -/
  tx : List Byte
  /-- The sink's answers to the bytes it will be offered next. -/
  txAnswers : List TxAnswer
  /-- PIN bytes supplied and not yet pulled. -/
  pin : List Byte
  /-- The bytes delivered on POUT, the first first. -/
  pout : List Byte
  /-- How many more POUT bytes the host is ready to take. -/
  poutReady : Nat
  deriving DecidableEq, Repr

/-- PBUF as the list of its bytes that hold a value: addresses strictly rising (`Memory.wf`). A byte not listed holds no
value (`UNSPEC`); notes/assumptions/5.md. -/
abbrev Memory := List Host.Cell

/-- The whole machine and what its environment has supplied. -/
structure State where
  /-- The parameters of R6, changed by no step. -/
  params : Config.Params
  /-- `BUSY` (R32). -/
  busy : Bool
  /-- The result bank (R25). -/
  res : ResultBank
  /-- The frame register (R28). -/
  fr : FrameRegister
  /-- The payload buffer (R30). -/
  pbuf : Memory
  /-- Sequencing and hidden state (R31, R35). -/
  sq : Sequencer
  /-- The streams (R52 to R55). -/
  io : Streams
  /-- The command words the host presents, the next one first (R93, R230). -/
  cmds : List CmdWord
  /-- How many coming clock edges have `rst` = 1 (R50, R210). -/
  rstEdges : Nat
  /-- The model's own: the number of the next free value (notes/assumptions/4.md). -/
  unspec : Nat
  deriving DecidableEq, Repr

/-- Where no rule applies and the machine stops. None of these is reached under the premises the spec puts on the
environment (R229) from a state that meets the invariant. -/
inductive Fault where
  /-- Raised by a HDR_PARSE that pulls an RX item of kind 3 (U4: stuck). Safe: the model stops where nothing is said. -/
  | rxKindNotAllowed
  /-- Raised by a HDR_FORMAT or FRAME_FORMAT whose byte is answered ACK and FAIL at once (U5: stuck). Safe. -/
  | txAckAndFail
  /-- Raised by an access to PBUF at or above `PBUF_BYTES` (R51: no such byte). Safe; not reached under R29. -/
  | pbufAddress
  deriving DecidableEq, Repr

/-- Why an instruction has no meaning in the model. -/
inductive Refusal where
  /-- Raised by exec's arm of an instruction that has no meaning yet, named by its mnemonic. Safe. -/
  | notModelled (mnemonic : String)
  deriving DecidableEq, Repr

/-- The result bank after reset: `R_STATUS = ST_RESET` (R36); every other register DESIGN CHOICE 0
(notes/assumptions/2.md). -/
def ResultBank.reset : ResultBank :=
  { status := .reset, errinfo := 0, fin := false, rsv1 := false, rsv2 := false, rsv3 := false, opc := 0, cls := false,
    kind := 0, masked := false, key := 0, len := 0, overcap := false, fmt := 0, field := 0, ext := 0, cnt := 0 }

/-- FR after reset: `FR_VALID = 0` (R36); every other field DESIGN CHOICE 0 (notes/assumptions/2.md). -/
def FrameRegister.reset : FrameRegister :=
  { valid := false, fin := false, rsv1 := false, rsv2 := false, rsv3 := false, opc := 0, masked := false, key := 0,
    plen := 0 }

/-- The sequencing state after reset: `SEQ = IDLE` (R36); the counters and CMD DESIGN CHOICE 0
(notes/assumptions/2.md). -/
def Sequencer.reset : Sequencer := { seq := .idle, pos := 0, rem := 0, pidx := 0, cmd := 0, hold := none }

/-- An environment that has supplied nothing yet. -/
def Streams.empty : Streams :=
  { rx := [], rxEnd := none, tx := [], txAnswers := [], pin := [], pout := [], poutReady := 0 }

/-- The machine right after reset (R36), with nothing supplied by the environment (notes/assumptions/8.md). -/
def State.reset : State :=
  { params := Config.Params.initial, busy := false, res := ResultBank.reset, fr := FrameRegister.reset, pbuf := [],
    sq := Sequencer.reset, io := Streams.empty, cmds := [], rstEdges := 0, unspec := 0 }

end Sys2Proof.Machine
end

