-- ==== Sys2Proof/Machine/Operands.lean ====
section
/-! DEFINITION. The pure functions of the operation rules over their operands: opcode classification
(spec/40_opcode_taxonomy.md), length format (spec/41_length_format.md), header bytes (spec/42_header_codec.md R134),
masking (spec/43_payload_masker.md R150). -/

namespace Sys2Proof.Machine

/-! ## Opcodes (R20, R110, R111) -/

/-- The class of a wire opcode: bit 3, false for `Data`, true for `Control` (R110). -/
def classOf (n : BitVec 4) : Bool := n.getLsbD 3

/-- The kind of a wire opcode: `n[2:0]` when that is below 3, else 3 (R110). -/
def kindOf (n : BitVec 4) : BitVec 2 :=
  if (n.extractLsb' 0 3).toNat < 3 then n.extractLsb' 0 2 else 3

/-- A `Reserved(n)` view of this class is well-formed: `n[3] = class` and `n[2:0] >= 3` (R111). -/
def reservedViewOk (cls : Bool) (n : BitVec 4) : Bool :=
  n.getLsbD 3 == cls && decide (3 ≤ (n.extractLsb' 0 3).toNat)

/-- The wire value of the view `(class, kind, n)`, or nothing when it is ill-formed (R111). -/
def encodeView (cls : Bool) (kind : BitVec 2) (n : BitVec 4) : Option (BitVec 4) :=
  if kind.toNat < 3 then some (bit cls ++ (0 : BitVec 1) ++ kind)
  else if reservedViewOk cls n then some n
  else none

/-- `decode(n)`: the tagged union of a wire value (R110). -/
def OpCode.ofWire (n : BitVec 4) : OpCode :=
  match n.toNat with
  | 0 => .data .continue_
  | 1 => .data .text
  | 2 => .data .binary
  | 3 => .data (.reserved 0)
  | 4 => .data (.reserved 1)
  | 5 => .data (.reserved 2)
  | 6 => .data (.reserved 3)
  | 7 => .data (.reserved 4)
  | 8 => .control .close
  | 9 => .control .ping
  | 10 => .control .pong
  | 11 => .control (.reserved 0)
  | 12 => .control (.reserved 1)
  | 13 => .control (.reserved 2)
  | 14 => .control (.reserved 3)
  | _ => .control (.reserved 4)

/-- `encode(c)`: the wire value of the tagged union (R111). -/
def OpCode.wire : OpCode → BitVec 4
  | .data .continue_ => 0
  | .data .text => 1
  | .data .binary => 2
  | .data (.reserved k) => BitVec.ofNat 4 (3 + k.val)
  | .control .close => 8
  | .control .ping => 9
  | .control .pong => 10
  | .control (.reserved k) => BitVec.ofNat 4 (11 + k.val)

/-- The category of an OpCode as `R_CLASS` shows it: false for `Data`, true for `Control` (R25). -/
def OpCode.cls : OpCode → Bool
  | .data _ => false
  | .control _ => true

/-- The variant of an OpCode as `R_KIND` shows it: 0, 1, 2 for the named ones in the document's order, 3 for
`Reserved` (R25). -/
def OpCode.kind : OpCode → BitVec 2
  | .data .continue_ => 0
  | .data .text => 1
  | .data .binary => 2
  | .data (.reserved _) => 3
  | .control .close => 0
  | .control .ping => 1
  | .control .pong => 2
  | .control (.reserved _) => 3

/-- `is_control(n)` (R113). -/
def isControl (n : BitVec 4) : Bool := n.getLsbD 3

/-- `is_data(n)` (R113). -/
def isData (n : BitVec 4) : Bool := !n.getLsbD 3

/-- `is_reserved(n)` (R113). -/
def isReserved (n : BitVec 4) : Bool := decide (3 ≤ (n.extractLsb' 0 3).toNat)

/-- `is_named(n)` (R113). -/
def isNamed (n : BitVec 4) : Bool := decide ((n.extractLsb' 0 3).toNat < 3)

/-! ## Length formats (R120 to R122) -/

/-- `fmt(L)`: the canonical format of a length (R120). -/
def formatOf (len : Len) : LengthFormat :=
  if len.toNat < 126 then .u8 else if len.toNat < 65536 then .u16 else .u64

/-- The format a received length field announces (R121). -/
def formatOfField (f : BitVec 7) : LengthFormat :=
  if f.toNat < 126 then .u8 else if f.toNat = 126 then .u16 else .u64

/-- The value of `R_FMT` for a format (R25). -/
def LengthFormat.code : LengthFormat → BitVec 2
  | .u8 => 0
  | .u16 => 1
  | .u64 => 2

/-- `ext`: the number of extension bytes of a format (R22). -/
def LengthFormat.extBytes : LengthFormat → Nat
  | .u8 => 0
  | .u16 => 2
  | .u64 => 8

/-- `field(L)`: the length field of the canonical encoding (R120). -/
def fieldOf (len : Len) : BitVec 7 :=
  match formatOf len with
  | .u8 => len.extractLsb' 0 7
  | .u16 => 126
  | .u64 => 127

/-- The extension bytes of the canonical encoding (R120). -/
def extensionOf (len : Len) : List Byte :=
  match formatOf len with
  | .u8 => []
  | .u16 => be2 (len.extractLsb' 0 16)
  | .u64 => be8 len

/-- How many bytes the fixed bytes and the length extension take, by fixed byte 1; 2 while it is not there (R86). -/
def lengthNeed : List Byte → Nat
  | _ :: b1 :: _ => 2 + (formatOfField (byte1Field b1)).extBytes
  | _ => 2

/-- How many bytes a header takes, by fixed byte 1; 2 while it is not there (R86). -/
def headerNeed : List Byte → Nat
  | _ :: b1 :: _ => 2 + (formatOfField (byte1Field b1)).extBytes + if byte1Mask b1 then 4 else 0
  | _ => 2

/-- `hdr_len(masked, L) = 2 + ext_bytes(L) + 4 * masked` (R122). -/
def headerLength (masked : Bool) (len : Len) : Nat := 2 + (formatOf len).extBytes + if masked then 4 else 0

/-! ## Header bytes (R134) -/

/-- `hdr_bytes(fin, rsv1, rsv2, rsv3, opc, masked, K, L)` (R134). -/
def hdrBytes (fin rsv1 rsv2 rsv3 : Bool) (opc : BitVec 4) (masked : Bool) (key : Key) (len : Len) : List Byte :=
  [fixedByte0 fin rsv1 rsv2 rsv3 opc, fixedByte1 masked (fieldOf len)] ++ extensionOf len
    ++ if masked then keyBytes key else []

/-- `hdr_bytes(H, L)` of an abstract header (R21, R134). -/
def FrameHeader.bytes (h : FrameHeader) (len : Len) : List Byte :=
  hdrBytes h.isFinal h.rsv1 h.rsv2 h.rsv3 h.opcode.wire h.mask.isSome (h.mask.getD 0) len

/-- The parser's length accumulation `acc <- (acc << 8) | b` (R131). -/
def shiftIn (acc : Len) (b : Byte) : Len := (acc <<< 8) ||| b.setWidth 64

/-- `from_be` of a byte list, in 64 bits (R9, R83). -/
def fromBe (bs : List Byte) : Len := bs.foldl shiftIn 0

/-! ## Masking (R150) -/

/-- `K[i mod 4]` of a packed key (R56, R150). -/
def keyByte (k : Key) (i : Nat) : Byte := k.extractLsb' (24 - 8 * (i % 4)) 8

/-- `K[j] <- b` in a packed key, `j` in 0..3 (R56, R131). -/
def setKeyByte (j : Nat) (b : Byte) (k : Key) : Key :=
  match j with
  | 0 => b ++ k.extractLsb' 0 24
  | 1 => k.extractLsb' 24 8 ++ b ++ k.extractLsb' 0 16
  | 2 => k.extractLsb' 16 16 ++ b ++ k.extractLsb' 0 8
  | 3 => k.extractLsb' 8 24 ++ b
  | _ => k

/-- Masking a buffer whose first byte has index `i`. -/
def applyMaskFrom (k : Key) : Nat → List Byte → List Byte
  | _, [] => []
  | i, b :: bs => (b ^^^ keyByte k i) :: applyMaskFrom k (i + 1) bs

/-- `apply_mask(B, K)`: byte `i` XOR `K[i mod 4]`, counted from 0 (R150). -/
def applyMask (bs : List Byte) (k : Key) : List Byte := applyMaskFrom k 0 bs

/-- `rot(K, r)`: the key with `rot(K, r)[j] = K[(j + r) mod 4]` (R153). -/
def rotateKey (k : Key) (r : Nat) : Key :=
  keyByte k r ++ keyByte k (r + 1) ++ keyByte k (r + 2) ++ keyByte k (r + 3)

end Sys2Proof.Machine
end

