-- ==== Sys2Proof/Machine/Flags.lean ====
section
/-! DEFINITION. The status flags of WSFC: there are no arithmetic condition codes, and three status flags
(spec/10_state.md R32). BUSY and FR_VALID are set and cleared by the operations of Ops.lean; the computed flag is here. -/

namespace Sys2Proof.Machine

/-- `R_OVERCAP`: the declared length exceeds `MAX_DECLARED_LEN`, an unsigned 64-bit comparison (R133). -/
def overcapFlag (maxDeclaredLen len : Len) : Bool := decide (maxDeclaredLen.toNat < len.toNat)

/-- A payload of this length is longer than PBUF (R160). -/
def tooLong (pbufBytes len : Len) : Bool := decide (pbufBytes.toNat < len.toNat)

end Sys2Proof.Machine
end

