-- ==== Sys2Proof/Machine/Ops.lean ====
section
/-! DEFINITION. The named operations over memory and registers: PBUF, taking and ending a command (R12, R193), registers
that become UNSPEC (R27, R28), and reset (R36, R203). WSFC has no return from an outcome (R194). -/

namespace Sys2Proof.Machine

/-! ## PBUF (R10, R30, R58) -/

/-- The canonical form of PBUF: addresses strictly rising. -/
abbrev Memory.wf (m : Memory) : Prop := m.Pairwise fun x y => x.1 < y.1

/-- `MemRead(a, 1)`: the byte listed at `a`; nothing where no byte is listed. -/
def Memory.read : Memory → Nat → Option Byte
  | [], _ => none
  | (k, v) :: m, a => if k = a then some v else Memory.read m a

/-- `MemWrite(a, 1, b)`. -/
def Memory.write : Memory → Nat → Byte → Memory
  | [], a, b => [(a, b)]
  | (k, v) :: m, a, b =>
    if a < k then (a, b) :: (k, v) :: m
    else if a = k then (k, b) :: m
    else (k, v) :: Memory.write m a b

/-- PBUF has a byte at this address (R51). -/
def pbufHas (s : State) (a : Nat) : Bool := decide (a < s.params.pbufBytes.toNat)

/-- The byte of PBUF at an address it has: the listed byte, or a free value where none is (notes/assumptions/5.md). -/
def pbufByte (s : State) (a : Nat) : Byte := (s.pbuf.read a).getD (Config.freePbuf s.unspec a)

/-! ## Accepting and ending a command (R12, R32, R64, R193) -/

/-- What CMD holds while `i` runs: the word the host presented, or `i`'s own word where exec is asked for an
instruction CMD does not hold (notes/assumptions/17.md). -/
def latchWord (i : Instr) (w : CmdWord) : CmdWord := if decodeCommand w = i then w else commandWord i

/-- A command is accepted: BUSY is set and its word is latched (R32, R64). -/
def accept (i : Instr) (s : State) : State :=
  { s with busy := true, sq := { s.sq with cmd := latchWord i s.sq.cmd } }

/-- `raise Code(info)`: `R_STATUS <- Code`, `R_ERRINFO <- info` when given, `SEQ <- IDLE`, `BUSY <- 0` (R12, R193).
What else an outcome changes is done by its operation before. POS, REM, PIDX and CMD keep what the operation left in them:
the spec gives them no value while BUSY = 0, and that they are kept is the model's choice (notes/assumptions/23.md). -/
def raise (code : Status) (info : Option Byte) (s : State) : State :=
  { s with
    busy := false
    res := { s.res with status := code, errinfo := info.getD s.res.errinfo }
    sq := { s.sq with seq := .idle } }

/-- `finish OK` (R12). -/
def finishOk (s : State) : State := raise .ok none s

/-! ## Registers that become UNSPEC (notes/assumptions/3.md) -/

/-- The eleven header registers after a HDR_PARSE that did not end ST_OK (R27, D20). -/
def forgetHeader (s : State) : State :=
  { s with
    res := { s.res with
      fin := Config.freeBit .fin s.unspec
      rsv1 := Config.freeBit .rsv1 s.unspec
      rsv2 := Config.freeBit .rsv2 s.unspec
      rsv3 := Config.freeBit .rsv3 s.unspec
      opc := Config.freeBits 4 .opc s.unspec
      cls := Config.freeBit .cls s.unspec
      kind := Config.freeBits 2 .kind s.unspec
      masked := Config.freeBit .masked s.unspec
      key := Config.freeBits 32 .key s.unspec
      len := Config.freeBits 64 .len s.unspec
      overcap := Config.freeBit .overcap s.unspec }
    unspec := s.unspec + 1 }

/-- `R_KEY` after a HDR_PARSE of an unmasked header (R27, R132). -/
def forgetKey (s : State) : State :=
  { s with res := { s.res with key := Config.freeBits 32 .key s.unspec }, unspec := s.unspec + 1 }

/-- `FR_KEY <- UNSPEC` (R160, R161). -/
def forgetFrameKey (s : State) : State :=
  { s with fr := { s.fr with key := Config.freeBits 32 .frKey s.unspec }, unspec := s.unspec + 1 }

/-- `FR_VALID <- 0`: there is no frame, every other FR field and all of PBUF are UNSPEC (R28, D15, U2), FR_MASKED among them
(notes/assumptions/16.md). -/
def forgetFrame (s : State) : State :=
  { s with
    fr := { valid := false
            fin := Config.freeBit .frFin s.unspec
            rsv1 := Config.freeBit .frRsv1 s.unspec
            rsv2 := Config.freeBit .frRsv2 s.unspec
            rsv3 := Config.freeBit .frRsv3 s.unspec
            opc := Config.freeBits 4 .frOpc s.unspec
            masked := Config.freeBit .frMasked s.unspec
            key := Config.freeBits 32 .frKey s.unspec
            plen := Config.freeBits 64 .frPlen s.unspec }
    pbuf := []
    unspec := s.unspec + 1 }

/-! ## Reset (R36, R192 (1), R203, R210 to R212) -/

/-- One clock edge with `rst` = 1: the reset state of R36, whatever was in progress; the streams and the commands
presented stay as they are. -/
def resetEdge (s : State) : State :=
  { s with
    busy := false
    res := { status := .reset
             errinfo := Config.freeBits 8 .errinfo s.unspec
             fin := Config.freeBit .fin s.unspec
             rsv1 := Config.freeBit .rsv1 s.unspec
             rsv2 := Config.freeBit .rsv2 s.unspec
             rsv3 := Config.freeBit .rsv3 s.unspec
             opc := Config.freeBits 4 .opc s.unspec
             cls := Config.freeBit .cls s.unspec
             kind := Config.freeBits 2 .kind s.unspec
             masked := Config.freeBit .masked s.unspec
             key := Config.freeBits 32 .key s.unspec
             len := Config.freeBits 64 .len s.unspec
             overcap := Config.freeBit .overcap s.unspec
             fmt := Config.freeBits 2 .fmt s.unspec
             field := Config.freeBits 7 .field s.unspec
             ext := Config.freeBits 4 .ext s.unspec
             cnt := Config.freeBits 65 .cnt s.unspec }
    fr := (forgetFrame s).fr
    pbuf := []
    sq := { seq := .idle
            pos := Config.freeBits 4 .pos s.unspec
            rem := Config.freeBits 4 .rem s.unspec
            pidx := Config.freeBits 64 .pidx s.unspec
            cmd := Config.freeBits 112 .cmd s.unspec
            hold := none }
    rstEdges := s.rstEdges - 1
    unspec := s.unspec + 1 }

end Sys2Proof.Machine
end

