-- ==== Sys2Proof/Machine/ByteStep.lean ====
section
/-! DEFINITION. The byte-step machine: one transfer of one byte (R131, R135, R151, R163, R168), and running it as far as
the environment lets it. -/

namespace Sys2Proof.Machine

/-- What one byte step does. -/
inductive Move where
  /-- One transfer was made. -/
  | moved (s : State)
  /-- The environment has not answered yet, or no operation is in progress (R231). -/
  | waits
  /-- No rule applies. -/
  | stuck (f : Fault)

/-! ## HDR_PARSE (R131, R132) -/

/-- Fixed byte 0 is taken: flags and opcode with its class and kind, held in the registers they end up in (R27, R35;
that they hold them before the HDR_PARSE completes is the model's, notes/assumptions/11.md); `POS <- 1`, `SEQ <- P_FIX1`. -/
def takeFixedByte0 (fin rsv1 rsv2 rsv3 : Bool) (opc : BitVec 4) (cls : Bool) (kind : BitVec 2) (s : State) : State :=
  { s with
    res := { s.res with fin := fin, rsv1 := rsv1, rsv2 := rsv2, rsv3 := rsv3, opc := opc, cls := cls, kind := kind }
    sq := { s.sq with pos := 1, seq := .pFix1 } }

/-- `finish OK` of HDR_PARSE: `R_OVERCAP` by R133, `R_KEY` UNSPEC when the header is unmasked (R132). -/
def finishParse (s : State) : State :=
  let s := { s with res := { s.res with overcap := overcapFlag s.params.maxDeclaredLen s.res.len } }
  finishOk (if s.res.masked then s else forgetKey s)

/-- The length is complete: the key is next, or the header is done (R131). -/
def afterLength (s : State) : State :=
  if s.res.masked then { s with sq := { s.sq with rem := 4, seq := .pKey } } else finishParse s

/-- A byte in state P_FIX1 (R131). -/
def takeFixedByte1 (b : Byte) (s : State) : State :=
  let s := { s with res := { s.res with masked := byte1Mask b }, sq := { s.sq with pos := 2 } }
  match formatOfField (byte1Field b) with
  | .u8 => afterLength { s with res := { s.res with len := (byte1Field b).setWidth 64 } }
  | .u16 => { s with res := { s.res with len := 0 }, sq := { s.sq with rem := 2, seq := .pExt } }
  | .u64 => { s with res := { s.res with len := 0 }, sq := { s.sq with rem := 8, seq := .pExt } }

/-- A byte in state P_EXT (R131). -/
def takeExtByte (b : Byte) (s : State) : State :=
  let s := { s with
    res := { s.res with len := shiftIn s.res.len b }
    sq := { s.sq with pos := s.sq.pos + 1, rem := s.sq.rem - 1 } }
  if s.sq.rem = 0 then afterLength s else s

/-- A byte in state P_KEY (R131): `K[4 - REM] <- b`. -/
def takeKeyByte (b : Byte) (s : State) : State :=
  let s := { s with
    res := { s.res with key := setKeyByte (4 - s.sq.rem.toNat) b s.res.key }
    sq := { s.sq with pos := s.sq.pos + 1, rem := s.sq.rem - 1 } }
  if s.sq.rem = 0 then finishParse s else s

/-- An RX byte in the parser's present state. -/
def parseByte (b : Byte) (s : State) : State :=
  match s.sq.seq with
  | .pFix0 => takeFixedByte0 (byte0Fin b) (byte0Rsv1 b) (byte0Rsv2 b) (byte0Rsv3 b) (byte0Opc b)
      (classOf (byte0Opc b)) (kindOf (byte0Opc b)) s
  | .pFix1 => takeFixedByte1 b s
  | .pExt => takeExtByte b s
  | .pKey => takeKeyByte b s
  | _ => s

/-- The outcome of a clean end of RX in the parser's present state (R182, R183). -/
def eosOutcome (q : Seq) : Status := if q = .pKey then .errTruncKey else .none

/-- One RX pull of a HDR_PARSE (R52, R131). EOS and ERR are not consumed. -/
def parseStep (s : State) : Move :=
  match s.io.rx with
  | b :: rest => .moved (parseByte b { s with io := { s.io with rx := rest } })
  | [] =>
    match s.io.rxEnd with
    | none => .waits
    | some .eos => .moved (raise (eosOutcome s.sq.seq) none (forgetHeader s))
    | some (.err e) => .moved (raise .errIoRd (some e) (forgetHeader s))
    | some .kind3 => .stuck .rxKindNotAllowed

/-! ## HDR_FORMAT and FRAME_FORMAT (R135, R163) -/

/-- The operation that sends is FRAME_FORMAT (`op = 11`), not HDR_FORMAT. -/
def sendsFrame (s : State) : Bool := cmdOp s.sq.cmd == 11

/-- `B`: the header bytes, of FR in a FRAME_FORMAT (R163), of the latched command word otherwise (R135). -/
def headerBytes (s : State) : List Byte :=
  if sendsFrame s then
    hdrBytes s.fr.fin s.fr.rsv1 s.fr.rsv2 s.fr.rsv3 s.fr.opc s.fr.masked s.fr.key s.fr.plen
  else
    hdrBytes (cmdFin s.sq.cmd) (cmdRsv1 s.sq.cmd) (cmdRsv2 s.sq.cmd) (cmdRsv3 s.sq.cmd) (cmdOpc s.sq.cmd)
      (cmdMasked s.sq.cmd) (cmdKey s.sq.cmd) (cmdLen s.sq.cmd)

/-- The payload byte offered in F_PAY, masked as it leaves (R163). -/
def payloadByte (s : State) : Byte :=
  if s.fr.masked then pbufByte s s.sq.pidx.toNat ^^^ keyByte s.fr.key s.sq.pidx.toNat
  else pbufByte s s.sq.pidx.toNat

/-- The header has gone out: HDR_FORMAT is done, FRAME_FORMAT goes on to the payload or is done (R135, R163). -/
def headerDone (s : State) : State :=
  if sendsFrame s then
    if s.fr.plen = 0 then finishOk (forgetFrame s) else { s with sq := { s.sq with pidx := 0, seq := .fPay } }
  else finishOk s

/-- A header byte was acknowledged: `POS <- POS + 1` (R135). -/
def headerAcked (s : State) : State :=
  let done := decide (s.sq.pos.toNat + 1 = (headerBytes s).length)
  let s := { s with sq := { s.sq with pos := s.sq.pos + 1 } }
  if done then headerDone s else s

/-- A payload byte was acknowledged: `PIDX <- PIDX + 1` (R163). -/
def payloadAcked (s : State) : State :=
  let s := { s with sq := { s.sq with pidx := s.sq.pidx + 1 } }
  if s.sq.pidx = s.fr.plen then finishOk (forgetFrame s) else s

/-- A byte was answered FAIL(e) (R135, R163, R185). -/
def sendFailed (e : Byte) (s : State) : State :=
  raise .errIoWr (some e) (if sendsFrame s then forgetFrame s else s)

/-- `TxPush(b)` and what follows the sink's answer (R54): `acked` is what an acknowledgement leads to. -/
def txPush (b : Byte) (acked : State → State) (s : State) : Move :=
  match s.io.txAnswers with
  | [] => .waits
  | .ack :: rest => .moved (acked { s with io := { s.io with tx := s.io.tx ++ [b], txAnswers := rest } })
  | .fail e :: rest => .moved (sendFailed e { s with io := { s.io with txAnswers := rest } })
  | .both :: _ => .stuck .txAckAndFail

/-- State S_HDR (R135): the byte `B[POS]` is offered. -/
def headerStep (s : State) : Move :=
  match (headerBytes s)[s.sq.pos.toNat]? with
  | some b => txPush b headerAcked s
  | none => .waits

/-- State F_PAY (R163). -/
def payloadStep (s : State) : Move :=
  if pbufHas s s.sq.pidx.toNat then txPush (payloadByte s) payloadAcked s else .stuck .pbufAddress

/-! ## APPLY_MASK (R151) -/

/-- State M_RUN: a PIN byte is pulled, or its masked value is pushed to POUT. -/
def maskStep (s : State) : Move :=
  match s.sq.hold with
  | none =>
    match s.io.pin with
    | [] => .waits
    | b :: rest => .moved { s with io := { s.io with pin := rest }, sq := { s.sq with hold := some b } }
  | some b =>
    match s.io.poutReady with
    | 0 => .waits
    | n + 1 =>
      let s := { s with
        io := { s.io with
          pout := s.io.pout ++ [b ^^^ keyByte (cmdKey s.sq.cmd) s.sq.pidx.toNat], poutReady := n }
        sq := { s.sq with hold := none, pidx := s.sq.pidx + 1 } }
      .moved (if s.sq.pidx = cmdLen s.sq.cmd then finishOk s else s)

/-! ## FRAME_MESSAGE (R160, R168) -/

/-- The payload is loaded: FR takes the fields R160 gives an unmasked, final frame. -/
def frameLoaded (s : State) : State :=
  finishOk (forgetFrameKey { s with
    fr := { s.fr with valid := true, fin := true, rsv1 := false, rsv2 := false, rsv3 := false,
                      opc := cmdOpc s.sq.cmd, masked := false, plen := cmdLen s.sq.cmd } })

/-- State L_RUN: `PBUF[PIDX] <- pin_data`, `PIDX <- PIDX + 1`. -/
def loadStep (s : State) : Move :=
  if pbufHas s s.sq.pidx.toNat then
    match s.io.pin with
    | [] => .waits
    | b :: rest =>
      let s := { s with
        io := { s.io with pin := rest }
        pbuf := s.pbuf.write s.sq.pidx.toNat b
        sq := { s.sq with pidx := s.sq.pidx + 1 } }
      .moved (if s.sq.pidx = cmdLen s.sq.cmd then frameLoaded s else s)
  else .stuck .pbufAddress

/-! ## The machine -/

/-- One byte step: one transfer on the one port group the sequencing state waits on. -/
def byteStep (s : State) : Move :=
  match s.sq.seq with
  | .idle => .waits
  | .pFix0 => parseStep s
  | .pFix1 => parseStep s
  | .pExt => parseStep s
  | .pKey => parseStep s
  | .sHdr => headerStep s
  | .fPay => payloadStep s
  | .mRun => maskStep s
  | .lRun => loadStep s

/-- Byte steps until the operation has ended, waits, or is stuck; at most `n`. -/
def runBytes : Nat → State → Host.Outcome State Fault Refusal
  | 0, s => .next s
  | n + 1, s =>
    match byteStep s with
    | .moved s => runBytes n s
    | .waits => .next s
    | .stuck f => .fault f

/-- More transfers than the environment has supplied answers for: each byte step uses one up, or ends the operation. -/
def budget (s : State) : Nat :=
  s.io.rx.length + s.io.txAnswers.length + s.io.pin.length + s.io.poutReady + 1

/-- The operation in progress goes on as far as the environment lets it. -/
def proceed (s : State) : Host.Outcome State Fault Refusal := runBytes (budget s) s

end Sys2Proof.Machine
end

