-- ==== Sys2Proof/Machine/Lengths.lean ====
section
/-! DEFINITION. LENFMT_FOR_LENGTH, LENFMT_OF_FIELD and HDR_LEN (spec/41_length_format.md R120 to R122). -/

namespace Sys2Proof.Machine

/-- `R_FMT`, `R_FIELD` and `R_EXT` are written. -/
def writeFormat (f : LengthFormat) (field : BitVec 7) (s : State) : State :=
  { s with res := { s.res with fmt := f.code, field := field, ext := BitVec.ofNat 4 f.extBytes } }

/-- `R_CNT` is written. -/
def writeCount (n : Nat) (s : State) : State := { s with res := { s.res with cnt := BitVec.ofNat 65 n } }

/-- LENFMT_FOR_LENGTH (R120). -/
def execLenfmtForLength (len : Len) (s : State) : Host.Outcome State Fault Refusal :=
  .next (finishOk (writeFormat (formatOf len) (fieldOf len) (accept (.lenfmtForLength len) s)))

/-- LENFMT_OF_FIELD (R121). -/
def execLenfmtOfField (field : BitVec 7) (s : State) : Host.Outcome State Fault Refusal :=
  .next (finishOk (writeFormat (formatOfField field) field (accept (.lenfmtOfField field) s)))

/-- HDR_LEN (R122). -/
def execHdrLen (masked : Bool) (len : Len) (s : State) : Host.Outcome State Fault Refusal :=
  .next (finishOk (writeCount (headerLength masked len) (accept (.hdrLen masked len) s)))

end Sys2Proof.Machine
end

