-- ==== Sys2Proof/Machine/Frames.lean ====
section
/-! DEFINITION. FRAME_MESSAGE, FRAME_SET_KEY, FRAME_FORMAT and FRAME_LEN (spec/44_frame_composer.md R160 to R168). -/

namespace Sys2Proof.Machine

/-- FRAME_MESSAGE (R160, R168): a payload longer than PBUF is refused before any effect; otherwise the old frame is gone
and the payload is loaded from PIN. -/
def execFrameMessage (opc : BitVec 4) (len : Len) (s : State) : Host.Outcome State Fault Refusal :=
  let s := accept (.frameMessage opc len) s
  if tooLong s.params.pbufBytes len then .next (raise .errTooLong none s)
  else
    let s := forgetFrame s
    let s := { s with sq := { s.sq with seq := .lRun, pidx := 0 } }
    if len = 0 then .next (frameLoaded s) else proceed s

/-- FRAME_SET_KEY (R161). -/
def execFrameSetKey (masked : Bool) (key : Key) (s : State) : Host.Outcome State Fault Refusal :=
  let s := accept (.frameSetKey masked key) s
  if s.fr.valid then
    if masked then .next (finishOk { s with fr := { s.fr with masked := true, key := key } })
    else .next (finishOk (forgetFrameKey { s with fr := { s.fr with masked := false } }))
  else .next (raise .errNoFrame none s)

/-- FRAME_FORMAT (R162, R163): `SEQ <- S_HDR`, `POS <- 0`, the header of FR and then its payload. -/
def execFrameFormat (s : State) : Host.Outcome State Fault Refusal :=
  let s := accept .frameFormat s
  if s.fr.valid then proceed { s with sq := { s.sq with seq := .sHdr, pos := 0 } }
  else .next (raise .errNoFrame none s)

/-- FRAME_LEN (R164): header and payload bytes of the frame in FR, in 65 bits. -/
def execFrameLen (s : State) : Host.Outcome State Fault Refusal :=
  let s := accept .frameLen s
  if s.fr.valid then .next (finishOk (writeCount (headerLength s.fr.masked s.fr.plen + s.fr.plen.toNat) s))
  else .next (raise .errNoFrame none s)

end Sys2Proof.Machine
end

