-- ==== Sys2Proof/Machine/Headers.lean ====
section
/-! DEFINITION. HDR_PARSE and HDR_FORMAT (spec/42_header_codec.md R130 to R135), and the meanings of the WIRE rows: what
the parser does when fixed byte 0, or a whole header, arrives (R88, R85, R131, R132; notes/assumptions/10.md). -/

namespace Sys2Proof.Machine

/-- HDR_PARSE (R130, R131): `SEQ <- P_FIX0`, `POS <- 0`, then one RX item at a time. -/
def execHdrParse (s : State) : Host.Outcome State Fault Refusal :=
  let s := accept .hdrParse s
  proceed { s with sq := { s.sq with seq := .pFix0, pos := 0 } }

/-- HDR_FORMAT (R134, R135): `SEQ <- S_HDR`, `POS <- 0`, then one TX byte at a time. -/
def execHdrFormat (fin rsv1 rsv2 rsv3 : Bool) (opc : BitVec 4) (masked : Bool) (key : Key) (len : Len) (s : State) :
    Host.Outcome State Fault Refusal :=
  let s := accept (.hdrFormat fin rsv1 rsv2 rsv3 opc masked key len) s
  proceed { s with sq := { s.sq with seq := .sHdr, pos := 0 } }

/-! ## WIRE_B0 rows: fixed byte 0, with the class and kind its row gives (R88, R110) -/

/-- CONTINUE: `Data(Continue)`. -/
def execWireContinue (fin rsv1 rsv2 rsv3 : Bool) (s : State) : Host.Outcome State Fault Refusal :=
  .next (takeFixedByte0 fin rsv1 rsv2 rsv3 0 false 0 s)

/-- TEXT: `Data(Text)`. -/
def execWireText (fin rsv1 rsv2 rsv3 : Bool) (s : State) : Host.Outcome State Fault Refusal :=
  .next (takeFixedByte0 fin rsv1 rsv2 rsv3 1 false 1 s)

/-- BINARY: `Data(Binary)`. -/
def execWireBinary (fin rsv1 rsv2 rsv3 : Bool) (s : State) : Host.Outcome State Fault Refusal :=
  .next (takeFixedByte0 fin rsv1 rsv2 rsv3 2 false 2 s)

/-- DRSV3: `Data(Reserved(3))`. -/
def execWireDrsv3 (fin rsv1 rsv2 rsv3 : Bool) (s : State) : Host.Outcome State Fault Refusal :=
  .next (takeFixedByte0 fin rsv1 rsv2 rsv3 3 false 3 s)

/-- DRSV4: `Data(Reserved(4))`. -/
def execWireDrsv4 (fin rsv1 rsv2 rsv3 : Bool) (s : State) : Host.Outcome State Fault Refusal :=
  .next (takeFixedByte0 fin rsv1 rsv2 rsv3 4 false 3 s)

/-- DRSV5: `Data(Reserved(5))`. -/
def execWireDrsv5 (fin rsv1 rsv2 rsv3 : Bool) (s : State) : Host.Outcome State Fault Refusal :=
  .next (takeFixedByte0 fin rsv1 rsv2 rsv3 5 false 3 s)

/-- DRSV6: `Data(Reserved(6))`. -/
def execWireDrsv6 (fin rsv1 rsv2 rsv3 : Bool) (s : State) : Host.Outcome State Fault Refusal :=
  .next (takeFixedByte0 fin rsv1 rsv2 rsv3 6 false 3 s)

/-- DRSV7: `Data(Reserved(7))`. -/
def execWireDrsv7 (fin rsv1 rsv2 rsv3 : Bool) (s : State) : Host.Outcome State Fault Refusal :=
  .next (takeFixedByte0 fin rsv1 rsv2 rsv3 7 false 3 s)

/-- CLOSE: `Control(Close)`. -/
def execWireClose (fin rsv1 rsv2 rsv3 : Bool) (s : State) : Host.Outcome State Fault Refusal :=
  .next (takeFixedByte0 fin rsv1 rsv2 rsv3 8 true 0 s)

/-- PING: `Control(Ping)`. -/
def execWirePing (fin rsv1 rsv2 rsv3 : Bool) (s : State) : Host.Outcome State Fault Refusal :=
  .next (takeFixedByte0 fin rsv1 rsv2 rsv3 9 true 1 s)

/-- PONG: `Control(Pong)`. -/
def execWirePong (fin rsv1 rsv2 rsv3 : Bool) (s : State) : Host.Outcome State Fault Refusal :=
  .next (takeFixedByte0 fin rsv1 rsv2 rsv3 10 true 2 s)

/-- CRSV11: `Control(Reserved(11))`. -/
def execWireCrsv11 (fin rsv1 rsv2 rsv3 : Bool) (s : State) : Host.Outcome State Fault Refusal :=
  .next (takeFixedByte0 fin rsv1 rsv2 rsv3 11 true 3 s)

/-- CRSV12: `Control(Reserved(12))`. -/
def execWireCrsv12 (fin rsv1 rsv2 rsv3 : Bool) (s : State) : Host.Outcome State Fault Refusal :=
  .next (takeFixedByte0 fin rsv1 rsv2 rsv3 12 true 3 s)

/-- CRSV13: `Control(Reserved(13))`. -/
def execWireCrsv13 (fin rsv1 rsv2 rsv3 : Bool) (s : State) : Host.Outcome State Fault Refusal :=
  .next (takeFixedByte0 fin rsv1 rsv2 rsv3 13 true 3 s)

/-- CRSV14: `Control(Reserved(14))`. -/
def execWireCrsv14 (fin rsv1 rsv2 rsv3 : Bool) (s : State) : Host.Outcome State Fault Refusal :=
  .next (takeFixedByte0 fin rsv1 rsv2 rsv3 14 true 3 s)

/-- CRSV15: `Control(Reserved(15))`. -/
def execWireCrsv15 (fin rsv1 rsv2 rsv3 : Bool) (s : State) : Host.Outcome State Fault Refusal :=
  .next (takeFixedByte0 fin rsv1 rsv2 rsv3 15 true 3 s)

/-! ## WIRE_HDR rows: a whole header -/

/-- A whole header of `count` bytes is taken and the HDR_PARSE ends ST_OK: the registers of R132. `rem` is what the
byte steps leave in REM. -/
def takeHeader (fin rsv1 rsv2 rsv3 : Bool) (opc : BitVec 4) (mask : Option Key) (len : Len) (count rem : BitVec 4)
    (s : State) : State :=
  let s := takeFixedByte0 fin rsv1 rsv2 rsv3 opc (classOf opc) (kindOf opc) s
  finishParse { s with
    res := { s.res with masked := mask.isSome, key := mask.getD s.res.key, len := len }
    sq := { s.sq with pos := count, rem := rem } }

/-- H2: U8, unmasked, 2 bytes (R85). -/
def execHdrH2 (fin rsv1 rsv2 rsv3 : Bool) (opc : BitVec 4) (len : BitVec 7) (s : State) :
    Host.Outcome State Fault Refusal :=
  .next (takeHeader fin rsv1 rsv2 rsv3 opc none (len.setWidth 64) 2 s.sq.rem s)

/-- H6: U8, masked, 6 bytes (R85). -/
def execHdrH6 (fin rsv1 rsv2 rsv3 : Bool) (opc : BitVec 4) (len : BitVec 7) (key : Key) (s : State) :
    Host.Outcome State Fault Refusal :=
  .next (takeHeader fin rsv1 rsv2 rsv3 opc (some key) (len.setWidth 64) 6 0 s)

/-- H4: U16, unmasked, 4 bytes (R85). -/
def execHdrH4 (fin rsv1 rsv2 rsv3 : Bool) (opc : BitVec 4) (len : BitVec 16) (s : State) :
    Host.Outcome State Fault Refusal :=
  .next (takeHeader fin rsv1 rsv2 rsv3 opc none (len.setWidth 64) 4 0 s)

/-- H8: U16, masked, 8 bytes (R85). -/
def execHdrH8 (fin rsv1 rsv2 rsv3 : Bool) (opc : BitVec 4) (len : BitVec 16) (key : Key) (s : State) :
    Host.Outcome State Fault Refusal :=
  .next (takeHeader fin rsv1 rsv2 rsv3 opc (some key) (len.setWidth 64) 8 0 s)

/-- H10: U64, unmasked, 10 bytes (R85). -/
def execHdrH10 (fin rsv1 rsv2 rsv3 : Bool) (opc : BitVec 4) (len : BitVec 64) (s : State) :
    Host.Outcome State Fault Refusal :=
  .next (takeHeader fin rsv1 rsv2 rsv3 opc none len 10 0 s)

/-- H14: U64, masked, 14 bytes (R85). -/
def execHdrH14 (fin rsv1 rsv2 rsv3 : Bool) (opc : BitVec 4) (len : BitVec 64) (key : Key) (s : State) :
    Host.Outcome State Fault Refusal :=
  .next (takeHeader fin rsv1 rsv2 rsv3 opc (some key) len 14 0 s)

end Sys2Proof.Machine
end

