-- ==== Sys2Proof/Machine/Masker.lean ====
section
/-! DEFINITION. APPLY_MASK (spec/43_payload_masker.md R150, R151). -/

namespace Sys2Proof.Machine

/-- APPLY_MASK: `SEQ <- M_RUN`, `PIDX <- 0`, then a PIN byte and a POUT byte in turn; a length of 0 ends at once. -/
def execApplyMask (key : Key) (len : Len) (s : State) : Host.Outcome State Fault Refusal :=
  let s := accept (.applyMask key len) s
  let s := { s with sq := { s.sq with seq := .mRun, pidx := 0, hold := none } }
  if len = 0 then .next (finishOk s) else proceed s

end Sys2Proof.Machine
end

