-- ==== Sys2Proof/Machine/Opcodes.lean ====
section
/-! DEFINITION. OPC_DECODE and OPC_ENCODE (spec/40_opcode_taxonomy.md R110, R111). -/

namespace Sys2Proof.Machine

/-- The three opcode registers are written. -/
def writeOpcode (opc : BitVec 4) (cls : Bool) (kind : BitVec 2) (s : State) : State :=
  { s with res := { s.res with opc := opc, cls := cls, kind := kind } }

/-- OPC_DECODE (R110). -/
def execOpcDecode (opc : BitVec 4) (s : State) : Host.Outcome State Fault Refusal :=
  .next (finishOk (writeOpcode opc (classOf opc) (kindOf opc) (accept (.opcDecode opc) s)))

/-- OPC_ENCODE (R111): an ill-formed `Reserved(n)` ends ST_ERR_BAD_OPCODE and writes no opcode register. -/
def execOpcEncode (cls : Bool) (kind : BitVec 2) (opc : BitVec 4) (s : State) : Host.Outcome State Fault Refusal :=
  match encodeView cls kind opc with
  | some r => .next (finishOk (writeOpcode r cls kind (accept (.opcEncode cls kind opc) s)))
  | none => .next (raise .errBadOpcode none (accept (.opcEncode cls kind opc) s))

end Sys2Proof.Machine
end

