-- ==== Sys2Proof/Machine/Reserved.lean ====
section
/-! DEFINITION. The four reserved operation codes (spec/30_encoding.md R95; spec/60_exceptions.md R189): accepted, and
ended at once with ST_ERR_BAD_CMD. -/

namespace Sys2Proof.Machine

/-- `op = 0`. -/
def execReservedOp0 (s : State) : Host.Outcome State Fault Refusal :=
  .next (raise .errBadCmd none (accept .reservedOp0 s))

/-- `op = 13`. -/
def execReservedOp13 (s : State) : Host.Outcome State Fault Refusal :=
  .next (raise .errBadCmd none (accept .reservedOp13 s))

/-- `op = 14`. -/
def execReservedOp14 (s : State) : Host.Outcome State Fault Refusal :=
  .next (raise .errBadCmd none (accept .reservedOp14 s))

/-- `op = 15`. -/
def execReservedOp15 (s : State) : Host.Outcome State Fault Refusal :=
  .next (raise .errBadCmd none (accept .reservedOp15 s))

end Sys2Proof.Machine
end

