-- ==== Sys2Proof/Machine/Dispatch.lean ====
section
/-! DEFINITION. One arm per constructor of Instr, each one direct call of its meaning. -/

namespace Sys2Proof.Machine

def exec (i : Instr) (s : State) : Host.Outcome State Fault Refusal :=
  match i with
  | .opcDecode opc => Sys2Proof.Machine.execOpcDecode opc s
  | .opcEncode cls kind opc => Sys2Proof.Machine.execOpcEncode cls kind opc s
  | .lenfmtForLength len => Sys2Proof.Machine.execLenfmtForLength len s
  | .lenfmtOfField field => Sys2Proof.Machine.execLenfmtOfField field s
  | .hdrLen masked len => Sys2Proof.Machine.execHdrLen masked len s
  | .hdrParse => Sys2Proof.Machine.execHdrParse s
  | .hdrFormat fin rsv1 rsv2 rsv3 opc masked key len => Sys2Proof.Machine.execHdrFormat fin rsv1 rsv2 rsv3 opc masked key len s
  | .applyMask key len => Sys2Proof.Machine.execApplyMask key len s
  | .frameMessage opc len => Sys2Proof.Machine.execFrameMessage opc len s
  | .frameSetKey masked key => Sys2Proof.Machine.execFrameSetKey masked key s
  | .frameFormat => Sys2Proof.Machine.execFrameFormat s
  | .frameLen => Sys2Proof.Machine.execFrameLen s
  | .reservedOp0 => Sys2Proof.Machine.execReservedOp0 s
  | .reservedOp13 => Sys2Proof.Machine.execReservedOp13 s
  | .reservedOp14 => Sys2Proof.Machine.execReservedOp14 s
  | .reservedOp15 => Sys2Proof.Machine.execReservedOp15 s
  | .wireContinue fin rsv1 rsv2 rsv3 => Sys2Proof.Machine.execWireContinue fin rsv1 rsv2 rsv3 s
  | .wireText fin rsv1 rsv2 rsv3 => Sys2Proof.Machine.execWireText fin rsv1 rsv2 rsv3 s
  | .wireBinary fin rsv1 rsv2 rsv3 => Sys2Proof.Machine.execWireBinary fin rsv1 rsv2 rsv3 s
  | .wireDrsv3 fin rsv1 rsv2 rsv3 => Sys2Proof.Machine.execWireDrsv3 fin rsv1 rsv2 rsv3 s
  | .wireDrsv4 fin rsv1 rsv2 rsv3 => Sys2Proof.Machine.execWireDrsv4 fin rsv1 rsv2 rsv3 s
  | .wireDrsv5 fin rsv1 rsv2 rsv3 => Sys2Proof.Machine.execWireDrsv5 fin rsv1 rsv2 rsv3 s
  | .wireDrsv6 fin rsv1 rsv2 rsv3 => Sys2Proof.Machine.execWireDrsv6 fin rsv1 rsv2 rsv3 s
  | .wireDrsv7 fin rsv1 rsv2 rsv3 => Sys2Proof.Machine.execWireDrsv7 fin rsv1 rsv2 rsv3 s
  | .wireClose fin rsv1 rsv2 rsv3 => Sys2Proof.Machine.execWireClose fin rsv1 rsv2 rsv3 s
  | .wirePing fin rsv1 rsv2 rsv3 => Sys2Proof.Machine.execWirePing fin rsv1 rsv2 rsv3 s
  | .wirePong fin rsv1 rsv2 rsv3 => Sys2Proof.Machine.execWirePong fin rsv1 rsv2 rsv3 s
  | .wireCrsv11 fin rsv1 rsv2 rsv3 => Sys2Proof.Machine.execWireCrsv11 fin rsv1 rsv2 rsv3 s
  | .wireCrsv12 fin rsv1 rsv2 rsv3 => Sys2Proof.Machine.execWireCrsv12 fin rsv1 rsv2 rsv3 s
  | .wireCrsv13 fin rsv1 rsv2 rsv3 => Sys2Proof.Machine.execWireCrsv13 fin rsv1 rsv2 rsv3 s
  | .wireCrsv14 fin rsv1 rsv2 rsv3 => Sys2Proof.Machine.execWireCrsv14 fin rsv1 rsv2 rsv3 s
  | .wireCrsv15 fin rsv1 rsv2 rsv3 => Sys2Proof.Machine.execWireCrsv15 fin rsv1 rsv2 rsv3 s
  | .hdrH2 fin rsv1 rsv2 rsv3 opc len => Sys2Proof.Machine.execHdrH2 fin rsv1 rsv2 rsv3 opc len s
  | .hdrH6 fin rsv1 rsv2 rsv3 opc len key => Sys2Proof.Machine.execHdrH6 fin rsv1 rsv2 rsv3 opc len key s
  | .hdrH4 fin rsv1 rsv2 rsv3 opc len => Sys2Proof.Machine.execHdrH4 fin rsv1 rsv2 rsv3 opc len s
  | .hdrH8 fin rsv1 rsv2 rsv3 opc len key => Sys2Proof.Machine.execHdrH8 fin rsv1 rsv2 rsv3 opc len key s
  | .hdrH10 fin rsv1 rsv2 rsv3 opc len => Sys2Proof.Machine.execHdrH10 fin rsv1 rsv2 rsv3 opc len s
  | .hdrH14 fin rsv1 rsv2 rsv3 opc len key => Sys2Proof.Machine.execHdrH14 fin rsv1 rsv2 rsv3 opc len key s

end Sys2Proof.Machine
end

