-- ==== Sys2Proof/Machine/Fetch.lean ====
section
/-! DEFINITION. Where the next step takes its instruction from. WSFC has no program counter (R31): a command comes from the
command port when BUSY = 0 (R93, R222), and a header comes from RX when a HDR_PARSE waits for fixed byte 0
(notes/assumptions/10.md). -/

namespace Sys2Proof.Machine

/-- What the next step does. -/
inductive Fetched where
  /-- A clock edge with `rst` = 1 (R192 (1)). -/
  | reset
  /-- An instruction, and the state with its words taken from their port. -/
  | instr (i : Instr) (s : State)
  /-- The operation in progress goes on. -/
  | resume
  /-- Nothing to do: BUSY = 0 and no command is presented (R201). -/
  | nothing

/-- The command port: the word is accepted and latched whole in CMD (R64, R93). -/
def fetchCommand (s : State) : Fetched :=
  match s.cmds with
  | [] => .nothing
  | w :: rest => .instr (decodeCommand w) { s with cmds := rest, sq := { s.sq with cmd := w } }

/-- RX, when the parser waits for fixed byte 0. -/
def fetchHeader (s : State) : Fetched :=
  match decodeRx s.io.rx with
  | .ok (i, rest) => .instr i { s with io := { s.io with rx := rest } }
  | .error _ => .resume

/-- Reset first (R192 (1)), then the operation in progress, then the command port (R222). -/
def fetch (s : State) : Fetched :=
  if s.rstEdges ≠ 0 then .reset
  else if s.busy then
    if s.sq.seq = .pFix0 then fetchHeader s else .resume
  else fetchCommand s

/-- `s` with the words of an instruction standing where the next step takes its instruction from. -/
def placeWords (s : State) : Encoded → State
  | .command w =>
    { s with rstEdges := 0, busy := false, sq := { s.sq with seq := .idle }, cmds := w :: s.cmds }
  | .rx bs =>
    { s with rstEdges := 0, busy := true, sq := { s.sq with seq := .pFix0, pos := 0, cmd := commandWord .hdrParse },
             io := { s.io with rx := bs } }

end Sys2Proof.Machine
end

