-- ==== Sys2Proof/Machine/Step.lean ====
section
/-! DEFINITION. One step of the machine (notes/assumptions/6.md): a reset edge, an instruction run as far as the
environment lets it, the operation in progress going on, or nothing. -/

namespace Sys2Proof.Machine

/-- One step. A step in which the machine only waits, or has nothing to do, answers the same state. -/
def step (s : State) : Host.Outcome State Fault Refusal :=
  match fetch s with
  | .reset => .next (resetEdge s)
  | .instr i s => exec i s
  | .resume => proceed s
  | .nothing => .next s

/-- `s` with a table row's word standing where step takes its next instruction from (notes/assumptions/8.md, 12.md). -/
def State.withFetchWord (s : State) (nbits w : Nat) : State := placeWords s (tableWord nbits w)

end Sys2Proof.Machine
end

