-- ==== Sys2Proof/Machine/Ports.lean ====
section
/-! DEFINITION. The output ports of WSFC as functions of its state (spec/20_memory.md R50 to R55), the abstract values the
registers hold (R25, R28), and what the host may do between steps (spec/70_reset_and_hazards.md R229). -/

namespace Sys2Proof.Machine

/-! ## Output ports -/

/-- `cmd_ready` is the inverse of BUSY (R32, D4). -/
def cmdReady (s : State) : Bool := !s.busy

/-- `fr_valid`, which the host may read when `BUSY = 0` (R32, R222). -/
def frValidPort (s : State) : Option Bool := if s.busy then none else some s.fr.valid

/-- The result ports: the result bank when `BUSY = 0`; while `BUSY = 1` their values are UNSPEC (R222, U7). -/
def resultPorts (s : State) : Option ResultBank := if s.busy then none else some s.res

/-- The sequencing state is one of the parser's. -/
def parsing (q : Seq) : Bool := q = .pFix0 || q = .pFix1 || q = .pExt || q = .pKey

/-- `rx_ready`: only while a HDR_PARSE needs a byte (R53). -/
def rxReady (s : State) : Bool := parsing s.sq.seq

/-- `tx_valid`: only while a HDR_FORMAT or FRAME_FORMAT offers a byte (R54). -/
def txValid (s : State) : Bool := s.sq.seq = .sHdr || s.sq.seq = .fPay

/-- `tx_data`: the byte offered on TX, where one is (R135, R163). -/
def txData (s : State) : Option Byte :=
  match s.sq.seq with
  | .sHdr => (headerBytes s)[s.sq.pos.toNat]?
  | .fPay => if pbufHas s s.sq.pidx.toNat then some (payloadByte s) else none
  | _ => none

/-- `pin_ready`: only in the byte phases of APPLY_MASK and FRAME_MESSAGE (R55). -/
def pinReady (s : State) : Bool := s.sq.seq = .lRun || (s.sq.seq = .mRun && s.sq.hold.isNone)

/-- `pout_valid`: only while APPLY_MASK holds a byte to hand over (R55, R151). -/
def poutValid (s : State) : Bool := s.sq.seq = .mRun && s.sq.hold.isSome

/-- `pout_data` (R151). -/
def poutData (s : State) : Option Byte :=
  if s.sq.seq = .mRun then s.sq.hold.map fun b => b ^^^ keyByte (cmdKey s.sq.cmd) s.sq.pidx.toNat else none

/-! ## Abstract values -/

/-- The abstract header the result bank holds after a HDR_PARSE that ended ST_OK (R25). -/
def parsedHeader (s : State) : FrameHeader :=
  { isFinal := s.res.fin, rsv1 := s.res.rsv1, rsv2 := s.res.rsv2, rsv3 := s.res.rsv3,
    opcode := OpCode.ofWire s.res.opc, mask := if s.res.masked then some s.res.key else none }

/-- The header of the frame in FR (R28). -/
def frameHeader (s : State) : FrameHeader :=
  { isFinal := s.fr.fin, rsv1 := s.fr.rsv1, rsv2 := s.fr.rsv2, rsv3 := s.fr.rsv3,
    opcode := OpCode.ofWire s.fr.opc, mask := if s.fr.masked then some s.fr.key else none }

/-- `PBUF[0 .. n)`. -/
def pbufBytes (s : State) (n : Nat) : List Byte := (List.range n).map (pbufByte s)

/-- The payload of the frame in FR: `PBUF[0 .. FR_PLEN)` (R28). -/
def framePayload (s : State) : List Byte := pbufBytes s s.fr.plen.toNat

/-! ## What the host may do between steps (R229) -/

/-- The host presents one more command, after those it presents already. -/
def hostPresents (w : CmdWord) (s : State) : State := { s with cmds := s.cmds ++ [w] }

/-- The RX source delivers bytes. -/
def rxDelivers (bs : List Byte) (s : State) : State := { s with io := { s.io with rx := s.io.rx ++ bs } }

/-- The RX source settles what follows its bytes. -/
def rxEnds (e : RxEnd) (s : State) : State := { s with io := { s.io with rxEnd := some e } }

/-- The TX sink will answer so. -/
def txWillAnswer (as : List TxAnswer) (s : State) : State :=
  { s with io := { s.io with txAnswers := s.io.txAnswers ++ as } }

/-- The host supplies PIN bytes. -/
def hostSupplies (bs : List Byte) (s : State) : State := { s with io := { s.io with pin := s.io.pin ++ bs } }

/-- The host is ready to take `n` more POUT bytes. -/
def hostTakes (n : Nat) (s : State) : State := { s with io := { s.io with poutReady := s.io.poutReady + n } }

/-- The host reads `n` bytes from the RX source itself (R217). -/
def hostReadRx (n : Nat) (s : State) : State := { s with io := { s.io with rx := s.io.rx.drop n } }

/-- The host writes raw bytes to the TX sink itself (R224, R229). -/
def hostWriteTx (bs : List Byte) (s : State) : State := { s with io := { s.io with tx := s.io.tx ++ bs } }

/-- The host pulls `rst` for `n` clock edges (R210). -/
def hostResets (n : Nat) (s : State) : State := { s with rstEdges := s.rstEdges + n }

end Sys2Proof.Machine
end

