-- ==== Sys2Proof/Safety.lean ====
section
/-! DEFINITION. What counts as a safe state and a safe run, and the words the claims are stated in. -/

namespace Sys2Proof.Machine

/-! ## The invariant -/

/-- The addresses PBUF lists, in order. -/
def Memory.addresses (m : Memory) : List Nat := m.map Prod.fst

/-- What holds of the sequencing state while SEQ is what it is (R31, R131, R135, R151, R163, R168): CMD holds the command
that is running, and the counters stand within their bounds. -/
def seqInv (s : State) : Prop :=
  match s.sq.seq with
  | .idle => True
  | .pFix0 => cmdOp s.sq.cmd = 6 ∧ s.sq.pos = 0
  | .pFix1 => cmdOp s.sq.cmd = 6 ∧ s.sq.pos = 1
  | .pExt => cmdOp s.sq.cmd = 6 ∧ 2 ≤ s.sq.pos.toNat ∧ 1 ≤ s.sq.rem.toNat ∧
      (s.sq.pos.toNat + s.sq.rem.toNat = 4 ∨ s.sq.pos.toNat + s.sq.rem.toNat = 10)
  | .pKey => cmdOp s.sq.cmd = 6 ∧ s.res.masked = true ∧ 1 ≤ s.sq.rem.toNat ∧ s.sq.rem.toNat ≤ 4 ∧
      (s.sq.pos.toNat + s.sq.rem.toNat = 6 ∨ s.sq.pos.toNat + s.sq.rem.toNat = 8 ∨
        s.sq.pos.toNat + s.sq.rem.toNat = 14)
  | .sHdr => (cmdOp s.sq.cmd = 7 ∨ (cmdOp s.sq.cmd = 11 ∧ s.fr.valid = true)) ∧
      s.sq.pos.toNat < (headerBytes s).length
  | .fPay => cmdOp s.sq.cmd = 11 ∧ s.fr.valid = true ∧ s.sq.pidx.toNat < s.fr.plen.toNat
  | .mRun => cmdOp s.sq.cmd = 8 ∧ s.sq.pidx.toNat < (cmdLen s.sq.cmd).toNat
  | .lRun => cmdOp s.sq.cmd = 9 ∧ s.fr.valid = false ∧ s.sq.pidx.toNat < (cmdLen s.sq.cmd).toNat ∧
      (cmdLen s.sq.cmd).toNat ≤ s.params.pbufBytes.toNat ∧ s.pbuf.addresses = List.range s.sq.pidx.toNat

/-- What holds of FR and PBUF (R28, R29, R30): a valid frame fits PBUF and PBUF lists exactly its payload bytes; without
a frame, and with none being loaded, PBUF lists nothing. -/
def frameInv (s : State) : Prop :=
  if s.fr.valid then
    s.fr.plen.toNat ≤ s.params.pbufBytes.toNat ∧ s.pbuf.addresses = List.range s.fr.plen.toNat
  else s.sq.seq ≠ .lRun → s.pbuf = []

/-- The invariant of WSFC: `SEQ = IDLE` exactly when `BUSY = 0` (R31), PBUF is in canonical form, the masker holds a byte
only while it runs, FR and PBUF agree, the sequencing state is in bounds. -/
def StateInv (s : State) : Prop :=
  (s.busy = true ↔ s.sq.seq ≠ .idle) ∧ s.pbuf.wf ∧ (s.sq.hold.isSome = true → s.sq.seq = .mRun) ∧
    frameInv s ∧ seqInv s

/-- Every frame the host interface can build is final and has no reserved bit set (R29). -/
def frameHostBuilt (s : State) : Prop :=
  s.fr.valid = true → s.fr.fin = true ∧ s.fr.rsv1 = false ∧ s.fr.rsv2 = false ∧ s.fr.rsv3 = false

/-- The environment keeps the premises of R229: no RX item of kind 3, no ACK and FAIL at once. -/
def environmentKeepsRules (s : State) : Prop := s.io.rxEnd ≠ some .kind3 ∧ TxAnswer.both ∉ s.io.txAnswers

/-! ## Words for frames: what a command leaves unchanged -/

/-- FR and every byte of PBUF are as before. -/
def sameFrame (s t : State) : Prop := t.fr = s.fr ∧ ∀ a, t.pbuf.read a = s.pbuf.read a

/-- The ports of the host and the parameters are as before: commands presented, reset input, parameters. -/
def sameHost (s t : State) : Prop := t.cmds = s.cmds ∧ t.rstEdges = s.rstEdges ∧ t.params = s.params

/-- The command is over: BUSY = 0, SEQ = IDLE. What CMD, POS, REM and PIDX hold then is the model's choice
(notes/assumptions/23.md) and stands in one statement of its own, HiddenRegistersAfterACommand. -/
def commandOver (t : State) : Prop := t.busy = false ∧ t.sq.seq = .idle

/-- The registers of the result bank no header parse writes are as before: R_FMT, R_FIELD, R_EXT, R_CNT. -/
def sameFormatRegisters (s t : State) : Prop :=
  t.res.fmt = s.res.fmt ∧ t.res.field = s.res.field ∧ t.res.ext = s.res.ext ∧ t.res.cnt = s.res.cnt

/-- The command is over and has touched nothing but the result bank: no stream, no FR field, no PBUF byte. -/
def touchesOnlyResults (s t : State) : Prop := commandOver t ∧ sameFrame s t ∧ t.io = s.io ∧ sameHost s t

/-! ## Outcomes (R190) -/

/-- Which status an instruction can end with (R190). A header row ends its HDR_PARSE with ST_OK; a fixed byte 0 ends
nothing. -/
def mayEndWith : Instr → Status → Bool
  | .opcDecode _, c => c == .ok
  | .lenfmtForLength _, c => c == .ok
  | .lenfmtOfField _, c => c == .ok
  | .hdrLen _ _, c => c == .ok
  | .applyMask _ _, c => c == .ok
  | .opcEncode _ _ _, c => c == .ok || c == .errBadOpcode
  | .hdrParse, c => c == .ok || c == .none || c == .errTruncKey || c == .errIoRd
  | .hdrFormat _ _ _ _ _ _ _ _, c => c == .ok || c == .errIoWr
  | .frameMessage _ _, c => c == .ok || c == .errTooLong
  | .frameSetKey _ _, c => c == .ok || c == .errNoFrame
  | .frameFormat, c => c == .ok || c == .errNoFrame || c == .errIoWr
  | .frameLen, c => c == .ok || c == .errNoFrame
  | .reservedOp0, c => c == .errBadCmd
  | .reservedOp13, c => c == .errBadCmd
  | .reservedOp14, c => c == .errBadCmd
  | .reservedOp15, c => c == .errBadCmd
  | .hdrH2 _ _ _ _ _ _, c => c == .ok
  | .hdrH6 _ _ _ _ _ _ _, c => c == .ok
  | .hdrH4 _ _ _ _ _ _, c => c == .ok
  | .hdrH8 _ _ _ _ _ _ _, c => c == .ok
  | .hdrH10 _ _ _ _ _ _, c => c == .ok
  | .hdrH14 _ _ _ _ _ _ _, c => c == .ok
  | .wireContinue _ _ _ _, _ => false
  | .wireText _ _ _ _, _ => false
  | .wireBinary _ _ _ _, _ => false
  | .wireDrsv3 _ _ _ _, _ => false
  | .wireDrsv4 _ _ _ _, _ => false
  | .wireDrsv5 _ _ _ _, _ => false
  | .wireDrsv6 _ _ _ _, _ => false
  | .wireDrsv7 _ _ _ _, _ => false
  | .wireClose _ _ _ _, _ => false
  | .wirePing _ _ _ _, _ => false
  | .wirePong _ _ _ _, _ => false
  | .wireCrsv11 _ _ _ _, _ => false
  | .wireCrsv12 _ _ _ _, _ => false
  | .wireCrsv13 _ _ _ _, _ => false
  | .wireCrsv14 _ _ _ _, _ => false
  | .wireCrsv15 _ _ _ _, _ => false

/-- The instruction without the key that its operation does not read: HDR_FORMAT and FRAME_SET_KEY read `key` only when
`masked = 1` (R94). -/
def withoutUnreadKey : Instr → Instr
  | .hdrFormat fin rsv1 rsv2 rsv3 opc false _ len => .hdrFormat fin rsv1 rsv2 rsv3 opc false 0 len
  | .frameSetKey false _ => .frameSetKey false 0
  | i => i

/-- The instruction stands on the command port. -/
def isCommand (i : Instr) : Bool :=
  match encode i with
  | .command _ => true
  | .rx _ => false

end Sys2Proof.Machine
end

