-- ==== Sys2Proof/Certificates/Slice0/Obligations.lean ====
section
/-! DEFINITION. The statements for the provers. Each docstring names the rule it formalises or, where it is derived,
what it rests on. A statement over every state holds for every value of the parameters, of the environment's fields and of
the model's free values. -/

open Sys2Proof Sys2Proof.Machine

/-! ## Encoding -/

/-- Words written out from the spec's encodings decode to the instructions they stand for (R81 to R85, R93, R94). -/
def Obligations.SampleWordsDecode : Prop :=
  decodeCommand 0x1090000000000000000000000000 = .opcDecode 9 ∧
  decodeCommand 0x2006000000000000000000000000 = .opcEncode true 2 0 ∧
  decodeCommand 0x782837fa213d0000000000010000 = .hdrFormat true false false false 2 true 0x37fa213d 65536 ∧
  decodeCommand 0x800037fa213d0000000000000005 = .applyMask 0x37fa213d 5 ∧
  decodeCommand 0xdfffffffffffffffffffffffffff = .reservedOp13 ∧
  decode (.rx [0x89]) = .ok (.wirePing true false false false) ∧
  decode (.rx [0x81, 0x85, 0x37, 0xfa, 0x21, 0x3d]) = .ok (.hdrH6 true false false false 1 5 0x37fa213d) ∧
  decode (.rx [0x50, 0x7e, 0x01, 0x2c]) = .ok (.hdrH4 false true false true 0 300)

/-- Decoding the words of a well-formed instruction gives it back, every operand at every value (R81 to R85, R93 to
R95, R99).
That a WIRE row is an instruction is the model's (notes/assumptions/10.md). -/
def Obligations.DecodeEncodeRoundTrip : Prop :=
  ∀ i : Instr, wellFormed i = true → decode (encode i) = .ok i

/-- Every 112-bit word is a command: its instruction stands on the command port, has the word's operation code, and is
decoded again from the word it encodes to; a reserved code decodes to its reserved row; and two words equal in `op` and in
the fields R94 lists for it decode alike, whatever their other fields hold (R94, R95, D25). -/
def Obligations.EveryCommandWordDecodes : Prop :=
  ∀ w : CmdWord,
    isCommand (decodeCommand w) = true ∧ cmdOp (commandWord (decodeCommand w)) = cmdOp w ∧
    decodeCommand (commandWord (decodeCommand w)) = decodeCommand w ∧
    (decodeCommand w = .reservedOp0 ∨ decodeCommand w = .reservedOp13 ∨ decodeCommand w = .reservedOp14 ∨
        decodeCommand w = .reservedOp15 ↔
      (cmdOp w).toNat = 0 ∨ 13 ≤ (cmdOp w).toNat) ∧
    ∀ v : CmdWord, cmdOp v = cmdOp w →
      (cmdOp w = 1 → cmdOpc v = cmdOpc w) →
      (cmdOp w = 2 → cmdClass v = cmdClass w ∧ cmdKind v = cmdKind w ∧ cmdOpc v = cmdOpc w) →
      (cmdOp w = 3 → cmdLen v = cmdLen w) →
      (cmdOp w = 4 → (cmdLen v).toNat % 128 = (cmdLen w).toNat % 128) →
      (cmdOp w = 5 → cmdMasked v = cmdMasked w ∧ cmdLen v = cmdLen w) →
      (cmdOp w = 7 → cmdFin v = cmdFin w ∧ cmdRsv1 v = cmdRsv1 w ∧ cmdRsv2 v = cmdRsv2 w ∧ cmdRsv3 v = cmdRsv3 w ∧
        cmdOpc v = cmdOpc w ∧ cmdMasked v = cmdMasked w ∧ (cmdMasked w = true → cmdKey v = cmdKey w) ∧
        cmdLen v = cmdLen w) →
      (cmdOp w = 8 → cmdKey v = cmdKey w ∧ cmdLen v = cmdLen w) →
      (cmdOp w = 9 → cmdOpc v = cmdOpc w ∧ cmdLen v = cmdLen w) →
      (cmdOp w = 10 → cmdMasked v = cmdMasked w ∧ (cmdMasked w = true → cmdKey v = cmdKey w)) →
      withoutUnreadKey (decodeCommand v) = withoutUnreadKey (decodeCommand w)

/-- The length of a header is known from fixed byte 1 and nothing else: `2 + E + M` (R86). -/
def Obligations.HeaderLengthIsSetByFixedByte1 : Prop :=
  ∀ (b0 b1 : Byte) (rest : List Byte),
    let e := if b1.toNat % 128 < 126 then 0 else if b1.toNat % 128 = 126 then 2 else 8
    let m := if 128 ≤ b1.toNat then 4 else 0
    (e + m ≤ rest.length → ∃ i, decodeHeader (b0 :: b1 :: rest) = .ok (i, rest.drop (e + m))) ∧
    (rest.length < e → decodeHeader (b0 :: b1 :: rest) = .error .extensionShort) ∧
    (e ≤ rest.length → rest.length < e + m → decodeHeader (b0 :: b1 :: rest) = .error .keyShort)

/-- Decoding the canonical encoding of a length gives the length back, and its format (R123 (2), R87). -/
def Obligations.CanonicalLengthDecodesBack : Prop :=
  ∀ len : Len,
    formatOfField (fieldOf len) = formatOf len ∧ (extensionOf len).length = (formatOf len).extBytes ∧
    (if (formatOf len).extBytes = 0 then (fieldOf len).setWidth 64 else fromBe (extensionOf len)) = len

/-! ## Steps -/

/-- When BUSY = 0 and no reset is applied, the next step runs the command the first word presented decodes to: the word
is taken from the port and latched whole in CMD (R64, R93, R222).
The step granularity is the model's (notes/assumptions/6.md). -/
def Obligations.StepRunsThePresentedCommand : Prop :=
  ∀ (s : State) (w : CmdWord) (rest : List CmdWord),
    s.rstEdges = 0 → s.busy = false → s.cmds = w :: rest →
    step s = exec (decodeCommand w) { s with cmds := rest, sq := { s.sq with cmd := w } }

/-- When a HDR_PARSE waits for fixed byte 0 and no reset is applied, the next step runs the instruction the RX bytes
decode to, with its bytes taken from RX (R53, R131; notes/assumptions/10.md). -/
def Obligations.StepRunsTheArrivingHeader : Prop :=
  ∀ (s : State) (i : Instr) (rest : List Byte),
    s.rstEdges = 0 → s.busy = true → s.sq.seq = .pFix0 → decodeRx s.io.rx = .ok (i, rest) →
    step s = exec i { s with io := { s.io with rx := rest } }

/-- With BUSY = 0 and no command presented the block does nothing and holds its state; and while an operation runs no
command is taken from the port (R201, R222).
That POS, REM, PIDX and CMD are held too, where R35 gives them no value, is the model's (notes/assumptions/23.md). -/
def Obligations.NothingHappensWithoutACommand : Prop :=
  (∀ s : State, s.rstEdges = 0 → s.busy = false → s.cmds = [] → step s = .next s) ∧
  (∀ s t : State, s.busy = true → step s = .next t → t.cmds = s.cmds)

/-- A clock edge with `rst` = 1 wins over everything: it ends any operation without an outcome, gives the state of R36 and
leaves the streams and the commands presented as they were; a held byte is withdrawn (R36, R192, R203, R212).
That an UNSPEC byte of PBUF reads as no value is the model's (notes/assumptions/5.md). -/
def Obligations.ResetWinsAndLeavesTheStreams : Prop :=
  ∀ s : State, s.rstEdges ≠ 0 →
    ∃ t, step s = .next t ∧ t.busy = false ∧ t.sq.seq = .idle ∧ t.res.status.code = 0 ∧ t.fr.valid = false ∧
      t.sq.hold = none ∧ (∀ a, t.pbuf.read a = none) ∧ t.io = s.io ∧ t.cmds = s.cmds ∧ t.params = s.params ∧
      t.rstEdges + 1 = s.rstEdges ∧ cmdReady t = true ∧ frValidPort t = some false ∧ rxReady t = false ∧
      txValid t = false ∧ pinReady t = false ∧ poutValid t = false

/-- The state after reset: idle, `R_STATUS = ST_RESET`, no frame, and the output ports these give (R36). -/
def Obligations.ResetStateIsIdleWithNoFrame : Prop :=
  State.reset.busy = false ∧ State.reset.sq.seq = .idle ∧ State.reset.res.status.code = 0 ∧
  State.reset.fr.valid = false ∧ cmdReady State.reset = true ∧ frValidPort State.reset = some false ∧
  rxReady State.reset = false ∧ txValid State.reset = false ∧ pinReady State.reset = false ∧
  poutValid State.reset = false

/-! ## Opcode taxonomy -/

/-- OPC_DECODE: class and kind of every wire opcode, and nothing else changes; it is the command words with `op = 1`, and
`n` is their `opc` (R110, R114). -/
def Obligations.OpcDecodeClassifiesEveryWireOpcode : Prop :=
  (∀ w : CmdWord, cmdOp w = 1 → decodeCommand w = .opcDecode (cmdOpc w)) ∧
  ∀ (n : BitVec 4) (s : State),
    ∃ t, exec (.opcDecode n) s = .next t ∧
      t.res = { s.res with
        status := .ok, opc := n, cls := decide (8 ≤ n.toNat)
        kind := if n.toNat % 8 < 3 then BitVec.ofNat 2 (n.toNat % 8) else 3 } ∧
      (OpCode.ofWire n).wire = n ∧ (OpCode.ofWire n).cls = t.res.cls ∧ (OpCode.ofWire n).kind = t.res.kind ∧
      touchesOnlyResults s t

/-- OPC_ENCODE: the view of every OpCode encodes to its wire value, `n` being read only for a `Reserved`; a `Reserved(n)`
view that is no OpCode ends ST_ERR_BAD_OPCODE and writes no opcode register; nothing else changes. It is the command words
with `op = 2` (R111, R188, R114). -/
def Obligations.OpcEncodeAcceptsExactlyTheOpCodes : Prop :=
  (∀ w : CmdWord, cmdOp w = 2 → decodeCommand w = .opcEncode (cmdClass w) (cmdKind w) (cmdOpc w)) ∧
  (∀ (c : OpCode) (n : BitVec 4) (s : State), (c.kind = 3 → n = c.wire) →
    ∃ t, exec (.opcEncode c.cls c.kind n) s = .next t ∧
      t.res = { s.res with status := .ok, opc := c.wire, cls := c.cls, kind := c.kind } ∧
      touchesOnlyResults s t) ∧
  (∀ (cls : Bool) (n : BitVec 4) (s : State), (∀ c : OpCode, c.cls = cls → c.kind = 3 → c.wire ≠ n) →
    ∃ t, exec (.opcEncode cls 3 n) s = .next t ∧ t.res = { s.res with status := .errBadOpcode } ∧
      touchesOnlyResults s t)

/-- The opcode bijection: `encode(decode(n)) = n`, `decode(encode(c)) = c`, and an OPC_DECODE followed by an OPC_ENCODE of
the registers it wrote ends ST_OK with `R_OPC = n` (R112). -/
def Obligations.OpcodeBijection : Prop :=
  (∀ n : BitVec 4, (OpCode.ofWire n).wire = n) ∧ (∀ c : OpCode, OpCode.ofWire c.wire = c) ∧
  (∀ (n : BitVec 4) (s t : State), exec (.opcDecode n) s = .next t →
    ∃ u, exec (.opcEncode t.res.cls t.res.kind t.res.opc) t = .next u ∧ u.res.status = .ok ∧ u.res.opc = n)

/-! ## Length formats -/

/-- LENFMT_FOR_LENGTH: the canonical format of every 64-bit length with its extension bytes, and nothing else changes; it is
the command words with `op = 3`, and the length is their `len` (R120, R125). -/
def Obligations.LenfmtForLengthSelectsTheCanonicalFormat : Prop :=
  (∀ w : CmdWord, cmdOp w = 3 → decodeCommand w = .lenfmtForLength (cmdLen w)) ∧
  ∀ (len : Len) (s : State),
    ∃ t, exec (.lenfmtForLength len) s = .next t ∧
      t.res = { s.res with
        status := .ok
        fmt := if len.toNat < 126 then 0 else if len.toNat < 65536 then 1 else 2
        field := if len.toNat < 126 then BitVec.ofNat 7 len.toNat else if len.toNat < 65536 then 126 else 127
        ext := if len.toNat < 126 then 0 else if len.toNat < 65536 then 2 else 8 } ∧
      (extensionOf len).length = t.res.ext.toNat ∧
      extensionOf len =
        (if len.toNat < 126 then [] else if len.toNat < 65536 then be2 (len.extractLsb' 0 16) else be8 len) ∧
      touchesOnlyResults s t

/-- LENFMT_OF_FIELD: the format every received field announces, and nothing else changes; the bits of `len` above the
field are ignored (R121, R125). -/
def Obligations.LenfmtOfFieldReadsTheField : Prop :=
  (∀ (f : BitVec 7) (s : State),
    ∃ t, exec (.lenfmtOfField f) s = .next t ∧
      t.res = { s.res with
        status := .ok
        fmt := if f.toNat < 126 then 0 else if f.toNat = 126 then 1 else 2
        field := f
        ext := if f.toNat < 126 then 0 else if f.toNat = 126 then 2 else 8 } ∧
      touchesOnlyResults s t) ∧
  (∀ w : CmdWord, cmdOp w = 4 → decodeCommand w = .lenfmtOfField (BitVec.ofNat 7 ((cmdLen w).toNat % 128)))

/-- HDR_LEN: `R_CNT` is `2 + ext_bytes + 4 * masked`, which is the number of bytes of the header HDR_FORMAT writes, and
nothing else changes; it is the command words with `op = 5` (R122, R125). -/
def Obligations.HdrLenCountsTheHeaderBytes : Prop :=
  (∀ w : CmdWord, cmdOp w = 5 → decodeCommand w = .hdrLen (cmdMasked w) (cmdLen w)) ∧
  ∀ (masked : Bool) (len : Len) (s : State),
    ∃ t, exec (.hdrLen masked len) s = .next t ∧
      t.res = { s.res with
        status := .ok
        cnt := BitVec.ofNat 65 (2 + (if len.toNat < 126 then 0 else if len.toNat < 65536 then 2 else 8)
          + if masked then 4 else 0) } ∧
      (∀ (fin rsv1 rsv2 rsv3 : Bool) (opc : BitVec 4) (key : Key),
        (hdrBytes fin rsv1 rsv2 rsv3 opc masked key len).length = t.res.cnt.toNat) ∧
      touchesOnlyResults s t

/-! ## Header codec -/

/-- HDR_PARSE on a complete header, whatever its bytes: ST_OK, every header register as R132 says, the over-cap flag as
R133 says, exactly the header's bytes consumed, and nothing else changed (R130, R132, R133, R53). -/
def Obligations.HdrParseReadsACompleteHeader : Prop :=
  (∀ w : CmdWord, cmdOp w = 6 → decodeCommand w = .hdrParse) ∧
  ∀ (s : State) (b0 b1 : Byte) (ext key rest : List Byte),
    ext.length = (if b1.toNat % 128 < 126 then 0 else if b1.toNat % 128 = 126 then 2 else 8) →
    key.length = (if 128 ≤ b1.toNat then 4 else 0) →
    s.io.rx = b0 :: b1 :: (ext ++ key ++ rest) →
    let len : Len := if b1.toNat % 128 < 126 then BitVec.ofNat 64 (b1.toNat % 128) else fromBe ext
    ∃ t, exec .hdrParse s = .next t ∧ commandOver t ∧
      t.res = { s.res with
        status := .ok, fin := b0.getLsbD 7, rsv1 := b0.getLsbD 6, rsv2 := b0.getLsbD 5, rsv3 := b0.getLsbD 4
        opc := BitVec.ofNat 4 b0.toNat
        cls := (OpCode.ofWire (BitVec.ofNat 4 b0.toNat)).cls
        kind := (OpCode.ofWire (BitVec.ofNat 4 b0.toNat)).kind
        masked := decide (128 ≤ b1.toNat), key := t.res.key, len := len
        overcap := decide (s.params.maxDeclaredLen.toNat < len.toNat) } ∧
      (128 ≤ b1.toNat → keyBytes t.res.key = key) ∧
      t.io = { s.io with rx := rest } ∧
      sameFrame s t ∧ sameHost s t

/-- HDR_PARSE on a stream that is too short for the header it announces: ST_NONE when it ends cleanly inside the fixed
bytes or the extension, ST_ERR_TRUNC_KEY when it ends cleanly inside the key, ST_ERR_IO_RD with the identity on an error
item; every byte there was is consumed, the terminator is not, and nothing but the status, R_ERRINFO and the header
registers changes (R130, R138, R182 to R184, R52). -/
def Obligations.HdrParseReportsAShortStream : Prop :=
  ∀ s : State, s.io.rx.length < headerNeed s.io.rx →
    (s.io.rxEnd = some .eos →
      ∃ t, exec .hdrParse s = .next t ∧ commandOver t ∧
        t.res.status = (if s.io.rx.length < lengthNeed s.io.rx then .none else .errTruncKey) ∧
        t.res.errinfo = s.res.errinfo ∧ t.io = { s.io with rx := [] } ∧ sameFormatRegisters s t ∧
        sameFrame s t ∧ sameHost s t) ∧
    (∀ e, s.io.rxEnd = some (.err e) →
      ∃ t, exec .hdrParse s = .next t ∧ commandOver t ∧ t.res.status = .errIoRd ∧
        t.res.errinfo = e ∧ t.io = { s.io with rx := [] } ∧ sameFormatRegisters s t ∧ sameFrame s t ∧ sameHost s t)

/-- HDR_PARSE on an open stream that delivers too little waits: it has taken every byte there is, BUSY stays 1, RX is
still asked for, no status is written; and a further step without a change of the environment changes nothing (R52,
R231).
That a waiting step answers the same state is the model's (notes/assumptions/6.md). -/
def Obligations.HdrParseWaitsOnAnOpenStream : Prop :=
  ∀ s : State, s.io.rx.length < headerNeed s.io.rx → s.io.rxEnd = none →
    ∃ t, exec .hdrParse s = .next t ∧ t.busy = true ∧ rxReady t = true ∧ t.sq.pos.toNat = s.io.rx.length ∧
      t.res.status = s.res.status ∧ t.res.errinfo = s.res.errinfo ∧ t.io = { s.io with rx := [] } ∧
      sameFormatRegisters s t ∧ sameFrame s t ∧ sameHost s t ∧ (t.rstEdges = 0 → step t = .next t)

/-- Format then parse: from an RX stream that delivers `hdr_bytes(H, L)` followed by anything, HDR_PARSE ends ST_OK,
consumes exactly `hdr_len` bytes and reports a header structurally equal to `H` and `R_LEN = L` (R136). -/
def Obligations.FormatThenParseRecoversTheHeader : Prop :=
  ∀ (h : FrameHeader) (len : Len) (s : State) (rest : List Byte),
    s.io.rx = h.bytes len ++ rest →
    ∃ t, exec .hdrParse s = .next t ∧ t.busy = false ∧ t.res.status = .ok ∧ parsedHeader t = h ∧ t.res.len = len ∧
      t.io.rx = rest ∧ s.io.rx.length = headerLength h.mask.isSome len + t.io.rx.length

/-- Parse then format: the bytes HDR_PARSE consumed are what the parsed header serializes to exactly when they used the
canonical length encoding; otherwise the serialized header is 2, 6 or 8 bytes shorter and differs from them from byte 1 on
(R137, R91). -/
def Obligations.ParseThenFormatIsCanonical : Prop :=
  ∀ (s t : State) (w : List Byte), exec .hdrParse s = .next t → t.busy = false → t.res.status = .ok →
    s.io.rx = w ++ t.io.rx →
    let f := (w.getD 1 0).toNat % 128
    let n := t.res.len.toNat
    ((parsedHeader t).bytes t.res.len = w ↔ ¬(f = 126 ∧ n < 126) ∧ ¬(f = 127 ∧ n < 65536)) ∧
    (f = 126 ∧ n < 126 ∨ f = 127 ∧ n < 65536 →
      ((parsedHeader t).bytes t.res.len)[0]? = w[0]? ∧ ((parsedHeader t).bytes t.res.len)[1]? ≠ w[1]?) ∧
    (f = 126 ∧ n < 126 → ((parsedHeader t).bytes t.res.len).length + 2 = w.length) ∧
    (f = 127 ∧ n < 126 → ((parsedHeader t).bytes t.res.len).length + 8 = w.length) ∧
    (f = 127 ∧ 126 ≤ n ∧ n < 65536 → ((parsedHeader t).bytes t.res.len).length + 6 = w.length)

/-- HDR_FORMAT: when the sink acknowledges every byte, exactly `hdr_bytes(H, L)` is appended to TX, the outcome is ST_OK
and nothing else changes (R134). -/
def Obligations.HdrFormatWritesTheHeaderBytes : Prop :=
  (∀ w : CmdWord, cmdOp w = 7 → decodeCommand w = .hdrFormat (cmdFin w) (cmdRsv1 w) (cmdRsv2 w) (cmdRsv3 w) (cmdOpc w)
    (cmdMasked w) (cmdKey w) (cmdLen w)) ∧
  ∀ (fin rsv1 rsv2 rsv3 : Bool) (opc : BitVec 4) (masked : Bool) (key : Key) (len : Len) (s : State)
    (rest : List TxAnswer),
    s.io.txAnswers = List.replicate (headerLength masked len) .ack ++ rest →
    ∃ t, exec (.hdrFormat fin rsv1 rsv2 rsv3 opc masked key len) s = .next t ∧
      commandOver t ∧ t.res = { s.res with status := .ok } ∧
      t.io = { s.io with tx := s.io.tx ++ hdrBytes fin rsv1 rsv2 rsv3 opc masked key len, txAnswers := rest } ∧
      sameFrame s t ∧ sameHost s t

/-- HDR_FORMAT: at the first FAIL(e) the outcome is ST_ERR_IO_WR with `R_ERRINFO = e`; the bytes acknowledged before stay
in the sink and no further byte is offered (R134, R54, R185). -/
def Obligations.HdrFormatStopsAtTheFirstFailure : Prop :=
  ∀ (fin rsv1 rsv2 rsv3 : Bool) (opc : BitVec 4) (masked : Bool) (key : Key) (len : Len) (s : State) (k : Nat)
    (e : Byte) (rest : List TxAnswer),
    k < headerLength masked len → s.io.txAnswers = List.replicate k .ack ++ .fail e :: rest →
    ∃ t, exec (.hdrFormat fin rsv1 rsv2 rsv3 opc masked key len) s = .next t ∧
      commandOver t ∧
      t.res = { s.res with status := .errIoWr, errinfo := e } ∧
      t.io = { s.io with tx := s.io.tx ++ (hdrBytes fin rsv1 rsv2 rsv3 opc masked key len).take k, txAnswers := rest } ∧
      sameFrame s t ∧ sameHost s t

/-! ## Headers arriving on RX: the WIRE rows -/

/-- Fixed byte 0 of each wire opcode, for each of the sixteen WIRE_B0 rows: its flags and its opcode with the class and
kind the row gives are taken, the parser goes on to fixed byte 1, and nothing else changes. The layout and the class and
kind are those of R81, R88 and R110, POS and SEQ those of R131.
That these rows are instructions is the model's (notes/assumptions/10.md). That R_FIN to R_KIND hold the byte's values already
here, while BUSY = 1, is the model's too (notes/assumptions/11.md): R131 says only `b0 <- b`, R132 gives the registers at
completion, and R27 and R35 let the parser assemble the header in them. -/
def Obligations.FixedByte0IsTakenWithItsClass : Prop :=
  ∀ (fin rsv1 rsv2 rsv3 : Bool) (s : State),
    let taken (n : BitVec 4) (cls : Bool) (kind : BitVec 2) (i : Instr) : Prop :=
      ∃ t, exec i s = .next t ∧
        t.res = { s.res with fin := fin, rsv1 := rsv1, rsv2 := rsv2, rsv3 := rsv3, opc := n, cls := cls, kind := kind } ∧
        t.sq = { s.sq with pos := 1, seq := .pFix1 } ∧ t.busy = s.busy ∧ t.io = s.io ∧ sameFrame s t ∧ sameHost s t
    taken 0 false 0 (.wireContinue fin rsv1 rsv2 rsv3) ∧ taken 1 false 1 (.wireText fin rsv1 rsv2 rsv3) ∧
    taken 2 false 2 (.wireBinary fin rsv1 rsv2 rsv3) ∧ taken 3 false 3 (.wireDrsv3 fin rsv1 rsv2 rsv3) ∧
    taken 4 false 3 (.wireDrsv4 fin rsv1 rsv2 rsv3) ∧ taken 5 false 3 (.wireDrsv5 fin rsv1 rsv2 rsv3) ∧
    taken 6 false 3 (.wireDrsv6 fin rsv1 rsv2 rsv3) ∧ taken 7 false 3 (.wireDrsv7 fin rsv1 rsv2 rsv3) ∧
    taken 8 true 0 (.wireClose fin rsv1 rsv2 rsv3) ∧ taken 9 true 1 (.wirePing fin rsv1 rsv2 rsv3) ∧
    taken 10 true 2 (.wirePong fin rsv1 rsv2 rsv3) ∧ taken 11 true 3 (.wireCrsv11 fin rsv1 rsv2 rsv3) ∧
    taken 12 true 3 (.wireCrsv12 fin rsv1 rsv2 rsv3) ∧ taken 13 true 3 (.wireCrsv13 fin rsv1 rsv2 rsv3) ∧
    taken 14 true 3 (.wireCrsv14 fin rsv1 rsv2 rsv3) ∧ taken 15 true 3 (.wireCrsv15 fin rsv1 rsv2 rsv3)

/-- A whole header of each of the six shapes: the HDR_PARSE it arrives at ends ST_OK with the registers of R132, the key
being reported for the masked shapes, and nothing else changes (R85, R87, R132, R133).
That these rows are instructions is the model's (notes/assumptions/10.md), as is what POS, PIDX and CMD hold once the
HDR_PARSE is over (notes/assumptions/23.md). -/
def Obligations.HeaderShapesAreTakenWhole : Prop :=
  ∀ (fin rsv1 rsv2 rsv3 : Bool) (opc : BitVec 4) (l7 : BitVec 7) (l16 : BitVec 16) (l64 : BitVec 64) (key : Key)
    (s : State),
    let taken (count : BitVec 4) (mask : Option Key) (len : Len) (i : Instr) : Prop :=
      ∃ t, exec i s = .next t ∧ t.busy = false ∧ t.sq.seq = .idle ∧ t.sq.pos = count ∧ t.res.status = .ok ∧
        parsedHeader t =
          { isFinal := fin, rsv1 := rsv1, rsv2 := rsv2, rsv3 := rsv3, opcode := OpCode.ofWire opc, mask := mask } ∧
        t.res.opc = opc ∧ t.res.cls = (OpCode.ofWire opc).cls ∧ t.res.kind = (OpCode.ofWire opc).kind ∧
        t.res.len = len ∧ t.res.overcap = decide (s.params.maxDeclaredLen.toNat < len.toNat) ∧
        t.res.errinfo = s.res.errinfo ∧ sameFormatRegisters s t ∧ t.sq.cmd = s.sq.cmd ∧ t.sq.pidx = s.sq.pidx ∧
        t.sq.hold = s.sq.hold ∧ t.io = s.io ∧ sameFrame s t ∧ sameHost s t
    taken 2 none (BitVec.ofNat 64 l7.toNat) (.hdrH2 fin rsv1 rsv2 rsv3 opc l7) ∧
    taken 6 (some key) (BitVec.ofNat 64 l7.toNat) (.hdrH6 fin rsv1 rsv2 rsv3 opc l7 key) ∧
    taken 4 none (BitVec.ofNat 64 l16.toNat) (.hdrH4 fin rsv1 rsv2 rsv3 opc l16) ∧
    taken 8 (some key) (BitVec.ofNat 64 l16.toNat) (.hdrH8 fin rsv1 rsv2 rsv3 opc l16 key) ∧
    taken 10 none l64 (.hdrH10 fin rsv1 rsv2 rsv3 opc l64) ∧
    taken 14 (some key) l64 (.hdrH14 fin rsv1 rsv2 rsv3 opc l64 key)

/-- The header rows are what the byte-step machine does: taking a whole header at once gives the very state the byte steps
of R131 lead to, and taking fixed byte 0 the very state of one byte step (R13, R131, R132).
That these rows are instructions is the model's (notes/assumptions/10.md), and so is where the header stands until it is
complete (notes/assumptions/11.md). -/
def Obligations.HeaderRowsRefineTheByteSteps : Prop :=
  ∀ s : State, s.sq.seq = .pFix0 →
    (∀ (i : Instr) (rest : List Byte), decodeHeader s.io.rx = .ok (i, rest) →
      exec i { s with io := { s.io with rx := rest } } = proceed s) ∧
    (∀ (b : Byte) (rest : List Byte), s.io.rx = b :: rest →
      ∃ t, byteStep s = .moved t ∧ exec (decodeFixedByte0 b) { s with io := { s.io with rx := rest } } = .next t)

/-! ## Payload masker -/

/-- APPLY_MASK: with `len` bytes on PIN and a host that takes `len` bytes, POUT gets `apply_mask(B, K)`, byte `i` being
`B[i] ^ K[i mod 4]`, the outcome is ST_OK and nothing else changes (R150). -/
def Obligations.ApplyMaskXorsTheRollingKey : Prop :=
  (∀ w : CmdWord, cmdOp w = 8 → decodeCommand w = .applyMask (cmdKey w) (cmdLen w)) ∧
  ∀ (key : Key) (bs rest : List Byte) (s : State) (room : Nat), bs.length < 2 ^ 64 →
    s.io.pin = bs ++ rest → s.io.poutReady = bs.length + room →
    ∃ t, exec (.applyMask key (BitVec.ofNat 64 bs.length)) s = .next t ∧
      commandOver t ∧ t.res = { s.res with status := .ok } ∧
      t.io = { s.io with pin := rest, pout := s.io.pout ++ applyMask bs key, poutReady := room } ∧
      (∀ (i : Nat) (b : Byte), bs[i]? = some b → (applyMask bs key)[i]? = some (b ^^^ (keyBytes key).getD (i % 4) 0)) ∧
      (applyMask bs key).length = bs.length ∧ sameFrame s t ∧ sameHost s t

/-- Masking is its own inverse: for all buffers and keys, masking twice with the same key gives the buffer back (R152). -/
def Obligations.MaskingIsItsOwnInverse : Prop := ∀ (bs : List Byte) (k : Key), applyMask (applyMask bs k) k = bs

/-- Further laws of the masker: it keeps the length, keys compose by XOR, the zero key leaves a buffer as it is, a zero
buffer gives the key repeated, and splitting a buffer rotates the key (R153 (1) to (5)). -/
def Obligations.MaskingLaws : Prop :=
  (∀ (bs : List Byte) (k : Key), (applyMask bs k).length = bs.length) ∧
  (∀ (bs : List Byte) (k l : Key), applyMask (applyMask bs k) l = applyMask bs (k ^^^ l)) ∧
  (∀ bs : List Byte, applyMask bs 0 = bs) ∧
  (∀ (n : Nat) (k : Key) (i : Nat), i < n → (applyMask (List.replicate n 0) k)[i]? = some (keyByte k (i % 4))) ∧
  (∀ (as bs : List Byte) (k : Key),
    applyMask (as ++ bs) k = applyMask as k ++ applyMask bs (rotateKey k (as.length % 4)))

/-- APPLY_MASK waits while the host owes it bytes: with fewer than `len` bytes on PIN and a host that takes all it gets,
what there is goes out masked, BUSY stays 1, PIN is still asked for, and no status is written (R223, R231).
The step granularity is the model's (notes/assumptions/6.md). -/
def Obligations.ApplyMaskWaitsForItsBytes : Prop :=
  ∀ (key : Key) (len : Len) (s : State), s.io.pin.length < len.toNat → s.io.pin.length ≤ s.io.poutReady →
    ∃ t, exec (.applyMask key len) s = .next t ∧ t.busy = true ∧ pinReady t = true ∧
      t.sq.pidx.toNat = s.io.pin.length ∧ t.res = s.res ∧
      t.io = { s.io with pin := [], pout := s.io.pout ++ applyMask s.io.pin key,
                         poutReady := s.io.poutReady - s.io.pin.length } ∧
      sameFrame s t ∧ sameHost s t

/-! ## Frame composer -/

/-- FRAME_MESSAGE: a payload that fits PBUF is loaded from PIN; FR holds an unmasked, final frame without reserved bits,
PBUF holds the payload and no other byte has a value; nothing else changes (R160).
That a byte of PBUF that is UNSPEC reads as no value is the model's (notes/assumptions/5.md). -/
def Obligations.FrameMessageBuildsTheFrame : Prop :=
  (∀ w : CmdWord, cmdOp w = 9 → decodeCommand w = .frameMessage (cmdOpc w) (cmdLen w)) ∧
  ∀ (opc : BitVec 4) (bs rest : List Byte) (s : State),
    bs.length ≤ s.params.pbufBytes.toNat → s.io.pin = bs ++ rest →
    ∃ t, exec (.frameMessage opc (BitVec.ofNat 64 bs.length)) s = .next t ∧
      commandOver t ∧ t.res = { s.res with status := .ok } ∧
      t.fr = { valid := true, fin := true, rsv1 := false, rsv2 := false, rsv3 := false, opc := opc, masked := false,
               key := t.fr.key, plen := BitVec.ofNat 64 bs.length } ∧
      (∀ a, t.pbuf.read a = bs[a]?) ∧ framePayload t = bs ∧ t.io = { s.io with pin := rest } ∧ sameHost s t

/-- FRAME_MESSAGE with a payload longer than PBUF ends ST_ERR_TOO_LONG: no PIN byte is pulled, FR and PBUF keep their
contents, nothing else changes (R187). -/
def Obligations.FrameMessageTooLongChangesNothing : Prop :=
  ∀ (opc : BitVec 4) (len : Len) (s : State), s.params.pbufBytes.toNat < len.toNat →
    ∃ t, exec (.frameMessage opc len) s = .next t ∧ t.res = { s.res with status := .errTooLong } ∧
      touchesOnlyResults s t

/-- FRAME_SET_KEY on a frame: FR_MASKED is `masked`, FR_KEY is the key when `masked = 1`; PBUF and everything else is as
before, and FRAME_LEN then counts the key's four bytes exactly when there is one; without a frame it ends ST_ERR_NO_FRAME
and changes nothing else (R161). -/
def Obligations.FrameSetKeyGivesOrTakesTheKey : Prop :=
  (∀ w : CmdWord, cmdOp w = 10 → decodeCommand w = .frameSetKey (cmdMasked w) (cmdKey w)) ∧
  (∀ (masked : Bool) (key : Key) (s : State), s.fr.valid = false →
    ∃ t, exec (.frameSetKey masked key) s = .next t ∧ t.res = { s.res with status := .errNoFrame } ∧
      touchesOnlyResults s t) ∧
  ∀ (masked : Bool) (key : Key) (s : State), s.fr.valid = true →
    ∃ t, exec (.frameSetKey masked key) s = .next t ∧ commandOver t ∧
      t.res = { s.res with status := .ok } ∧ t.fr = { s.fr with masked := masked, key := t.fr.key } ∧
      (masked = true → t.fr.key = key) ∧ (∀ a, t.pbuf.read a = s.pbuf.read a) ∧ t.io = s.io ∧ sameHost s t ∧
      ∃ u, exec .frameLen t = .next u ∧
        u.res.cnt.toNat = headerLength false s.fr.plen + (if masked then 4 else 0) + s.fr.plen.toNat

/-- FRAME_SET_KEY, FRAME_FORMAT and FRAME_LEN without a frame end ST_ERR_NO_FRAME; nothing else changes and no stream is
touched (R186). -/
def Obligations.FrameOperationsWithoutAFrameAreRefused : Prop :=
  ∀ (masked : Bool) (key : Key) (s : State) (i : Instr), s.fr.valid = false →
    (i = .frameSetKey masked key ∨ i = .frameFormat ∨ i = .frameLen) →
    ∃ t, exec i s = .next t ∧ t.res = { s.res with status := .errNoFrame } ∧ touchesOnlyResults s t

/-- FRAME_LEN: `R_CNT` is exactly `hdr_len(FR_MASKED, FR_PLEN) + FR_PLEN`, with no wrap, and nothing else changes; without
a frame it ends ST_ERR_NO_FRAME and `R_CNT` is not written (R164). -/
def Obligations.FrameLenCountsHeaderAndPayload : Prop :=
  (∀ w : CmdWord, cmdOp w = 12 → decodeCommand w = .frameLen) ∧
  (∀ s : State, s.fr.valid = false →
    ∃ t, exec .frameLen s = .next t ∧ t.res = { s.res with status := .errNoFrame } ∧
      touchesOnlyResults s t) ∧
  ∀ s : State, s.fr.valid = true →
    ∃ t, exec .frameLen s = .next t ∧ t.res = { s.res with status := .ok, cnt := t.res.cnt } ∧
      t.res.cnt.toNat = 2 + (if s.fr.plen.toNat < 126 then 0 else if s.fr.plen.toNat < 65536 then 2 else 8)
        + (if s.fr.masked then 4 else 0) + s.fr.plen.toNat ∧
      touchesOnlyResults s t

/-- FRAME_FORMAT: when the sink acknowledges every byte, exactly the header of the frame, with its MASK bit and key, and
then its payload, masked when the frame is masked, is appended to TX; the outcome is ST_OK, the frame is gone and PBUF
holds nothing; nothing else changes (R162).
That an UNSPEC byte of PBUF reads as no value is the model's (notes/assumptions/5.md). -/
def Obligations.FrameFormatEmitsTheFrameOnce : Prop :=
  (∀ w : CmdWord, cmdOp w = 11 → decodeCommand w = .frameFormat) ∧
  ∀ (s : State) (rest : List TxAnswer), s.fr.valid = true → s.fr.plen.toNat ≤ s.params.pbufBytes.toNat →
    s.io.txAnswers = List.replicate (headerLength s.fr.masked s.fr.plen + s.fr.plen.toNat) .ack ++ rest →
    ∃ t, exec .frameFormat s = .next t ∧ commandOver t ∧ t.res = { s.res with status := .ok } ∧
      t.io = { s.io with
        tx := s.io.tx ++ (frameHeader s).bytes s.fr.plen ++
          (if s.fr.masked then applyMask (framePayload s) s.fr.key else framePayload s)
        txAnswers := rest } ∧
      t.fr.valid = false ∧ (∀ a, t.pbuf.read a = none) ∧ sameHost s t

/-- FRAME_FORMAT: a FAIL(e) after any number of acknowledged bytes, in the header or in the payload, ends ST_ERR_IO_WR with
`R_ERRINFO = e`; the sink holds exactly the bytes acknowledged, the frame is gone all the same and PBUF holds nothing
(R162, R185).
That an UNSPEC byte of PBUF reads as no value is the model's (notes/assumptions/5.md). -/
def Obligations.FrameFormatFailureConsumesTheFrame : Prop :=
  ∀ (s : State) (k : Nat) (e : Byte) (rest : List TxAnswer), s.fr.valid = true →
    s.fr.plen.toNat ≤ s.params.pbufBytes.toNat → k < headerLength s.fr.masked s.fr.plen + s.fr.plen.toNat →
    s.io.txAnswers = List.replicate k .ack ++ .fail e :: rest →
    ∃ t, exec .frameFormat s = .next t ∧ commandOver t ∧
      t.res = { s.res with status := .errIoWr, errinfo := e } ∧
      t.io = { s.io with
        tx := s.io.tx ++ ((frameHeader s).bytes s.fr.plen ++
          (if s.fr.masked then applyMask (framePayload s) s.fr.key else framePayload s)).take k
        txAnswers := rest } ∧
      t.fr.valid = false ∧ (∀ a, t.pbuf.read a = none) ∧ sameHost s t

/-- A frame is emitted at most once: after a FRAME_FORMAT that has ended there is no frame; a further FRAME_FORMAT, FRAME_LEN
or FRAME_SET_KEY ends ST_ERR_NO_FRAME and touches no stream; and no command but a FRAME_MESSAGE that ends ST_OK makes one
(R214, R165). -/
def Obligations.AFrameIsEmittedAtMostOnce : Prop :=
  (∀ s t : State, exec .frameFormat s = .next t → t.busy = false → t.fr.valid = false) ∧
  (∀ (t : State) (masked : Bool) (key : Key) (i : Instr), t.fr.valid = false →
    (i = .frameSetKey masked key ∨ i = .frameFormat ∨ i = .frameLen) →
    ∃ u, exec i t = .next u ∧ u.res.status = .errNoFrame ∧ u.io = t.io) ∧
  (∀ (i : Instr) (t u : State), t.fr.valid = false → exec i t = .next u → isCommand i = true → u.fr.valid = true →
    ∃ opc len, i = .frameMessage opc len ∧ u.res.status = .ok ∧ u.busy = false)

/-- FRAME_LEN agrees with FRAME_FORMAT: the count it gives is the number of bytes a FRAME_FORMAT that follows and ends
ST_OK appends to TX (R169). -/
def Obligations.FrameLenAgreesWithFrameFormat : Prop :=
  ∀ s t u : State, exec .frameLen s = .next t → t.res.status = .ok →
    exec .frameFormat t = .next u → u.busy = false → u.res.status = .ok →
    ∃ sent, u.io.tx = t.io.tx ++ sent ∧ sent.length = t.res.cnt.toNat

/-- The frame round trip: what a FRAME_FORMAT that ends ST_OK appends to TX, delivered on an RX stream and followed by
anything, parses with ST_OK to a header structurally equal to the frame's and its length; the next bytes are the payload,
masked with the reported key exactly when there is one (R167). -/
def Obligations.FrameRoundTrip : Prop :=
  ∀ s t : State, s.fr.valid = true → exec .frameFormat s = .next t → t.busy = false → t.res.status = .ok →
    ∃ sent, t.io.tx = s.io.tx ++ sent ∧
      ∀ (u : State) (rest : List Byte), u.io.rx = sent ++ rest →
        ∃ (v : State) (body : List Byte), exec .hdrParse u = .next v ∧ v.busy = false ∧ v.res.status = .ok ∧
          parsedHeader v = frameHeader s ∧ v.res.len = s.fr.plen ∧ v.io.rx = body ++ rest ∧
          body.length = s.fr.plen.toNat ∧
          (s.fr.masked = true → applyMask body v.res.key = framePayload s) ∧
          (s.fr.masked = false → body = framePayload s)

/-! ## Reserved operation codes -/

/-- The four reserved operation codes: accepted, R_STATUS becomes ST_ERR_BAD_CMD, nothing else changes and no stream is
touched, whatever the word's other fields hold (R95, R189). -/
def Obligations.ReservedCodesEndBadCmd : Prop :=
  (∀ w : CmdWord, (cmdOp w = 0 → decodeCommand w = .reservedOp0) ∧ (cmdOp w = 13 → decodeCommand w = .reservedOp13) ∧
    (cmdOp w = 14 → decodeCommand w = .reservedOp14) ∧ (cmdOp w = 15 → decodeCommand w = .reservedOp15)) ∧
  ∀ (s : State) (i : Instr),
    (i = .reservedOp0 ∨ i = .reservedOp13 ∨ i = .reservedOp14 ∨ i = .reservedOp15) →
    ∃ t, exec i s = .next t ∧ t.res = { s.res with status := .errBadCmd } ∧ touchesOnlyResults s t

/-! ## Whole-machine rules -/

/-- The invariant holds after reset. -/
def Obligations.InvariantHoldsAtReset : Prop := StateInv State.reset ∧ frameHostBuilt State.reset

/-- Every step keeps the invariant: `SEQ = IDLE` exactly when `BUSY = 0`, PBUF in canonical form, FR and PBUF in agreement,
the counters in bounds (R29, R30, R31).
That PBUF lists the bytes that hold a value is the model's (notes/assumptions/5.md). -/
def Obligations.EveryStepKeepsTheInvariant : Prop := ∀ s t : State, StateInv s → step s = .next t → StateInv t

/-- Every step keeps the frames host-built: a frame in FR is final and has no reserved bit set (R29). -/
def Obligations.EveryStepKeepsFramesFinal : Prop :=
  ∀ s t : State, frameHostBuilt s → step s = .next t → frameHostBuilt t

/-- WSFC never stops responding: from a state that meets the invariant, in an environment that keeps its rules, every step
answers a next state (R190, R204, R229). -/
def Obligations.TheMachineNeverStops : Prop :=
  ∀ s : State, StateInv s → environmentKeepsRules s → ∃ t, step s = .next t

/-- Which operation can end with which code (R190). -/
def Obligations.OperationsEndOnlyWithTheirCodes : Prop :=
  ∀ (i : Instr) (s t : State), exec i s = .next t → isCommand i = true → t.busy = false →
    mayEndWith i t.res.status = true

/-- The streams belong to their operations: RX is taken from only by HDR_PARSE, TX written only by HDR_FORMAT and
FRAME_FORMAT, PIN taken from only by APPLY_MASK and FRAME_MESSAGE, POUT written only by APPLY_MASK; FR and PBUF change only
under the frame operations (R28, R51, R53 to R55). -/
def Obligations.EachOperationTouchesOnlyItsOwn : Prop :=
  ∀ (i : Instr) (s t : State), exec i s = .next t → isCommand i = true →
    (i ≠ .hdrParse → t.io.rx = s.io.rx ∧ t.io.rxEnd = s.io.rxEnd) ∧
    ((∀ f a b c o m k l, i ≠ .hdrFormat f a b c o m k l) → i ≠ .frameFormat →
      t.io.tx = s.io.tx ∧ t.io.txAnswers = s.io.txAnswers) ∧
    ((∀ k l, i ≠ .applyMask k l) → (∀ o l, i ≠ .frameMessage o l) → t.io.pin = s.io.pin) ∧
    ((∀ k l, i ≠ .applyMask k l) → t.io.pout = s.io.pout ∧ t.io.poutReady = s.io.poutReady) ∧
    ((∀ o l, i ≠ .frameMessage o l) → (∀ m k, i ≠ .frameSetKey m k) → i ≠ .frameFormat → t.fr = s.fr) ∧
    ((∀ o l, i ≠ .frameMessage o l) → i ≠ .frameFormat → ∀ a, t.pbuf.read a = s.pbuf.read a) ∧
    sameHost s t

/-- What has crossed a stream stays crossed: every step takes RX and PIN bytes from the front only and appends to TX and
POUT only (R53, R54, R55, R61, R212). -/
def Obligations.StreamsOnlyMoveForward : Prop :=
  ∀ s t : State, step s = .next t →
    (∃ taken, s.io.rx = taken ++ t.io.rx) ∧ (∃ taken, s.io.pin = taken ++ t.io.pin) ∧
    (∃ sent, t.io.tx = s.io.tx ++ sent) ∧ (∃ sent, t.io.pout = s.io.pout ++ sent) ∧ t.io.rxEnd = s.io.rxEnd

/-- A byte crosses a port group only while WSFC asserts it: RX only under `rx_ready`, TX only under `tx_valid` and then
exactly `tx_data`, PIN only under `pin_ready`, POUT only under `pout_valid` and then exactly `pout_data`; a byte step makes
at most one transfer (R50, R53 to R55, R131). -/
def Obligations.TransfersHappenOnlyUnderTheirHandshake : Prop :=
  ∀ s t : State, byteStep s = .moved t →
    (t.io.rx = s.io.rx ∨ rxReady s = true ∧ ∃ b, s.io.rx = b :: t.io.rx) ∧
    (t.io.tx = s.io.tx ∨ txValid s = true ∧ ∃ b, txData s = some b ∧ t.io.tx = s.io.tx ++ [b]) ∧
    (t.io.pin = s.io.pin ∨ pinReady s = true ∧ ∃ b, s.io.pin = b :: t.io.pin) ∧
    (t.io.pout = s.io.pout ∨ poutValid s = true ∧ ∃ b, poutData s = some b ∧ t.io.pout = s.io.pout ++ [b])

/-- The header codec keeps no memory: from any two states with the same RX items ahead (and the same parameters), whatever
else they hold, HDR_PARSE takes the same bytes and has the same outcome, the same reported header and the same flag; with
the same TX answers ahead, HDR_FORMAT appends the same bytes and has the same outcome (R139). -/
def Obligations.TheHeaderCodecReadsNoEarlierState : Prop :=
  ∀ s s' t t' : State,
    (s.io.rx = s'.io.rx → s.io.rxEnd = s'.io.rxEnd → s.params = s'.params →
      exec .hdrParse s = .next t → exec .hdrParse s' = .next t' →
      t.io.rx = t'.io.rx ∧ t.busy = t'.busy ∧ t.sq.seq = t'.sq.seq ∧
      (t.busy = false → t.res.status = t'.res.status ∧
        (t.res.status = .errIoRd → t.res.errinfo = t'.res.errinfo) ∧
        (t.res.status = .ok → parsedHeader t = parsedHeader t' ∧ t.res.cls = t'.res.cls ∧ t.res.kind = t'.res.kind ∧
          t.res.len = t'.res.len ∧ t.res.overcap = t'.res.overcap))) ∧
    (∀ f a b c o m k l, s.io.txAnswers = s'.io.txAnswers → exec (.hdrFormat f a b c o m k l) s = .next t →
      exec (.hdrFormat f a b c o m k l) s' = .next t' →
      (∃ sent, t.io.tx = s.io.tx ++ sent ∧ t'.io.tx = s'.io.tx ++ sent) ∧ t.io.txAnswers = t'.io.txAnswers ∧
      t.busy = t'.busy ∧ (t.busy = false → t.res.status = t'.res.status ∧
        (t.res.status = .errIoWr → t.res.errinfo = t'.res.errinfo)))

/-- It does not matter in how many pieces the environment supplies what an operation waits for: supplying more after the
operation has gone as far as it can, or before, leads to the same state (R13, R231; notes/assumptions/6.md, 7.md). -/
def Obligations.SupplyingInPiecesDoesNotMatter : Prop :=
  ∀ s t : State, proceed s = .next t →
    (∀ bs, s.io.rxEnd = none → proceed (rxDelivers bs t) = proceed (rxDelivers bs s)) ∧
    (∀ e, s.io.rxEnd = none → proceed (rxEnds e t) = proceed (rxEnds e s)) ∧
    (∀ as, proceed (txWillAnswer as t) = proceed (txWillAnswer as s)) ∧
    (∀ bs, proceed (hostSupplies bs t) = proceed (hostSupplies bs s)) ∧
    (∀ n, proceed (hostTakes n t) = proceed (hostTakes n s))

/-- Which command writes which result register: every register a completing command does not write keeps its value (R26,
R27). -/
def Obligations.ResultRegistersAreHeldUnlessWritten : Prop :=
  ∀ (i : Instr) (s t : State), exec i s = .next t → isCommand i = true → t.busy = false →
    (t.res.errinfo = s.res.errinfo ∨ i = .hdrParse ∧ t.res.status = .errIoRd ∨
      (i = .frameFormat ∨ ∃ f a b c o m k l, i = .hdrFormat f a b c o m k l) ∧ t.res.status = .errIoWr) ∧
    ((t.res.opc = s.res.opc ∧ t.res.cls = s.res.cls ∧ t.res.kind = s.res.kind) ∨ i = .hdrParse ∨
      (∃ n, i = .opcDecode n) ∨ (∃ cls kind n, i = .opcEncode cls kind n) ∧ t.res.status = .ok) ∧
    ((t.res.fmt = s.res.fmt ∧ t.res.field = s.res.field ∧ t.res.ext = s.res.ext) ∨ (∃ len, i = .lenfmtForLength len) ∨
      ∃ f, i = .lenfmtOfField f) ∧
    (t.res.cnt = s.res.cnt ∨ (∃ m len, i = .hdrLen m len) ∨ i = .frameLen ∧ t.res.status = .ok) ∧
    (i ≠ .hdrParse → t.res.fin = s.res.fin ∧ t.res.rsv1 = s.res.rsv1 ∧ t.res.rsv2 = s.res.rsv2 ∧
      t.res.rsv3 = s.res.rsv3 ∧ t.res.masked = s.res.masked ∧ t.res.key = s.res.key ∧ t.res.len = s.res.len ∧
      t.res.overcap = s.res.overcap)

/-- What the hidden registers hold while a command runs and after it: CMD holds a word of the command, and each of POS, REM,
PIDX and the masker's byte is as before but for the commands that use it (R31, R35, R64, R131, R135, R151, R163, R168).
That they keep these values once the command is over is the model's choice (notes/assumptions/23.md): R35 gives them
meaning only while BUSY = 1. -/
def Obligations.HiddenRegistersAfterACommand : Prop :=
  ∀ (i : Instr) (s t : State), exec i s = .next t → isCommand i = true →
    decodeCommand t.sq.cmd = i ∧
    (t.sq.pos = s.sq.pos ∨ i = .hdrParse ∨ (∃ f a b c o m k l, i = .hdrFormat f a b c o m k l) ∨
      i = .frameFormat ∧ s.fr.valid = true) ∧
    (t.sq.rem = s.sq.rem ∨ i = .hdrParse) ∧
    (t.sq.pidx = s.sq.pidx ∨ (∃ k l, i = .applyMask k l) ∨ i = .frameFormat ∧ s.fr.valid = true ∨
      ∃ o l, i = .frameMessage o l ∧ l.toNat ≤ s.params.pbufBytes.toNat) ∧
    (t.sq.hold = s.sq.hold ∨ ∃ k l, i = .applyMask k l)

/-- An operation in progress ends once its environment answers: with the RX end settled, or as many TX answers, PIN bytes
and POUT slots as are still owed, the step in progress, or the one after it, leaves BUSY = 0 (R229, R231).
The bound of two steps is the model's (notes/assumptions/6.md). -/
def Obligations.OperationsEndWhenTheEnvironmentAnswers : Prop :=
  ∀ s : State, StateInv s → environmentKeepsRules s → s.busy = true → s.rstEdges = 0 →
    (rxReady s = true → s.io.rxEnd ≠ none) →
    (s.sq.seq = .sHdr → (headerBytes s).length + (if sendsFrame s then s.fr.plen.toNat else 0) ≤
      s.sq.pos.toNat + s.io.txAnswers.length) →
    (s.sq.seq = .fPay → s.fr.plen.toNat ≤ s.sq.pidx.toNat + s.io.txAnswers.length) →
    (s.sq.seq = .lRun → (cmdLen s.sq.cmd).toNat ≤ s.sq.pidx.toNat + s.io.pin.length) →
    (s.sq.seq = .mRun → (cmdLen s.sq.cmd).toNat ≤
      s.sq.pidx.toNat + s.io.pin.length + (if s.sq.hold.isSome then 1 else 0)) →
    (s.sq.seq = .mRun → (cmdLen s.sq.cmd).toNat ≤ s.sq.pidx.toNat + s.io.poutReady) →
    ∃ t, step s = .next t ∧ (t.busy = false ∨ ∃ u, step t = .next u ∧ u.busy = false)
end

