-- ==== Sys2Proof/Laws/Codec.lean ====
section
/-! SUPPORT. Fields put together and taken apart: the command word, the fixed bytes, lengths, keys, opcodes, and the
bytes a header or a masked buffer is made of. -/

namespace Sys2Proof

/-! ## Taking an append apart -/

theorem extract_append_high {v w l s : Nat} {x : BitVec v} {y : BitVec w} {z : BitVec l} (h : w ≤ s)
    (k : x.extractLsb' (s - w) l = z) : (x ++ y).extractLsb' s l = z := by
  rw [BitVec.extractLsb'_append_eq_of_le h, k]

theorem extract_append_low {v w l s : Nat} {x : BitVec v} {y : BitVec w} {z : BitVec l} (h : s + l ≤ w)
    (k : y.extractLsb' s l = z) : (x ++ y).extractLsb' s l = z := by
  rw [BitVec.extractLsb'_append_eq_of_add_le h, k]

theorem getLsbD_append_high {v w s : Nat} {x : BitVec v} {y : BitVec w} {z : Bool} (h : w ≤ s)
    (k : x.getLsbD (s - w) = z) : (x ++ y).getLsbD s = z := by
  rw [BitVec.getLsbD_append, if_neg (by omega), k]

theorem getLsbD_append_low {v w s : Nat} {x : BitVec v} {y : BitVec w} {z : Bool} (h : s < w)
    (k : y.getLsbD s = z) : (x ++ y).getLsbD s = z := by
  rw [BitVec.getLsbD_append, if_pos h, k]

theorem getLsbD_bit (b : Bool) : (bit b).getLsbD 0 = b := by cases b <;> rfl

theorem toNat_append_add {v w : Nat} (x : BitVec v) (y : BitVec w) :
    (x ++ y).toNat = x.toNat * 2 ^ w + y.toNat := by
  rw [BitVec.toNat_append, ← Nat.shiftLeft_add_eq_or_of_lt y.isLt, Nat.shiftLeft_eq]

/-! ## The command word -/

section
variable (op : BitVec 4) (fin rsv1 rsv2 rsv3 : Bool) (opc : BitVec 4) (masked cls : Bool) (kind : BitVec 2)
  (key : Key) (len : Len)

@[simp] theorem cmdOp_cmdWord : cmdOp (cmdWord op fin rsv1 rsv2 rsv3 opc masked cls kind key len) = op := by
  unfold cmdOp cmdWord
  iterate 10 (refine extract_append_high (by decide) ?_)
  exact BitVec.extractLsb'_eq_self

@[simp] theorem cmdFin_cmdWord : cmdFin (cmdWord op fin rsv1 rsv2 rsv3 opc masked cls kind key len) = fin := by
  unfold cmdFin cmdWord
  iterate 9 (refine getLsbD_append_high (by decide) ?_)
  exact getLsbD_append_low (by decide) (getLsbD_bit _)

@[simp] theorem cmdRsv1_cmdWord : cmdRsv1 (cmdWord op fin rsv1 rsv2 rsv3 opc masked cls kind key len) = rsv1 := by
  unfold cmdRsv1 cmdWord
  iterate 8 (refine getLsbD_append_high (by decide) ?_)
  exact getLsbD_append_low (by decide) (getLsbD_bit _)

@[simp] theorem cmdRsv2_cmdWord : cmdRsv2 (cmdWord op fin rsv1 rsv2 rsv3 opc masked cls kind key len) = rsv2 := by
  unfold cmdRsv2 cmdWord
  iterate 7 (refine getLsbD_append_high (by decide) ?_)
  exact getLsbD_append_low (by decide) (getLsbD_bit _)

@[simp] theorem cmdRsv3_cmdWord : cmdRsv3 (cmdWord op fin rsv1 rsv2 rsv3 opc masked cls kind key len) = rsv3 := by
  unfold cmdRsv3 cmdWord
  iterate 6 (refine getLsbD_append_high (by decide) ?_)
  exact getLsbD_append_low (by decide) (getLsbD_bit _)

@[simp] theorem cmdOpc_cmdWord : cmdOpc (cmdWord op fin rsv1 rsv2 rsv3 opc masked cls kind key len) = opc := by
  unfold cmdOpc cmdWord
  iterate 5 (refine extract_append_high (by decide) ?_)
  exact extract_append_low (by decide) BitVec.extractLsb'_eq_self

@[simp] theorem cmdMasked_cmdWord :
    cmdMasked (cmdWord op fin rsv1 rsv2 rsv3 opc masked cls kind key len) = masked := by
  unfold cmdMasked cmdWord
  iterate 4 (refine getLsbD_append_high (by decide) ?_)
  exact getLsbD_append_low (by decide) (getLsbD_bit _)

@[simp] theorem cmdClass_cmdWord : cmdClass (cmdWord op fin rsv1 rsv2 rsv3 opc masked cls kind key len) = cls := by
  unfold cmdClass cmdWord
  iterate 3 (refine getLsbD_append_high (by decide) ?_)
  exact getLsbD_append_low (by decide) (getLsbD_bit _)

@[simp] theorem cmdKind_cmdWord : cmdKind (cmdWord op fin rsv1 rsv2 rsv3 opc masked cls kind key len) = kind := by
  unfold cmdKind cmdWord
  iterate 2 (refine extract_append_high (by decide) ?_)
  exact extract_append_low (by decide) BitVec.extractLsb'_eq_self

@[simp] theorem cmdKey_cmdWord : cmdKey (cmdWord op fin rsv1 rsv2 rsv3 opc masked cls kind key len) = key := by
  unfold cmdKey cmdWord
  refine extract_append_high (by decide) ?_
  exact extract_append_low (by decide) BitVec.extractLsb'_eq_self

@[simp] theorem cmdLen_cmdWord : cmdLen (cmdWord op fin rsv1 rsv2 rsv3 opc masked cls kind key len) = len := by
  unfold cmdLen cmdWord
  exact extract_append_low (by decide) BitVec.extractLsb'_eq_self

end

/-! ## The fixed bytes -/

section
variable (fin rsv1 rsv2 rsv3 : Bool) (opc : BitVec 4) (masked : Bool) (f : BitVec 7)

@[simp] theorem byte0Fin_fixedByte0 : byte0Fin (fixedByte0 fin rsv1 rsv2 rsv3 opc) = fin := by
  unfold byte0Fin fixedByte0
  iterate 4 (refine getLsbD_append_high (by decide) ?_)
  exact getLsbD_bit _

@[simp] theorem byte0Rsv1_fixedByte0 : byte0Rsv1 (fixedByte0 fin rsv1 rsv2 rsv3 opc) = rsv1 := by
  unfold byte0Rsv1 fixedByte0
  iterate 3 (refine getLsbD_append_high (by decide) ?_)
  exact getLsbD_append_low (by decide) (getLsbD_bit _)

@[simp] theorem byte0Rsv2_fixedByte0 : byte0Rsv2 (fixedByte0 fin rsv1 rsv2 rsv3 opc) = rsv2 := by
  unfold byte0Rsv2 fixedByte0
  iterate 2 (refine getLsbD_append_high (by decide) ?_)
  exact getLsbD_append_low (by decide) (getLsbD_bit _)

@[simp] theorem byte0Rsv3_fixedByte0 : byte0Rsv3 (fixedByte0 fin rsv1 rsv2 rsv3 opc) = rsv3 := by
  unfold byte0Rsv3 fixedByte0
  refine getLsbD_append_high (by decide) ?_
  exact getLsbD_append_low (by decide) (getLsbD_bit _)

@[simp] theorem byte0Opc_fixedByte0 : byte0Opc (fixedByte0 fin rsv1 rsv2 rsv3 opc) = opc := by
  unfold byte0Opc fixedByte0
  exact extract_append_low (by decide) BitVec.extractLsb'_eq_self

@[simp] theorem byte1Mask_fixedByte1 : byte1Mask (fixedByte1 masked f) = masked := by
  unfold byte1Mask fixedByte1
  exact getLsbD_append_high (by decide) (getLsbD_bit _)

@[simp] theorem byte1Field_fixedByte1 : byte1Field (fixedByte1 masked f) = f := by
  unfold byte1Field fixedByte1
  exact extract_append_low (by decide) BitVec.extractLsb'_eq_self

end

/-- A byte is fixed byte 0 of its own fields. -/
theorem fixedByte0_fields (b : Byte) :
    fixedByte0 (byte0Fin b) (byte0Rsv1 b) (byte0Rsv2 b) (byte0Rsv3 b) (byte0Opc b) = b := by
  revert b; decide

/-- A byte is fixed byte 1 of its own fields. -/
theorem fixedByte1_fields (b : Byte) : fixedByte1 (byte1Mask b) (byte1Field b) = b := by
  revert b; decide

@[simp] theorem byte1Field_7E : byte1Field 126#8 = 126#7 := by decide

@[simp] theorem byte1Field_FE : byte1Field 254#8 = 126#7 := by decide

@[simp] theorem byte1Field_7F : byte1Field 127#8 = 127#7 := by decide

@[simp] theorem byte1Field_FF : byte1Field 255#8 = 127#7 := by decide

@[simp] theorem byte1Mask_7E : byte1Mask 126#8 = false := by decide

@[simp] theorem byte1Mask_FE : byte1Mask 254#8 = true := by decide

@[simp] theorem byte1Mask_7F : byte1Mask 127#8 = false := by decide

@[simp] theorem byte1Mask_FF : byte1Mask 255#8 = true := by decide

theorem byte1Field_toNat (b : Byte) : (byte1Field b).toNat = b.toNat % 128 := by
  simp [byte1Field]

theorem byte1Mask_eq (b : Byte) : byte1Mask b = decide (128 ≤ b.toNat) := by
  revert b; decide

/-! ## Commands -/

@[simp] theorem Machine.isCommand_opcDecode (opc : BitVec 4) :
    Machine.isCommand (.opcDecode opc) = true := by simp only [Machine.isCommand, encode]

@[simp] theorem Machine.isCommand_opcEncode (cls : Bool) (kind : BitVec 2) (opc : BitVec 4) :
    Machine.isCommand (.opcEncode cls kind opc) = true := by simp only [Machine.isCommand, encode]

@[simp] theorem Machine.isCommand_lenfmtForLength (len : Len) :
    Machine.isCommand (.lenfmtForLength len) = true := by simp only [Machine.isCommand, encode]

@[simp] theorem Machine.isCommand_lenfmtOfField (field : BitVec 7) :
    Machine.isCommand (.lenfmtOfField field) = true := by simp only [Machine.isCommand, encode]

@[simp] theorem Machine.isCommand_hdrLen (masked : Bool) (len : Len) :
    Machine.isCommand (.hdrLen masked len) = true := by simp only [Machine.isCommand, encode]

@[simp] theorem Machine.isCommand_hdrParse :
    Machine.isCommand (.hdrParse) = true := by simp only [Machine.isCommand, encode]

@[simp] theorem Machine.isCommand_hdrFormat (fin rsv1 rsv2 rsv3 : Bool) (opc : BitVec 4) (masked : Bool) (key : Key) (len : Len) :
    Machine.isCommand (.hdrFormat fin rsv1 rsv2 rsv3 opc masked key len) = true := by simp only [Machine.isCommand, encode]

@[simp] theorem Machine.isCommand_applyMask (key : Key) (len : Len) :
    Machine.isCommand (.applyMask key len) = true := by simp only [Machine.isCommand, encode]

@[simp] theorem Machine.isCommand_frameMessage (opc : BitVec 4) (len : Len) :
    Machine.isCommand (.frameMessage opc len) = true := by simp only [Machine.isCommand, encode]

@[simp] theorem Machine.isCommand_frameSetKey (masked : Bool) (key : Key) :
    Machine.isCommand (.frameSetKey masked key) = true := by simp only [Machine.isCommand, encode]

@[simp] theorem Machine.isCommand_frameFormat :
    Machine.isCommand (.frameFormat) = true := by simp only [Machine.isCommand, encode]

@[simp] theorem Machine.isCommand_frameLen :
    Machine.isCommand (.frameLen) = true := by simp only [Machine.isCommand, encode]

@[simp] theorem Machine.isCommand_reservedOp0 :
    Machine.isCommand (.reservedOp0) = true := by simp only [Machine.isCommand, encode]

@[simp] theorem Machine.isCommand_reservedOp13 :
    Machine.isCommand (.reservedOp13) = true := by simp only [Machine.isCommand, encode]

@[simp] theorem Machine.isCommand_reservedOp14 :
    Machine.isCommand (.reservedOp14) = true := by simp only [Machine.isCommand, encode]

@[simp] theorem Machine.isCommand_reservedOp15 :
    Machine.isCommand (.reservedOp15) = true := by simp only [Machine.isCommand, encode]

/-- Every command word decodes to a command. -/
@[simp] theorem isCommand_decodeCommand (w : CmdWord) : Machine.isCommand (decodeCommand w) = true := by
  unfold decodeCommand
  split <;> rfl

/-- A command's own word decodes to it. -/
theorem decodeCommand_commandWord {i : Instr} (h : Machine.isCommand i = true) :
    decodeCommand (commandWord i) = i := by
  cases i <;> first
    | (simp [Machine.isCommand, encode] at h; done)
    | simp [commandWord, encode, decodeCommand, cmdBare]
  case lenfmtOfField f => exact extract_append_low (by decide) BitVec.extractLsb'_eq_self

/-- What a command latches decodes to it. -/
@[simp] theorem decodeCommand_latchWord {i : Instr} (w : CmdWord) (h : Machine.isCommand i = true) :
    decodeCommand (Machine.latchWord i w) = i := by
  unfold Machine.latchWord
  split
  · assumption
  · exact decodeCommand_commandWord h

/-! ## Keys and lengths as bytes -/

theorem keyBytes_length (k : Key) : (keyBytes k).length = 4 := rfl

/-- A key is its four bytes. -/
theorem key_of_bytes (k : Key) :
    k.extractLsb' 24 8 ++ k.extractLsb' 16 8 ++ k.extractLsb' 8 8 ++ k.extractLsb' 0 8 = k := by
  apply BitVec.eq_of_toNat_eq
  simp only [toNat_append_add, BitVec.extractLsb'_toNat, Nat.shiftRight_eq_div_pow]
  have := k.isLt
  omega

theorem keyBytes_append (k0 k1 k2 k3 : Byte) : keyBytes (k0 ++ k1 ++ k2 ++ k3) = [k0, k1, k2, k3] := by
  unfold keyBytes
  rw [extract_append_high (z := k0) (by decide) (extract_append_high (by decide) (extract_append_high (by decide)
      BitVec.extractLsb'_eq_self)),
    extract_append_high (z := k1) (by decide) (extract_append_high (by decide) (extract_append_low (by decide)
      BitVec.extractLsb'_eq_self)),
    extract_append_high (z := k2) (by decide) (extract_append_low (by decide) BitVec.extractLsb'_eq_self),
    extract_append_low (z := k3) (by decide) BitVec.extractLsb'_eq_self]

/-- A 16-bit length is its two bytes. -/
theorem be2_append (v : BitVec 16) : v.extractLsb' 8 8 ++ v.extractLsb' 0 8 = v := by
  apply BitVec.eq_of_toNat_eq
  simp only [toNat_append_add, BitVec.extractLsb'_toNat, Nat.shiftRight_eq_div_pow]
  have := v.isLt
  omega

theorem be2_of_bytes (l0 l1 : Byte) : be2 (l0 ++ l1) = [l0, l1] := by
  unfold be2
  rw [extract_append_high (z := l0) (by decide) BitVec.extractLsb'_eq_self,
    extract_append_low (z := l1) (by decide) BitVec.extractLsb'_eq_self]

/-- A 64-bit length is its eight bytes. -/
theorem be8_append (v : BitVec 64) :
    v.extractLsb' 56 8 ++ v.extractLsb' 48 8 ++ v.extractLsb' 40 8 ++ v.extractLsb' 32 8 ++ v.extractLsb' 24 8 ++
      v.extractLsb' 16 8 ++ v.extractLsb' 8 8 ++ v.extractLsb' 0 8 = v := by
  apply BitVec.eq_of_toNat_eq
  simp only [toNat_append_add, BitVec.extractLsb'_toNat, Nat.shiftRight_eq_div_pow]
  have := v.isLt
  omega

theorem be8_of_bytes (l0 l1 l2 l3 l4 l5 l6 l7 : Byte) :
    be8 (l0 ++ l1 ++ l2 ++ l3 ++ l4 ++ l5 ++ l6 ++ l7) = [l0, l1, l2, l3, l4, l5, l6, l7] := by
  unfold be8
  congr
  · iterate 7 (refine extract_append_high (by decide) ?_)
    exact BitVec.extractLsb'_eq_self
  · iterate 6 (refine extract_append_high (by decide) ?_)
    exact extract_append_low (by decide) BitVec.extractLsb'_eq_self
  · iterate 5 (refine extract_append_high (by decide) ?_)
    exact extract_append_low (by decide) BitVec.extractLsb'_eq_self
  · iterate 4 (refine extract_append_high (by decide) ?_)
    exact extract_append_low (by decide) BitVec.extractLsb'_eq_self
  · iterate 3 (refine extract_append_high (by decide) ?_)
    exact extract_append_low (by decide) BitVec.extractLsb'_eq_self
  · iterate 2 (refine extract_append_high (by decide) ?_)
    exact extract_append_low (by decide) BitVec.extractLsb'_eq_self
  · refine extract_append_high (by decide) ?_
    exact extract_append_low (by decide) BitVec.extractLsb'_eq_self
  · exact extract_append_low (by decide) BitVec.extractLsb'_eq_self

namespace Machine

theorem toNat_shiftIn (acc : Len) (b : Byte) : (shiftIn acc b).toNat = (acc.toNat * 256 + b.toNat) % 2 ^ 64 := by
  have e : shiftIn acc b = (acc.setWidth 56 ++ b : BitVec 64) := by
    apply BitVec.eq_of_getLsbD_eq
    intro i hi
    simp only [shiftIn, BitVec.getLsbD_or, BitVec.getLsbD_shiftLeft, BitVec.getLsbD_setWidth]
    rw [BitVec.getLsbD_append]
    by_cases h : i < 8
    · simp [h, hi]
    · have h' : i - 8 < 56 := by omega
      simp [h, hi, h', BitVec.getLsbD_of_ge b i (by omega)]
  rw [e, toNat_append_add, BitVec.toNat_setWidth]
  have := b.isLt
  omega

/-- Two extension bytes read big-endian. -/
theorem fromBe_two (l0 l1 : Byte) : fromBe [l0, l1] = (l0 ++ l1 : BitVec 16).setWidth 64 := by
  apply BitVec.eq_of_toNat_eq
  simp only [fromBe, List.foldl, toNat_shiftIn, BitVec.toNat_setWidth, toNat_append_add]
  have := l0.isLt
  have := l1.isLt
  simp
  omega

/-- Eight extension bytes read big-endian. -/
theorem fromBe_eight (l0 l1 l2 l3 l4 l5 l6 l7 : Byte) :
    fromBe [l0, l1, l2, l3, l4, l5, l6, l7] = l0 ++ l1 ++ l2 ++ l3 ++ l4 ++ l5 ++ l6 ++ l7 := by
  apply BitVec.eq_of_toNat_eq
  simp only [fromBe, List.foldl, toNat_shiftIn, toNat_append_add]
  have := l0.isLt
  have := l1.isLt
  have := l2.isLt
  have := l3.isLt
  have := l4.isLt
  have := l5.isLt
  have := l6.isLt
  have := l7.isLt
  simp
  omega

theorem fromBe_be2 (v : BitVec 16) : fromBe (be2 v) = v.setWidth 64 := by
  rw [be2, fromBe_two, be2_append]

theorem fromBe_be8 (v : BitVec 64) : fromBe (be8 v) = v := by
  rw [be8, fromBe_eight, be8_append]

/-- The four key bytes in the order they arrive make the packed key, whatever was there before. -/
theorem setKeyByte_all (k : Key) (b0 b1 b2 b3 : Byte) :
    setKeyByte 3 b3 (setKeyByte 2 b2 (setKeyByte 1 b1 (setKeyByte 0 b0 k))) = b0 ++ b1 ++ b2 ++ b3 := by
  apply BitVec.eq_of_toNat_eq
  have hk := k.isLt
  have := b0.isLt
  have := b1.isLt
  have := b2.isLt
  have := b3.isLt
  simp only [setKeyByte, toNat_append_add, BitVec.extractLsb'_toNat, Nat.shiftRight_eq_div_pow]
  omega

theorem keyByte_eq (k : Key) (i : Nat) : keyByte k i = (keyBytes k).getD (i % 4) 0 := by
  have h : i % 4 < 4 := Nat.mod_lt _ (by decide)
  unfold keyByte keyBytes
  generalize i % 4 = j at h
  match j, h with
  | 0, _ => rfl
  | 1, _ => rfl
  | 2, _ => rfl
  | 3, _ => rfl

theorem keyByte_mod (k : Key) (i : Nat) : keyByte k (i % 4) = keyByte k i := by
  simp [keyByte]

/-! ## Opcodes -/

theorem ofWire_cls (n : BitVec 4) : (OpCode.ofWire n).cls = classOf n := by revert n; decide

theorem ofWire_kind (n : BitVec 4) : (OpCode.ofWire n).kind = kindOf n := by revert n; decide

theorem wire_ofWire (n : BitVec 4) : (OpCode.ofWire n).wire = n := by revert n; decide

theorem ofWire_wire (c : OpCode) : OpCode.ofWire c.wire = c := by
  have reserved : ∀ k : Fin 5, OpCode.ofWire (OpCode.data (.reserved k)).wire = .data (.reserved k) ∧
      OpCode.ofWire (OpCode.control (.reserved k)).wire = .control (.reserved k) := by decide
  rcases c with (_ | _ | _ | k) | (_ | _ | _ | k) <;> first
    | rfl
    | exact (reserved k).1
    | exact (reserved k).2

/-! ## Length formats and header bytes -/

theorem formatOf_cases (len : Len) :
    (len.toNat < 126 ∧ formatOf len = .u8) ∨ (126 ≤ len.toNat ∧ len.toNat < 65536 ∧ formatOf len = .u16) ∨
      (65536 ≤ len.toNat ∧ formatOf len = .u64) := by
  unfold formatOf
  split
  · exact .inl ⟨‹_›, rfl⟩
  · split
    · exact .inr (.inl ⟨by omega, ‹_›, rfl⟩)
    · exact .inr (.inr ⟨by omega, rfl⟩)

theorem formatOfField_cases (f : BitVec 7) :
    (f.toNat < 126 ∧ formatOfField f = .u8) ∨ (f.toNat = 126 ∧ formatOfField f = .u16) ∨
      (f.toNat = 127 ∧ formatOfField f = .u64) := by
  have := f.isLt
  unfold formatOfField
  split
  · exact .inl ⟨‹_›, rfl⟩
  · split
    · exact .inr (.inl ⟨‹_›, rfl⟩)
    · exact .inr (.inr ⟨by omega, rfl⟩)

theorem extensionOf_length (len : Len) : (extensionOf len).length = (formatOf len).extBytes := by
  unfold extensionOf
  split <;> simp_all [be2, be8, LengthFormat.extBytes]

/-- `|hdr_bytes| = hdr_len` (R134). -/
theorem hdrBytes_length (fin rsv1 rsv2 rsv3 : Bool) (opc : BitVec 4) (masked : Bool) (key : Key) (len : Len) :
    (hdrBytes fin rsv1 rsv2 rsv3 opc masked key len).length = headerLength masked len := by
  cases masked <;> simp [hdrBytes, headerLength, extensionOf_length, keyBytes] <;> omega

theorem headerLength_bounds (masked : Bool) (len : Len) : 2 ≤ headerLength masked len ∧ headerLength masked len ≤ 14 := by
  unfold headerLength
  rcases formatOf_cases len with ⟨_, h⟩ | ⟨_, _, h⟩ | ⟨_, h⟩ <;> cases masked <;> simp [h, LengthFormat.extBytes]

/-! ## Masking -/

@[simp] theorem applyMaskFrom_length (k : Key) (i : Nat) (bs : List Byte) : (applyMaskFrom k i bs).length = bs.length := by
  induction bs generalizing i with
  | nil => rfl
  | cons b bs ih => simp [applyMaskFrom, ih]

/-- Byte `j` of a masked buffer whose first byte has index `i`. -/
theorem applyMaskFrom_getElem? (k : Key) (i : Nat) (bs : List Byte) (j : Nat) :
    (applyMaskFrom k i bs)[j]? = bs[j]?.map (· ^^^ keyByte k (i + j)) := by
  induction bs generalizing i j with
  | nil => simp [applyMaskFrom]
  | cons b bs ih =>
    cases j with
    | zero => simp [applyMaskFrom]
    | succ j => simp [applyMaskFrom, ih, Nat.add_assoc, Nat.add_comm 1]

theorem applyMaskFrom_append (k : Key) (i : Nat) (as bs : List Byte) :
    applyMaskFrom k i (as ++ bs) = applyMaskFrom k i as ++ applyMaskFrom k (i + as.length) bs := by
  induction as generalizing i with
  | nil => simp [applyMaskFrom]
  | cons a as ih => simp [applyMaskFrom, ih, Nat.add_assoc, Nat.add_comm 1]

end Machine
end Sys2Proof
end

