-- ==== Sys2Proof/Laws/Memory.lean ====
section
/-! SUPPORT. What PBUF's one write does: it keeps the canonical form, it is read back, every other byte stays, and the
addresses listed grow by the one written. -/

namespace Sys2Proof.Machine

@[simp] theorem Memory.read_nil (a : Nat) : Memory.read [] a = none := rfl

@[simp] theorem Memory.addresses_nil : Memory.addresses [] = [] := rfl

/-- The memory after reset is in canonical form. -/
theorem Memory.wf_nil : Memory.wf [] := List.Pairwise.nil

/-- A write lists no address but the old ones and its own. -/
theorem Memory.mem_write {m : Memory} {a : Nat} {b : Byte} {x : Host.Cell} (h : x ∈ m.write a b) :
    x.1 = a ∨ x ∈ m := by
  induction m with
  | nil => simp_all [Memory.write]
  | cons c m ih =>
    obtain ⟨k, v⟩ := c
    simp only [Memory.write] at h
    split at h
    · simp only [List.mem_cons] at h ⊢
      rcases h with rfl | h | h
      · exact .inl rfl
      · exact .inr (.inl h)
      · exact .inr (.inr h)
    · split at h
      · next he =>
        simp only [List.mem_cons] at h ⊢
        rcases h with rfl | h
        · exact .inl he.symm
        · exact .inr (.inr h)
      · simp only [List.mem_cons] at h ⊢
        rcases h with h | h
        · exact .inr (.inl h)
        · exact (ih h).imp_right .inr

/-- A write keeps the canonical form. -/
theorem Memory.write_wf {m : Memory} (h : m.wf) (a : Nat) (b : Byte) : (m.write a b).wf := by
  induction m with
  | nil => simp [Memory.write, Memory.wf]
  | cons c m ih =>
    obtain ⟨k, v⟩ := c
    simp only [Memory.wf, List.pairwise_cons] at h
    simp only [Memory.write]
    split
    · next hlt =>
      simp only [Memory.wf, List.pairwise_cons, List.mem_cons]
      refine ⟨?_, h.1, h.2⟩
      rintro x (rfl | hx)
      · exact hlt
      · exact Nat.lt_trans hlt (h.1 x hx)
    · split
      · exact List.pairwise_cons.2 ⟨h.1, h.2⟩
      · refine List.pairwise_cons.2 ⟨fun x hx => ?_, ih h.2⟩
        rcases Memory.mem_write hx with hx | hx
        · simp only [hx]; omega
        · exact h.1 x hx

/-- Reading back what was written. -/
theorem Memory.read_write_same (m : Memory) (a : Nat) (b : Byte) : (m.write a b).read a = some b := by
  induction m with
  | nil => simp [Memory.write, Memory.read]
  | cons c m ih =>
    obtain ⟨k, v⟩ := c
    simp only [Memory.write]
    split
    · simp [Memory.read]
    · split
      · simp_all [Memory.read]
      · next hne => simpa [Memory.read, Ne.symm hne] using ih

/-- Every other byte reads as before. -/
theorem Memory.read_write_other (m : Memory) {a a' : Nat} (b : Byte) (h : a' ≠ a) :
    (m.write a b).read a' = m.read a' := by
  induction m with
  | nil => simp [Memory.write, Memory.read, Ne.symm h]
  | cons c m ih =>
    obtain ⟨k, v⟩ := c
    simp only [Memory.write]
    split
    · simp [Memory.read, Ne.symm h]
    · split
      · next he => subst he; simp [Memory.read, Ne.symm h]
      · simp only [Memory.read, ih]

/-- A write above every listed address adds its own at the end. -/
theorem Memory.addresses_write_end {m : Memory} {n : Nat} (h : m.addresses = List.range n) (b : Byte) :
    (m.write n b).addresses = List.range (n + 1) := by
  have key : ∀ m : Memory, (∀ a ∈ m.addresses, a < n) → (m.write n b).addresses = m.addresses ++ [n] := by
    intro m hm
    induction m with
    | nil => rfl
    | cons c m ih =>
      obtain ⟨k, v⟩ := c
      have hk : k < n := hm k (by simp [Memory.addresses])
      have hr := ih fun a ha => hm a (by simp only [Memory.addresses, List.map_cons, List.mem_cons] at ha ⊢; exact .inr ha)
      simp only [Memory.write, show ¬n < k by omega, show ¬n = k by omega, if_false]
      simpa [Memory.addresses] using hr
  rw [key m (by simp [h]), h, List.range_succ]

/-- A memory that lists exactly the first `n` addresses has a byte at each of them and at no other. -/
theorem Memory.read_isSome {m : Memory} {n : Nat} (h : m.addresses = List.range n) (a : Nat) :
    (m.read a).isSome = decide (a < n) := by
  have key : ∀ m : Memory, (m.read a).isSome = decide (a ∈ m.addresses) := by
    intro m
    induction m with
    | nil => simp
    | cons c m ih =>
      obtain ⟨k, v⟩ := c
      simp only [Memory.read]
      split
      · next he => simp [Memory.addresses, he]
      · next hne => rw [ih]; simp [Memory.addresses, Ne.symm hne]
  rw [key, h]; simp

end Sys2Proof.Machine
end

