-- ==== Sys2Proof/Laws/State.lean ====
section
/-! SUPPORT. One lemma per field per named update of State, each true by rfl and a simp lemma, so that no later proof
unfolds a record update. -/

namespace Sys2Proof.Machine


/-! ## accept -/

@[simp] theorem accept_params (i : Instr) (s : State) : (accept i s).params = s.params := rfl
@[simp] theorem accept_busy (i : Instr) (s : State) : (accept i s).busy = true := rfl
@[simp] theorem accept_res (i : Instr) (s : State) : (accept i s).res = s.res := rfl
@[simp] theorem accept_fr (i : Instr) (s : State) : (accept i s).fr = s.fr := rfl
@[simp] theorem accept_pbuf (i : Instr) (s : State) : (accept i s).pbuf = s.pbuf := rfl
@[simp] theorem accept_sq_seq (i : Instr) (s : State) : (accept i s).sq.seq = s.sq.seq := rfl
@[simp] theorem accept_sq_pos (i : Instr) (s : State) : (accept i s).sq.pos = s.sq.pos := rfl
@[simp] theorem accept_sq_rem (i : Instr) (s : State) : (accept i s).sq.rem = s.sq.rem := rfl
@[simp] theorem accept_sq_pidx (i : Instr) (s : State) : (accept i s).sq.pidx = s.sq.pidx := rfl
@[simp] theorem accept_sq_cmd (i : Instr) (s : State) : (accept i s).sq.cmd = latchWord i s.sq.cmd := rfl
@[simp] theorem accept_sq_hold (i : Instr) (s : State) : (accept i s).sq.hold = s.sq.hold := rfl
@[simp] theorem accept_io (i : Instr) (s : State) : (accept i s).io = s.io := rfl
@[simp] theorem accept_cmds (i : Instr) (s : State) : (accept i s).cmds = s.cmds := rfl
@[simp] theorem accept_rstEdges (i : Instr) (s : State) : (accept i s).rstEdges = s.rstEdges := rfl
@[simp] theorem accept_unspec (i : Instr) (s : State) : (accept i s).unspec = s.unspec := rfl

/-! ## raise -/

@[simp] theorem raise_params (c : Status) (e : Option Byte) (s : State) : (raise c e s).params = s.params := rfl
@[simp] theorem raise_busy (c : Status) (e : Option Byte) (s : State) : (raise c e s).busy = false := rfl
@[simp] theorem raise_res_errinfo (c : Status) (e : Option Byte) (s : State) : (raise c e s).res.errinfo = e.getD s.res.errinfo := rfl
@[simp] theorem raise_res_fin (c : Status) (e : Option Byte) (s : State) : (raise c e s).res.fin = s.res.fin := rfl
@[simp] theorem raise_res_rsv1 (c : Status) (e : Option Byte) (s : State) : (raise c e s).res.rsv1 = s.res.rsv1 := rfl
@[simp] theorem raise_res_rsv2 (c : Status) (e : Option Byte) (s : State) : (raise c e s).res.rsv2 = s.res.rsv2 := rfl
@[simp] theorem raise_res_rsv3 (c : Status) (e : Option Byte) (s : State) : (raise c e s).res.rsv3 = s.res.rsv3 := rfl
@[simp] theorem raise_res_opc (c : Status) (e : Option Byte) (s : State) : (raise c e s).res.opc = s.res.opc := rfl
@[simp] theorem raise_res_cls (c : Status) (e : Option Byte) (s : State) : (raise c e s).res.cls = s.res.cls := rfl
@[simp] theorem raise_res_kind (c : Status) (e : Option Byte) (s : State) : (raise c e s).res.kind = s.res.kind := rfl
@[simp] theorem raise_res_masked (c : Status) (e : Option Byte) (s : State) : (raise c e s).res.masked = s.res.masked := rfl
@[simp] theorem raise_res_key (c : Status) (e : Option Byte) (s : State) : (raise c e s).res.key = s.res.key := rfl
@[simp] theorem raise_res_len (c : Status) (e : Option Byte) (s : State) : (raise c e s).res.len = s.res.len := rfl
@[simp] theorem raise_res_overcap (c : Status) (e : Option Byte) (s : State) : (raise c e s).res.overcap = s.res.overcap := rfl
@[simp] theorem raise_res_fmt (c : Status) (e : Option Byte) (s : State) : (raise c e s).res.fmt = s.res.fmt := rfl
@[simp] theorem raise_res_field (c : Status) (e : Option Byte) (s : State) : (raise c e s).res.field = s.res.field := rfl
@[simp] theorem raise_res_ext (c : Status) (e : Option Byte) (s : State) : (raise c e s).res.ext = s.res.ext := rfl
@[simp] theorem raise_res_cnt (c : Status) (e : Option Byte) (s : State) : (raise c e s).res.cnt = s.res.cnt := rfl
@[simp] theorem raise_res_status (c : Status) (e : Option Byte) (s : State) : (raise c e s).res.status = c := rfl
@[simp] theorem raise_fr (c : Status) (e : Option Byte) (s : State) : (raise c e s).fr = s.fr := rfl
@[simp] theorem raise_pbuf (c : Status) (e : Option Byte) (s : State) : (raise c e s).pbuf = s.pbuf := rfl
@[simp] theorem raise_sq_seq (c : Status) (e : Option Byte) (s : State) : (raise c e s).sq.seq = .idle := rfl
@[simp] theorem raise_sq_pos (c : Status) (e : Option Byte) (s : State) : (raise c e s).sq.pos = s.sq.pos := rfl
@[simp] theorem raise_sq_rem (c : Status) (e : Option Byte) (s : State) : (raise c e s).sq.rem = s.sq.rem := rfl
@[simp] theorem raise_sq_pidx (c : Status) (e : Option Byte) (s : State) : (raise c e s).sq.pidx = s.sq.pidx := rfl
@[simp] theorem raise_sq_cmd (c : Status) (e : Option Byte) (s : State) : (raise c e s).sq.cmd = s.sq.cmd := rfl
@[simp] theorem raise_sq_hold (c : Status) (e : Option Byte) (s : State) : (raise c e s).sq.hold = s.sq.hold := rfl
@[simp] theorem raise_io (c : Status) (e : Option Byte) (s : State) : (raise c e s).io = s.io := rfl
@[simp] theorem raise_cmds (c : Status) (e : Option Byte) (s : State) : (raise c e s).cmds = s.cmds := rfl
@[simp] theorem raise_rstEdges (c : Status) (e : Option Byte) (s : State) : (raise c e s).rstEdges = s.rstEdges := rfl
@[simp] theorem raise_unspec (c : Status) (e : Option Byte) (s : State) : (raise c e s).unspec = s.unspec := rfl

/-! ## finishOk -/

@[simp] theorem finishOk_params (s : State) : (finishOk s).params = s.params := rfl
@[simp] theorem finishOk_busy (s : State) : (finishOk s).busy = false := rfl
@[simp] theorem finishOk_res_errinfo (s : State) : (finishOk s).res.errinfo = s.res.errinfo := rfl
@[simp] theorem finishOk_res_fin (s : State) : (finishOk s).res.fin = s.res.fin := rfl
@[simp] theorem finishOk_res_rsv1 (s : State) : (finishOk s).res.rsv1 = s.res.rsv1 := rfl
@[simp] theorem finishOk_res_rsv2 (s : State) : (finishOk s).res.rsv2 = s.res.rsv2 := rfl
@[simp] theorem finishOk_res_rsv3 (s : State) : (finishOk s).res.rsv3 = s.res.rsv3 := rfl
@[simp] theorem finishOk_res_opc (s : State) : (finishOk s).res.opc = s.res.opc := rfl
@[simp] theorem finishOk_res_cls (s : State) : (finishOk s).res.cls = s.res.cls := rfl
@[simp] theorem finishOk_res_kind (s : State) : (finishOk s).res.kind = s.res.kind := rfl
@[simp] theorem finishOk_res_masked (s : State) : (finishOk s).res.masked = s.res.masked := rfl
@[simp] theorem finishOk_res_key (s : State) : (finishOk s).res.key = s.res.key := rfl
@[simp] theorem finishOk_res_len (s : State) : (finishOk s).res.len = s.res.len := rfl
@[simp] theorem finishOk_res_overcap (s : State) : (finishOk s).res.overcap = s.res.overcap := rfl
@[simp] theorem finishOk_res_fmt (s : State) : (finishOk s).res.fmt = s.res.fmt := rfl
@[simp] theorem finishOk_res_field (s : State) : (finishOk s).res.field = s.res.field := rfl
@[simp] theorem finishOk_res_ext (s : State) : (finishOk s).res.ext = s.res.ext := rfl
@[simp] theorem finishOk_res_cnt (s : State) : (finishOk s).res.cnt = s.res.cnt := rfl
@[simp] theorem finishOk_res_status (s : State) : (finishOk s).res.status = .ok := rfl
@[simp] theorem finishOk_fr (s : State) : (finishOk s).fr = s.fr := rfl
@[simp] theorem finishOk_pbuf (s : State) : (finishOk s).pbuf = s.pbuf := rfl
@[simp] theorem finishOk_sq_seq (s : State) : (finishOk s).sq.seq = .idle := rfl
@[simp] theorem finishOk_sq_pos (s : State) : (finishOk s).sq.pos = s.sq.pos := rfl
@[simp] theorem finishOk_sq_rem (s : State) : (finishOk s).sq.rem = s.sq.rem := rfl
@[simp] theorem finishOk_sq_pidx (s : State) : (finishOk s).sq.pidx = s.sq.pidx := rfl
@[simp] theorem finishOk_sq_cmd (s : State) : (finishOk s).sq.cmd = s.sq.cmd := rfl
@[simp] theorem finishOk_sq_hold (s : State) : (finishOk s).sq.hold = s.sq.hold := rfl
@[simp] theorem finishOk_io (s : State) : (finishOk s).io = s.io := rfl
@[simp] theorem finishOk_cmds (s : State) : (finishOk s).cmds = s.cmds := rfl
@[simp] theorem finishOk_rstEdges (s : State) : (finishOk s).rstEdges = s.rstEdges := rfl
@[simp] theorem finishOk_unspec (s : State) : (finishOk s).unspec = s.unspec := rfl

/-! ## forgetHeader -/

@[simp] theorem forgetHeader_params (s : State) : (forgetHeader s).params = s.params := rfl
@[simp] theorem forgetHeader_busy (s : State) : (forgetHeader s).busy = s.busy := rfl
@[simp] theorem forgetHeader_res_errinfo (s : State) : (forgetHeader s).res.errinfo = s.res.errinfo := rfl
@[simp] theorem forgetHeader_res_fmt (s : State) : (forgetHeader s).res.fmt = s.res.fmt := rfl
@[simp] theorem forgetHeader_res_field (s : State) : (forgetHeader s).res.field = s.res.field := rfl
@[simp] theorem forgetHeader_res_ext (s : State) : (forgetHeader s).res.ext = s.res.ext := rfl
@[simp] theorem forgetHeader_res_cnt (s : State) : (forgetHeader s).res.cnt = s.res.cnt := rfl
@[simp] theorem forgetHeader_res_status (s : State) : (forgetHeader s).res.status = s.res.status := rfl
@[simp] theorem forgetHeader_fr (s : State) : (forgetHeader s).fr = s.fr := rfl
@[simp] theorem forgetHeader_pbuf (s : State) : (forgetHeader s).pbuf = s.pbuf := rfl
@[simp] theorem forgetHeader_sq (s : State) : (forgetHeader s).sq = s.sq := rfl
@[simp] theorem forgetHeader_io (s : State) : (forgetHeader s).io = s.io := rfl
@[simp] theorem forgetHeader_cmds (s : State) : (forgetHeader s).cmds = s.cmds := rfl
@[simp] theorem forgetHeader_rstEdges (s : State) : (forgetHeader s).rstEdges = s.rstEdges := rfl
@[simp] theorem forgetHeader_unspec (s : State) : (forgetHeader s).unspec = s.unspec + 1 := rfl

/-! ## forgetKey -/

@[simp] theorem forgetKey_params (s : State) : (forgetKey s).params = s.params := rfl
@[simp] theorem forgetKey_busy (s : State) : (forgetKey s).busy = s.busy := rfl
@[simp] theorem forgetKey_res_errinfo (s : State) : (forgetKey s).res.errinfo = s.res.errinfo := rfl
@[simp] theorem forgetKey_res_fin (s : State) : (forgetKey s).res.fin = s.res.fin := rfl
@[simp] theorem forgetKey_res_rsv1 (s : State) : (forgetKey s).res.rsv1 = s.res.rsv1 := rfl
@[simp] theorem forgetKey_res_rsv2 (s : State) : (forgetKey s).res.rsv2 = s.res.rsv2 := rfl
@[simp] theorem forgetKey_res_rsv3 (s : State) : (forgetKey s).res.rsv3 = s.res.rsv3 := rfl
@[simp] theorem forgetKey_res_opc (s : State) : (forgetKey s).res.opc = s.res.opc := rfl
@[simp] theorem forgetKey_res_cls (s : State) : (forgetKey s).res.cls = s.res.cls := rfl
@[simp] theorem forgetKey_res_kind (s : State) : (forgetKey s).res.kind = s.res.kind := rfl
@[simp] theorem forgetKey_res_masked (s : State) : (forgetKey s).res.masked = s.res.masked := rfl
@[simp] theorem forgetKey_res_len (s : State) : (forgetKey s).res.len = s.res.len := rfl
@[simp] theorem forgetKey_res_overcap (s : State) : (forgetKey s).res.overcap = s.res.overcap := rfl
@[simp] theorem forgetKey_res_fmt (s : State) : (forgetKey s).res.fmt = s.res.fmt := rfl
@[simp] theorem forgetKey_res_field (s : State) : (forgetKey s).res.field = s.res.field := rfl
@[simp] theorem forgetKey_res_ext (s : State) : (forgetKey s).res.ext = s.res.ext := rfl
@[simp] theorem forgetKey_res_cnt (s : State) : (forgetKey s).res.cnt = s.res.cnt := rfl
@[simp] theorem forgetKey_res_status (s : State) : (forgetKey s).res.status = s.res.status := rfl
@[simp] theorem forgetKey_fr (s : State) : (forgetKey s).fr = s.fr := rfl
@[simp] theorem forgetKey_pbuf (s : State) : (forgetKey s).pbuf = s.pbuf := rfl
@[simp] theorem forgetKey_sq (s : State) : (forgetKey s).sq = s.sq := rfl
@[simp] theorem forgetKey_io (s : State) : (forgetKey s).io = s.io := rfl
@[simp] theorem forgetKey_cmds (s : State) : (forgetKey s).cmds = s.cmds := rfl
@[simp] theorem forgetKey_rstEdges (s : State) : (forgetKey s).rstEdges = s.rstEdges := rfl
@[simp] theorem forgetKey_unspec (s : State) : (forgetKey s).unspec = s.unspec + 1 := rfl

/-! ## forgetFrameKey -/

@[simp] theorem forgetFrameKey_params (s : State) : (forgetFrameKey s).params = s.params := rfl
@[simp] theorem forgetFrameKey_busy (s : State) : (forgetFrameKey s).busy = s.busy := rfl
@[simp] theorem forgetFrameKey_res (s : State) : (forgetFrameKey s).res = s.res := rfl
@[simp] theorem forgetFrameKey_fr_valid (s : State) : (forgetFrameKey s).fr.valid = s.fr.valid := rfl
@[simp] theorem forgetFrameKey_fr_fin (s : State) : (forgetFrameKey s).fr.fin = s.fr.fin := rfl
@[simp] theorem forgetFrameKey_fr_rsv1 (s : State) : (forgetFrameKey s).fr.rsv1 = s.fr.rsv1 := rfl
@[simp] theorem forgetFrameKey_fr_rsv2 (s : State) : (forgetFrameKey s).fr.rsv2 = s.fr.rsv2 := rfl
@[simp] theorem forgetFrameKey_fr_rsv3 (s : State) : (forgetFrameKey s).fr.rsv3 = s.fr.rsv3 := rfl
@[simp] theorem forgetFrameKey_fr_opc (s : State) : (forgetFrameKey s).fr.opc = s.fr.opc := rfl
@[simp] theorem forgetFrameKey_fr_masked (s : State) : (forgetFrameKey s).fr.masked = s.fr.masked := rfl
@[simp] theorem forgetFrameKey_fr_plen (s : State) : (forgetFrameKey s).fr.plen = s.fr.plen := rfl
@[simp] theorem forgetFrameKey_pbuf (s : State) : (forgetFrameKey s).pbuf = s.pbuf := rfl
@[simp] theorem forgetFrameKey_sq (s : State) : (forgetFrameKey s).sq = s.sq := rfl
@[simp] theorem forgetFrameKey_io (s : State) : (forgetFrameKey s).io = s.io := rfl
@[simp] theorem forgetFrameKey_cmds (s : State) : (forgetFrameKey s).cmds = s.cmds := rfl
@[simp] theorem forgetFrameKey_rstEdges (s : State) : (forgetFrameKey s).rstEdges = s.rstEdges := rfl
@[simp] theorem forgetFrameKey_unspec (s : State) : (forgetFrameKey s).unspec = s.unspec + 1 := rfl

/-! ## forgetFrame -/

@[simp] theorem forgetFrame_params (s : State) : (forgetFrame s).params = s.params := rfl
@[simp] theorem forgetFrame_busy (s : State) : (forgetFrame s).busy = s.busy := rfl
@[simp] theorem forgetFrame_res (s : State) : (forgetFrame s).res = s.res := rfl
@[simp] theorem forgetFrame_fr_valid (s : State) : (forgetFrame s).fr.valid = false := rfl
@[simp] theorem forgetFrame_pbuf (s : State) : (forgetFrame s).pbuf = [] := rfl
@[simp] theorem forgetFrame_sq (s : State) : (forgetFrame s).sq = s.sq := rfl
@[simp] theorem forgetFrame_io (s : State) : (forgetFrame s).io = s.io := rfl
@[simp] theorem forgetFrame_cmds (s : State) : (forgetFrame s).cmds = s.cmds := rfl
@[simp] theorem forgetFrame_rstEdges (s : State) : (forgetFrame s).rstEdges = s.rstEdges := rfl
@[simp] theorem forgetFrame_unspec (s : State) : (forgetFrame s).unspec = s.unspec + 1 := rfl

/-! ## resetEdge -/

@[simp] theorem resetEdge_params (s : State) : (resetEdge s).params = s.params := rfl
@[simp] theorem resetEdge_busy (s : State) : (resetEdge s).busy = false := rfl
@[simp] theorem resetEdge_res_status (s : State) : (resetEdge s).res.status = .reset := rfl
@[simp] theorem resetEdge_fr_valid (s : State) : (resetEdge s).fr.valid = false := rfl
@[simp] theorem resetEdge_pbuf (s : State) : (resetEdge s).pbuf = [] := rfl
@[simp] theorem resetEdge_sq_seq (s : State) : (resetEdge s).sq.seq = .idle := rfl
@[simp] theorem resetEdge_sq_hold (s : State) : (resetEdge s).sq.hold = none := rfl
@[simp] theorem resetEdge_io (s : State) : (resetEdge s).io = s.io := rfl
@[simp] theorem resetEdge_cmds (s : State) : (resetEdge s).cmds = s.cmds := rfl
@[simp] theorem resetEdge_rstEdges (s : State) : (resetEdge s).rstEdges = s.rstEdges - 1 := rfl
@[simp] theorem resetEdge_unspec (s : State) : (resetEdge s).unspec = s.unspec + 1 := rfl

/-! ## writeOpcode -/

@[simp] theorem writeOpcode_params (o : BitVec 4) (c : Bool) (k : BitVec 2) (s : State) : (writeOpcode o c k s).params = s.params := rfl
@[simp] theorem writeOpcode_busy (o : BitVec 4) (c : Bool) (k : BitVec 2) (s : State) : (writeOpcode o c k s).busy = s.busy := rfl
@[simp] theorem writeOpcode_res_errinfo (o : BitVec 4) (c : Bool) (k : BitVec 2) (s : State) : (writeOpcode o c k s).res.errinfo = s.res.errinfo := rfl
@[simp] theorem writeOpcode_res_fin (o : BitVec 4) (c : Bool) (k : BitVec 2) (s : State) : (writeOpcode o c k s).res.fin = s.res.fin := rfl
@[simp] theorem writeOpcode_res_rsv1 (o : BitVec 4) (c : Bool) (k : BitVec 2) (s : State) : (writeOpcode o c k s).res.rsv1 = s.res.rsv1 := rfl
@[simp] theorem writeOpcode_res_rsv2 (o : BitVec 4) (c : Bool) (k : BitVec 2) (s : State) : (writeOpcode o c k s).res.rsv2 = s.res.rsv2 := rfl
@[simp] theorem writeOpcode_res_rsv3 (o : BitVec 4) (c : Bool) (k : BitVec 2) (s : State) : (writeOpcode o c k s).res.rsv3 = s.res.rsv3 := rfl
@[simp] theorem writeOpcode_res_opc (o : BitVec 4) (c : Bool) (k : BitVec 2) (s : State) : (writeOpcode o c k s).res.opc = o := rfl
@[simp] theorem writeOpcode_res_cls (o : BitVec 4) (c : Bool) (k : BitVec 2) (s : State) : (writeOpcode o c k s).res.cls = c := rfl
@[simp] theorem writeOpcode_res_kind (o : BitVec 4) (c : Bool) (k : BitVec 2) (s : State) : (writeOpcode o c k s).res.kind = k := rfl
@[simp] theorem writeOpcode_res_masked (o : BitVec 4) (c : Bool) (k : BitVec 2) (s : State) : (writeOpcode o c k s).res.masked = s.res.masked := rfl
@[simp] theorem writeOpcode_res_key (o : BitVec 4) (c : Bool) (k : BitVec 2) (s : State) : (writeOpcode o c k s).res.key = s.res.key := rfl
@[simp] theorem writeOpcode_res_len (o : BitVec 4) (c : Bool) (k : BitVec 2) (s : State) : (writeOpcode o c k s).res.len = s.res.len := rfl
@[simp] theorem writeOpcode_res_overcap (o : BitVec 4) (c : Bool) (k : BitVec 2) (s : State) : (writeOpcode o c k s).res.overcap = s.res.overcap := rfl
@[simp] theorem writeOpcode_res_fmt (o : BitVec 4) (c : Bool) (k : BitVec 2) (s : State) : (writeOpcode o c k s).res.fmt = s.res.fmt := rfl
@[simp] theorem writeOpcode_res_field (o : BitVec 4) (c : Bool) (k : BitVec 2) (s : State) : (writeOpcode o c k s).res.field = s.res.field := rfl
@[simp] theorem writeOpcode_res_ext (o : BitVec 4) (c : Bool) (k : BitVec 2) (s : State) : (writeOpcode o c k s).res.ext = s.res.ext := rfl
@[simp] theorem writeOpcode_res_cnt (o : BitVec 4) (c : Bool) (k : BitVec 2) (s : State) : (writeOpcode o c k s).res.cnt = s.res.cnt := rfl
@[simp] theorem writeOpcode_res_status (o : BitVec 4) (c : Bool) (k : BitVec 2) (s : State) : (writeOpcode o c k s).res.status = s.res.status := rfl
@[simp] theorem writeOpcode_fr (o : BitVec 4) (c : Bool) (k : BitVec 2) (s : State) : (writeOpcode o c k s).fr = s.fr := rfl
@[simp] theorem writeOpcode_pbuf (o : BitVec 4) (c : Bool) (k : BitVec 2) (s : State) : (writeOpcode o c k s).pbuf = s.pbuf := rfl
@[simp] theorem writeOpcode_sq (o : BitVec 4) (c : Bool) (k : BitVec 2) (s : State) : (writeOpcode o c k s).sq = s.sq := rfl
@[simp] theorem writeOpcode_io (o : BitVec 4) (c : Bool) (k : BitVec 2) (s : State) : (writeOpcode o c k s).io = s.io := rfl
@[simp] theorem writeOpcode_cmds (o : BitVec 4) (c : Bool) (k : BitVec 2) (s : State) : (writeOpcode o c k s).cmds = s.cmds := rfl
@[simp] theorem writeOpcode_rstEdges (o : BitVec 4) (c : Bool) (k : BitVec 2) (s : State) : (writeOpcode o c k s).rstEdges = s.rstEdges := rfl
@[simp] theorem writeOpcode_unspec (o : BitVec 4) (c : Bool) (k : BitVec 2) (s : State) : (writeOpcode o c k s).unspec = s.unspec := rfl

/-! ## writeFormat -/

@[simp] theorem writeFormat_params (f : LengthFormat) (l : BitVec 7) (s : State) : (writeFormat f l s).params = s.params := rfl
@[simp] theorem writeFormat_busy (f : LengthFormat) (l : BitVec 7) (s : State) : (writeFormat f l s).busy = s.busy := rfl
@[simp] theorem writeFormat_res_errinfo (f : LengthFormat) (l : BitVec 7) (s : State) : (writeFormat f l s).res.errinfo = s.res.errinfo := rfl
@[simp] theorem writeFormat_res_fin (f : LengthFormat) (l : BitVec 7) (s : State) : (writeFormat f l s).res.fin = s.res.fin := rfl
@[simp] theorem writeFormat_res_rsv1 (f : LengthFormat) (l : BitVec 7) (s : State) : (writeFormat f l s).res.rsv1 = s.res.rsv1 := rfl
@[simp] theorem writeFormat_res_rsv2 (f : LengthFormat) (l : BitVec 7) (s : State) : (writeFormat f l s).res.rsv2 = s.res.rsv2 := rfl
@[simp] theorem writeFormat_res_rsv3 (f : LengthFormat) (l : BitVec 7) (s : State) : (writeFormat f l s).res.rsv3 = s.res.rsv3 := rfl
@[simp] theorem writeFormat_res_opc (f : LengthFormat) (l : BitVec 7) (s : State) : (writeFormat f l s).res.opc = s.res.opc := rfl
@[simp] theorem writeFormat_res_cls (f : LengthFormat) (l : BitVec 7) (s : State) : (writeFormat f l s).res.cls = s.res.cls := rfl
@[simp] theorem writeFormat_res_kind (f : LengthFormat) (l : BitVec 7) (s : State) : (writeFormat f l s).res.kind = s.res.kind := rfl
@[simp] theorem writeFormat_res_masked (f : LengthFormat) (l : BitVec 7) (s : State) : (writeFormat f l s).res.masked = s.res.masked := rfl
@[simp] theorem writeFormat_res_key (f : LengthFormat) (l : BitVec 7) (s : State) : (writeFormat f l s).res.key = s.res.key := rfl
@[simp] theorem writeFormat_res_len (f : LengthFormat) (l : BitVec 7) (s : State) : (writeFormat f l s).res.len = s.res.len := rfl
@[simp] theorem writeFormat_res_overcap (f : LengthFormat) (l : BitVec 7) (s : State) : (writeFormat f l s).res.overcap = s.res.overcap := rfl
@[simp] theorem writeFormat_res_fmt (f : LengthFormat) (l : BitVec 7) (s : State) : (writeFormat f l s).res.fmt = f.code := rfl
@[simp] theorem writeFormat_res_field (f : LengthFormat) (l : BitVec 7) (s : State) : (writeFormat f l s).res.field = l := rfl
@[simp] theorem writeFormat_res_ext (f : LengthFormat) (l : BitVec 7) (s : State) : (writeFormat f l s).res.ext = BitVec.ofNat 4 f.extBytes := rfl
@[simp] theorem writeFormat_res_cnt (f : LengthFormat) (l : BitVec 7) (s : State) : (writeFormat f l s).res.cnt = s.res.cnt := rfl
@[simp] theorem writeFormat_res_status (f : LengthFormat) (l : BitVec 7) (s : State) : (writeFormat f l s).res.status = s.res.status := rfl
@[simp] theorem writeFormat_fr (f : LengthFormat) (l : BitVec 7) (s : State) : (writeFormat f l s).fr = s.fr := rfl
@[simp] theorem writeFormat_pbuf (f : LengthFormat) (l : BitVec 7) (s : State) : (writeFormat f l s).pbuf = s.pbuf := rfl
@[simp] theorem writeFormat_sq (f : LengthFormat) (l : BitVec 7) (s : State) : (writeFormat f l s).sq = s.sq := rfl
@[simp] theorem writeFormat_io (f : LengthFormat) (l : BitVec 7) (s : State) : (writeFormat f l s).io = s.io := rfl
@[simp] theorem writeFormat_cmds (f : LengthFormat) (l : BitVec 7) (s : State) : (writeFormat f l s).cmds = s.cmds := rfl
@[simp] theorem writeFormat_rstEdges (f : LengthFormat) (l : BitVec 7) (s : State) : (writeFormat f l s).rstEdges = s.rstEdges := rfl
@[simp] theorem writeFormat_unspec (f : LengthFormat) (l : BitVec 7) (s : State) : (writeFormat f l s).unspec = s.unspec := rfl

/-! ## writeCount -/

@[simp] theorem writeCount_params (n : Nat) (s : State) : (writeCount n s).params = s.params := rfl
@[simp] theorem writeCount_busy (n : Nat) (s : State) : (writeCount n s).busy = s.busy := rfl
@[simp] theorem writeCount_res_errinfo (n : Nat) (s : State) : (writeCount n s).res.errinfo = s.res.errinfo := rfl
@[simp] theorem writeCount_res_fin (n : Nat) (s : State) : (writeCount n s).res.fin = s.res.fin := rfl
@[simp] theorem writeCount_res_rsv1 (n : Nat) (s : State) : (writeCount n s).res.rsv1 = s.res.rsv1 := rfl
@[simp] theorem writeCount_res_rsv2 (n : Nat) (s : State) : (writeCount n s).res.rsv2 = s.res.rsv2 := rfl
@[simp] theorem writeCount_res_rsv3 (n : Nat) (s : State) : (writeCount n s).res.rsv3 = s.res.rsv3 := rfl
@[simp] theorem writeCount_res_opc (n : Nat) (s : State) : (writeCount n s).res.opc = s.res.opc := rfl
@[simp] theorem writeCount_res_cls (n : Nat) (s : State) : (writeCount n s).res.cls = s.res.cls := rfl
@[simp] theorem writeCount_res_kind (n : Nat) (s : State) : (writeCount n s).res.kind = s.res.kind := rfl
@[simp] theorem writeCount_res_masked (n : Nat) (s : State) : (writeCount n s).res.masked = s.res.masked := rfl
@[simp] theorem writeCount_res_key (n : Nat) (s : State) : (writeCount n s).res.key = s.res.key := rfl
@[simp] theorem writeCount_res_len (n : Nat) (s : State) : (writeCount n s).res.len = s.res.len := rfl
@[simp] theorem writeCount_res_overcap (n : Nat) (s : State) : (writeCount n s).res.overcap = s.res.overcap := rfl
@[simp] theorem writeCount_res_fmt (n : Nat) (s : State) : (writeCount n s).res.fmt = s.res.fmt := rfl
@[simp] theorem writeCount_res_field (n : Nat) (s : State) : (writeCount n s).res.field = s.res.field := rfl
@[simp] theorem writeCount_res_ext (n : Nat) (s : State) : (writeCount n s).res.ext = s.res.ext := rfl
@[simp] theorem writeCount_res_cnt (n : Nat) (s : State) : (writeCount n s).res.cnt = BitVec.ofNat 65 n := rfl
@[simp] theorem writeCount_res_status (n : Nat) (s : State) : (writeCount n s).res.status = s.res.status := rfl
@[simp] theorem writeCount_fr (n : Nat) (s : State) : (writeCount n s).fr = s.fr := rfl
@[simp] theorem writeCount_pbuf (n : Nat) (s : State) : (writeCount n s).pbuf = s.pbuf := rfl
@[simp] theorem writeCount_sq (n : Nat) (s : State) : (writeCount n s).sq = s.sq := rfl
@[simp] theorem writeCount_io (n : Nat) (s : State) : (writeCount n s).io = s.io := rfl
@[simp] theorem writeCount_cmds (n : Nat) (s : State) : (writeCount n s).cmds = s.cmds := rfl
@[simp] theorem writeCount_rstEdges (n : Nat) (s : State) : (writeCount n s).rstEdges = s.rstEdges := rfl
@[simp] theorem writeCount_unspec (n : Nat) (s : State) : (writeCount n s).unspec = s.unspec := rfl

/-! ## takeFixedByte0 -/

@[simp] theorem takeFixedByte0_params (f a b c : Bool) (o : BitVec 4) (l : Bool) (k : BitVec 2) (s : State) : (takeFixedByte0 f a b c o l k s).params = s.params := rfl
@[simp] theorem takeFixedByte0_busy (f a b c : Bool) (o : BitVec 4) (l : Bool) (k : BitVec 2) (s : State) : (takeFixedByte0 f a b c o l k s).busy = s.busy := rfl
@[simp] theorem takeFixedByte0_res_errinfo (f a b c : Bool) (o : BitVec 4) (l : Bool) (k : BitVec 2) (s : State) : (takeFixedByte0 f a b c o l k s).res.errinfo = s.res.errinfo := rfl
@[simp] theorem takeFixedByte0_res_fin (f a b c : Bool) (o : BitVec 4) (l : Bool) (k : BitVec 2) (s : State) : (takeFixedByte0 f a b c o l k s).res.fin = f := rfl
@[simp] theorem takeFixedByte0_res_rsv1 (f a b c : Bool) (o : BitVec 4) (l : Bool) (k : BitVec 2) (s : State) : (takeFixedByte0 f a b c o l k s).res.rsv1 = a := rfl
@[simp] theorem takeFixedByte0_res_rsv2 (f a b c : Bool) (o : BitVec 4) (l : Bool) (k : BitVec 2) (s : State) : (takeFixedByte0 f a b c o l k s).res.rsv2 = b := rfl
@[simp] theorem takeFixedByte0_res_rsv3 (f a b c : Bool) (o : BitVec 4) (l : Bool) (k : BitVec 2) (s : State) : (takeFixedByte0 f a b c o l k s).res.rsv3 = c := rfl
@[simp] theorem takeFixedByte0_res_opc (f a b c : Bool) (o : BitVec 4) (l : Bool) (k : BitVec 2) (s : State) : (takeFixedByte0 f a b c o l k s).res.opc = o := rfl
@[simp] theorem takeFixedByte0_res_cls (f a b c : Bool) (o : BitVec 4) (l : Bool) (k : BitVec 2) (s : State) : (takeFixedByte0 f a b c o l k s).res.cls = l := rfl
@[simp] theorem takeFixedByte0_res_kind (f a b c : Bool) (o : BitVec 4) (l : Bool) (k : BitVec 2) (s : State) : (takeFixedByte0 f a b c o l k s).res.kind = k := rfl
@[simp] theorem takeFixedByte0_res_masked (f a b c : Bool) (o : BitVec 4) (l : Bool) (k : BitVec 2) (s : State) : (takeFixedByte0 f a b c o l k s).res.masked = s.res.masked := rfl
@[simp] theorem takeFixedByte0_res_key (f a b c : Bool) (o : BitVec 4) (l : Bool) (k : BitVec 2) (s : State) : (takeFixedByte0 f a b c o l k s).res.key = s.res.key := rfl
@[simp] theorem takeFixedByte0_res_len (f a b c : Bool) (o : BitVec 4) (l : Bool) (k : BitVec 2) (s : State) : (takeFixedByte0 f a b c o l k s).res.len = s.res.len := rfl
@[simp] theorem takeFixedByte0_res_overcap (f a b c : Bool) (o : BitVec 4) (l : Bool) (k : BitVec 2) (s : State) : (takeFixedByte0 f a b c o l k s).res.overcap = s.res.overcap := rfl
@[simp] theorem takeFixedByte0_res_fmt (f a b c : Bool) (o : BitVec 4) (l : Bool) (k : BitVec 2) (s : State) : (takeFixedByte0 f a b c o l k s).res.fmt = s.res.fmt := rfl
@[simp] theorem takeFixedByte0_res_field (f a b c : Bool) (o : BitVec 4) (l : Bool) (k : BitVec 2) (s : State) : (takeFixedByte0 f a b c o l k s).res.field = s.res.field := rfl
@[simp] theorem takeFixedByte0_res_ext (f a b c : Bool) (o : BitVec 4) (l : Bool) (k : BitVec 2) (s : State) : (takeFixedByte0 f a b c o l k s).res.ext = s.res.ext := rfl
@[simp] theorem takeFixedByte0_res_cnt (f a b c : Bool) (o : BitVec 4) (l : Bool) (k : BitVec 2) (s : State) : (takeFixedByte0 f a b c o l k s).res.cnt = s.res.cnt := rfl
@[simp] theorem takeFixedByte0_res_status (f a b c : Bool) (o : BitVec 4) (l : Bool) (k : BitVec 2) (s : State) : (takeFixedByte0 f a b c o l k s).res.status = s.res.status := rfl
@[simp] theorem takeFixedByte0_fr (f a b c : Bool) (o : BitVec 4) (l : Bool) (k : BitVec 2) (s : State) : (takeFixedByte0 f a b c o l k s).fr = s.fr := rfl
@[simp] theorem takeFixedByte0_pbuf (f a b c : Bool) (o : BitVec 4) (l : Bool) (k : BitVec 2) (s : State) : (takeFixedByte0 f a b c o l k s).pbuf = s.pbuf := rfl
@[simp] theorem takeFixedByte0_sq_seq (f a b c : Bool) (o : BitVec 4) (l : Bool) (k : BitVec 2) (s : State) : (takeFixedByte0 f a b c o l k s).sq.seq = .pFix1 := rfl
@[simp] theorem takeFixedByte0_sq_pos (f a b c : Bool) (o : BitVec 4) (l : Bool) (k : BitVec 2) (s : State) : (takeFixedByte0 f a b c o l k s).sq.pos = 1 := rfl
@[simp] theorem takeFixedByte0_sq_rem (f a b c : Bool) (o : BitVec 4) (l : Bool) (k : BitVec 2) (s : State) : (takeFixedByte0 f a b c o l k s).sq.rem = s.sq.rem := rfl
@[simp] theorem takeFixedByte0_sq_pidx (f a b c : Bool) (o : BitVec 4) (l : Bool) (k : BitVec 2) (s : State) : (takeFixedByte0 f a b c o l k s).sq.pidx = s.sq.pidx := rfl
@[simp] theorem takeFixedByte0_sq_cmd (f a b c : Bool) (o : BitVec 4) (l : Bool) (k : BitVec 2) (s : State) : (takeFixedByte0 f a b c o l k s).sq.cmd = s.sq.cmd := rfl
@[simp] theorem takeFixedByte0_sq_hold (f a b c : Bool) (o : BitVec 4) (l : Bool) (k : BitVec 2) (s : State) : (takeFixedByte0 f a b c o l k s).sq.hold = s.sq.hold := rfl
@[simp] theorem takeFixedByte0_io (f a b c : Bool) (o : BitVec 4) (l : Bool) (k : BitVec 2) (s : State) : (takeFixedByte0 f a b c o l k s).io = s.io := rfl
@[simp] theorem takeFixedByte0_cmds (f a b c : Bool) (o : BitVec 4) (l : Bool) (k : BitVec 2) (s : State) : (takeFixedByte0 f a b c o l k s).cmds = s.cmds := rfl
@[simp] theorem takeFixedByte0_rstEdges (f a b c : Bool) (o : BitVec 4) (l : Bool) (k : BitVec 2) (s : State) : (takeFixedByte0 f a b c o l k s).rstEdges = s.rstEdges := rfl
@[simp] theorem takeFixedByte0_unspec (f a b c : Bool) (o : BitVec 4) (l : Bool) (k : BitVec 2) (s : State) : (takeFixedByte0 f a b c o l k s).unspec = s.unspec := rfl

end Sys2Proof.Machine
end

