-- ==== Sys2Proof/Laws/Bytes.lean ====
section
/-! SUPPORT. What the pieces of the byte-step machine leave alone, field by field (R131, R135, R163, R168), as simp
lemmas: no later proof unfolds one of them for a field it does not write. -/

namespace Sys2Proof.Machine

/-! ## finishParse -/

@[simp] theorem finishParse_params (s : State) : (finishParse s).params = s.params := by
  unfold finishParse; simp only []; split <;> rfl

@[simp] theorem finishParse_fr (s : State) : (finishParse s).fr = s.fr := by
  unfold finishParse; simp only []; split <;> rfl

@[simp] theorem finishParse_pbuf (s : State) : (finishParse s).pbuf = s.pbuf := by
  unfold finishParse; simp only []; split <;> rfl

@[simp] theorem finishParse_io (s : State) : (finishParse s).io = s.io := by
  unfold finishParse; simp only []; split <;> rfl

@[simp] theorem finishParse_cmds (s : State) : (finishParse s).cmds = s.cmds := by
  unfold finishParse; simp only []; split <;> rfl

@[simp] theorem finishParse_rstEdges (s : State) : (finishParse s).rstEdges = s.rstEdges := by
  unfold finishParse; simp only []; split <;> rfl

@[simp] theorem finishParse_sq_cmd (s : State) : (finishParse s).sq.cmd = s.sq.cmd := by
  unfold finishParse; simp only []; split <;> rfl

@[simp] theorem finishParse_sq_pidx (s : State) : (finishParse s).sq.pidx = s.sq.pidx := by
  unfold finishParse; simp only []; split <;> rfl

@[simp] theorem finishParse_sq_hold (s : State) : (finishParse s).sq.hold = s.sq.hold := by
  unfold finishParse; simp only []; split <;> rfl

@[simp] theorem finishParse_res_fmt (s : State) : (finishParse s).res.fmt = s.res.fmt := by
  unfold finishParse; simp only []; split <;> rfl

@[simp] theorem finishParse_res_field (s : State) : (finishParse s).res.field = s.res.field := by
  unfold finishParse; simp only []; split <;> rfl

@[simp] theorem finishParse_res_ext (s : State) : (finishParse s).res.ext = s.res.ext := by
  unfold finishParse; simp only []; split <;> rfl

@[simp] theorem finishParse_res_cnt (s : State) : (finishParse s).res.cnt = s.res.cnt := by
  unfold finishParse; simp only []; split <;> rfl

@[simp] theorem finishParse_res_errinfo (s : State) : (finishParse s).res.errinfo = s.res.errinfo := by
  unfold finishParse; simp only []; split <;> rfl

@[simp] theorem finishParse_res_fin (s : State) : (finishParse s).res.fin = s.res.fin := by
  unfold finishParse; simp only []; split <;> rfl

@[simp] theorem finishParse_res_rsv1 (s : State) : (finishParse s).res.rsv1 = s.res.rsv1 := by
  unfold finishParse; simp only []; split <;> rfl

@[simp] theorem finishParse_res_rsv2 (s : State) : (finishParse s).res.rsv2 = s.res.rsv2 := by
  unfold finishParse; simp only []; split <;> rfl

@[simp] theorem finishParse_res_rsv3 (s : State) : (finishParse s).res.rsv3 = s.res.rsv3 := by
  unfold finishParse; simp only []; split <;> rfl

@[simp] theorem finishParse_res_opc (s : State) : (finishParse s).res.opc = s.res.opc := by
  unfold finishParse; simp only []; split <;> rfl

@[simp] theorem finishParse_res_cls (s : State) : (finishParse s).res.cls = s.res.cls := by
  unfold finishParse; simp only []; split <;> rfl

@[simp] theorem finishParse_res_kind (s : State) : (finishParse s).res.kind = s.res.kind := by
  unfold finishParse; simp only []; split <;> rfl

@[simp] theorem finishParse_res_masked (s : State) : (finishParse s).res.masked = s.res.masked := by
  unfold finishParse; simp only []; split <;> rfl

@[simp] theorem finishParse_res_len (s : State) : (finishParse s).res.len = s.res.len := by
  unfold finishParse; simp only []; split <;> rfl

@[simp] theorem finishParse_sq_pos (s : State) : (finishParse s).sq.pos = s.sq.pos := by
  unfold finishParse; simp only []; split <;> rfl

@[simp] theorem finishParse_sq_rem (s : State) : (finishParse s).sq.rem = s.sq.rem := by
  unfold finishParse; simp only []; split <;> rfl

@[simp] theorem finishParse_busy (s : State) : (finishParse s).busy = false := by
  unfold finishParse; simp only []; split <;> rfl

@[simp] theorem finishParse_sq_seq (s : State) : (finishParse s).sq.seq = .idle := by
  unfold finishParse; simp only []; split <;> rfl

@[simp] theorem finishParse_res_status (s : State) : (finishParse s).res.status = .ok := by
  unfold finishParse; simp only []; split <;> rfl

@[simp] theorem finishParse_res_overcap (s : State) :
    (finishParse s).res.overcap = overcapFlag s.params.maxDeclaredLen s.res.len := by
  unfold finishParse; simp only []; split <;> rfl

theorem finishParse_res_key (s : State) (h : s.res.masked = true) : (finishParse s).res.key = s.res.key := by
  unfold finishParse; simp [h]

/-! ## afterLength -/

@[simp] theorem afterLength_params (s : State) : (afterLength s).params = s.params := by
  unfold afterLength; split <;> simp

@[simp] theorem afterLength_fr (s : State) : (afterLength s).fr = s.fr := by
  unfold afterLength; split <;> simp

@[simp] theorem afterLength_pbuf (s : State) : (afterLength s).pbuf = s.pbuf := by
  unfold afterLength; split <;> simp

@[simp] theorem afterLength_io (s : State) : (afterLength s).io = s.io := by
  unfold afterLength; split <;> simp

@[simp] theorem afterLength_cmds (s : State) : (afterLength s).cmds = s.cmds := by
  unfold afterLength; split <;> simp

@[simp] theorem afterLength_rstEdges (s : State) : (afterLength s).rstEdges = s.rstEdges := by
  unfold afterLength; split <;> simp

@[simp] theorem afterLength_sq_cmd (s : State) : (afterLength s).sq.cmd = s.sq.cmd := by
  unfold afterLength; split <;> simp

@[simp] theorem afterLength_sq_pidx (s : State) : (afterLength s).sq.pidx = s.sq.pidx := by
  unfold afterLength; split <;> simp

@[simp] theorem afterLength_sq_hold (s : State) : (afterLength s).sq.hold = s.sq.hold := by
  unfold afterLength; split <;> simp

@[simp] theorem afterLength_res_fmt (s : State) : (afterLength s).res.fmt = s.res.fmt := by
  unfold afterLength; split <;> simp

@[simp] theorem afterLength_res_field (s : State) : (afterLength s).res.field = s.res.field := by
  unfold afterLength; split <;> simp

@[simp] theorem afterLength_res_ext (s : State) : (afterLength s).res.ext = s.res.ext := by
  unfold afterLength; split <;> simp

@[simp] theorem afterLength_res_cnt (s : State) : (afterLength s).res.cnt = s.res.cnt := by
  unfold afterLength; split <;> simp

@[simp] theorem afterLength_res_errinfo (s : State) : (afterLength s).res.errinfo = s.res.errinfo := by
  unfold afterLength; split <;> simp

@[simp] theorem afterLength_res_fin (s : State) : (afterLength s).res.fin = s.res.fin := by
  unfold afterLength; split <;> simp

@[simp] theorem afterLength_res_rsv1 (s : State) : (afterLength s).res.rsv1 = s.res.rsv1 := by
  unfold afterLength; split <;> simp

@[simp] theorem afterLength_res_rsv2 (s : State) : (afterLength s).res.rsv2 = s.res.rsv2 := by
  unfold afterLength; split <;> simp

@[simp] theorem afterLength_res_rsv3 (s : State) : (afterLength s).res.rsv3 = s.res.rsv3 := by
  unfold afterLength; split <;> simp

@[simp] theorem afterLength_res_opc (s : State) : (afterLength s).res.opc = s.res.opc := by
  unfold afterLength; split <;> simp

@[simp] theorem afterLength_res_cls (s : State) : (afterLength s).res.cls = s.res.cls := by
  unfold afterLength; split <;> simp

@[simp] theorem afterLength_res_kind (s : State) : (afterLength s).res.kind = s.res.kind := by
  unfold afterLength; split <;> simp

@[simp] theorem afterLength_res_masked (s : State) : (afterLength s).res.masked = s.res.masked := by
  unfold afterLength; split <;> simp

@[simp] theorem afterLength_res_len (s : State) : (afterLength s).res.len = s.res.len := by
  unfold afterLength; split <;> simp

@[simp] theorem afterLength_sq_pos (s : State) : (afterLength s).sq.pos = s.sq.pos := by
  unfold afterLength; split <;> simp

/-! ## takeFixedByte1 -/

@[simp] theorem takeFixedByte1_params (b : Byte) (s : State) : (takeFixedByte1 b s).params = s.params := by
  unfold takeFixedByte1; simp only []; split <;> simp

@[simp] theorem takeFixedByte1_fr (b : Byte) (s : State) : (takeFixedByte1 b s).fr = s.fr := by
  unfold takeFixedByte1; simp only []; split <;> simp

@[simp] theorem takeFixedByte1_pbuf (b : Byte) (s : State) : (takeFixedByte1 b s).pbuf = s.pbuf := by
  unfold takeFixedByte1; simp only []; split <;> simp

@[simp] theorem takeFixedByte1_io (b : Byte) (s : State) : (takeFixedByte1 b s).io = s.io := by
  unfold takeFixedByte1; simp only []; split <;> simp

@[simp] theorem takeFixedByte1_cmds (b : Byte) (s : State) : (takeFixedByte1 b s).cmds = s.cmds := by
  unfold takeFixedByte1; simp only []; split <;> simp

@[simp] theorem takeFixedByte1_rstEdges (b : Byte) (s : State) : (takeFixedByte1 b s).rstEdges = s.rstEdges := by
  unfold takeFixedByte1; simp only []; split <;> simp

@[simp] theorem takeFixedByte1_sq_cmd (b : Byte) (s : State) : (takeFixedByte1 b s).sq.cmd = s.sq.cmd := by
  unfold takeFixedByte1; simp only []; split <;> simp

@[simp] theorem takeFixedByte1_sq_pidx (b : Byte) (s : State) : (takeFixedByte1 b s).sq.pidx = s.sq.pidx := by
  unfold takeFixedByte1; simp only []; split <;> simp

@[simp] theorem takeFixedByte1_sq_hold (b : Byte) (s : State) : (takeFixedByte1 b s).sq.hold = s.sq.hold := by
  unfold takeFixedByte1; simp only []; split <;> simp

@[simp] theorem takeFixedByte1_res_fmt (b : Byte) (s : State) : (takeFixedByte1 b s).res.fmt = s.res.fmt := by
  unfold takeFixedByte1; simp only []; split <;> simp

@[simp] theorem takeFixedByte1_res_field (b : Byte) (s : State) : (takeFixedByte1 b s).res.field = s.res.field := by
  unfold takeFixedByte1; simp only []; split <;> simp

@[simp] theorem takeFixedByte1_res_ext (b : Byte) (s : State) : (takeFixedByte1 b s).res.ext = s.res.ext := by
  unfold takeFixedByte1; simp only []; split <;> simp

@[simp] theorem takeFixedByte1_res_cnt (b : Byte) (s : State) : (takeFixedByte1 b s).res.cnt = s.res.cnt := by
  unfold takeFixedByte1; simp only []; split <;> simp

@[simp] theorem takeFixedByte1_res_errinfo (b : Byte) (s : State) : (takeFixedByte1 b s).res.errinfo = s.res.errinfo := by
  unfold takeFixedByte1; simp only []; split <;> simp

@[simp] theorem takeFixedByte1_res_fin (b : Byte) (s : State) : (takeFixedByte1 b s).res.fin = s.res.fin := by
  unfold takeFixedByte1; simp only []; split <;> simp

@[simp] theorem takeFixedByte1_res_rsv1 (b : Byte) (s : State) : (takeFixedByte1 b s).res.rsv1 = s.res.rsv1 := by
  unfold takeFixedByte1; simp only []; split <;> simp

@[simp] theorem takeFixedByte1_res_rsv2 (b : Byte) (s : State) : (takeFixedByte1 b s).res.rsv2 = s.res.rsv2 := by
  unfold takeFixedByte1; simp only []; split <;> simp

@[simp] theorem takeFixedByte1_res_rsv3 (b : Byte) (s : State) : (takeFixedByte1 b s).res.rsv3 = s.res.rsv3 := by
  unfold takeFixedByte1; simp only []; split <;> simp

@[simp] theorem takeFixedByte1_res_opc (b : Byte) (s : State) : (takeFixedByte1 b s).res.opc = s.res.opc := by
  unfold takeFixedByte1; simp only []; split <;> simp

@[simp] theorem takeFixedByte1_res_cls (b : Byte) (s : State) : (takeFixedByte1 b s).res.cls = s.res.cls := by
  unfold takeFixedByte1; simp only []; split <;> simp

@[simp] theorem takeFixedByte1_res_kind (b : Byte) (s : State) : (takeFixedByte1 b s).res.kind = s.res.kind := by
  unfold takeFixedByte1; simp only []; split <;> simp

/-! ## takeExtByte -/

@[simp] theorem takeExtByte_params (b : Byte) (s : State) : (takeExtByte b s).params = s.params := by
  unfold takeExtByte; simp only []; split <;> simp

@[simp] theorem takeExtByte_fr (b : Byte) (s : State) : (takeExtByte b s).fr = s.fr := by
  unfold takeExtByte; simp only []; split <;> simp

@[simp] theorem takeExtByte_pbuf (b : Byte) (s : State) : (takeExtByte b s).pbuf = s.pbuf := by
  unfold takeExtByte; simp only []; split <;> simp

@[simp] theorem takeExtByte_io (b : Byte) (s : State) : (takeExtByte b s).io = s.io := by
  unfold takeExtByte; simp only []; split <;> simp

@[simp] theorem takeExtByte_cmds (b : Byte) (s : State) : (takeExtByte b s).cmds = s.cmds := by
  unfold takeExtByte; simp only []; split <;> simp

@[simp] theorem takeExtByte_rstEdges (b : Byte) (s : State) : (takeExtByte b s).rstEdges = s.rstEdges := by
  unfold takeExtByte; simp only []; split <;> simp

@[simp] theorem takeExtByte_sq_cmd (b : Byte) (s : State) : (takeExtByte b s).sq.cmd = s.sq.cmd := by
  unfold takeExtByte; simp only []; split <;> simp

@[simp] theorem takeExtByte_sq_pidx (b : Byte) (s : State) : (takeExtByte b s).sq.pidx = s.sq.pidx := by
  unfold takeExtByte; simp only []; split <;> simp

@[simp] theorem takeExtByte_sq_hold (b : Byte) (s : State) : (takeExtByte b s).sq.hold = s.sq.hold := by
  unfold takeExtByte; simp only []; split <;> simp

@[simp] theorem takeExtByte_res_fmt (b : Byte) (s : State) : (takeExtByte b s).res.fmt = s.res.fmt := by
  unfold takeExtByte; simp only []; split <;> simp

@[simp] theorem takeExtByte_res_field (b : Byte) (s : State) : (takeExtByte b s).res.field = s.res.field := by
  unfold takeExtByte; simp only []; split <;> simp

@[simp] theorem takeExtByte_res_ext (b : Byte) (s : State) : (takeExtByte b s).res.ext = s.res.ext := by
  unfold takeExtByte; simp only []; split <;> simp

@[simp] theorem takeExtByte_res_cnt (b : Byte) (s : State) : (takeExtByte b s).res.cnt = s.res.cnt := by
  unfold takeExtByte; simp only []; split <;> simp

@[simp] theorem takeExtByte_res_errinfo (b : Byte) (s : State) : (takeExtByte b s).res.errinfo = s.res.errinfo := by
  unfold takeExtByte; simp only []; split <;> simp

@[simp] theorem takeExtByte_res_fin (b : Byte) (s : State) : (takeExtByte b s).res.fin = s.res.fin := by
  unfold takeExtByte; simp only []; split <;> simp

@[simp] theorem takeExtByte_res_rsv1 (b : Byte) (s : State) : (takeExtByte b s).res.rsv1 = s.res.rsv1 := by
  unfold takeExtByte; simp only []; split <;> simp

@[simp] theorem takeExtByte_res_rsv2 (b : Byte) (s : State) : (takeExtByte b s).res.rsv2 = s.res.rsv2 := by
  unfold takeExtByte; simp only []; split <;> simp

@[simp] theorem takeExtByte_res_rsv3 (b : Byte) (s : State) : (takeExtByte b s).res.rsv3 = s.res.rsv3 := by
  unfold takeExtByte; simp only []; split <;> simp

@[simp] theorem takeExtByte_res_opc (b : Byte) (s : State) : (takeExtByte b s).res.opc = s.res.opc := by
  unfold takeExtByte; simp only []; split <;> simp

@[simp] theorem takeExtByte_res_cls (b : Byte) (s : State) : (takeExtByte b s).res.cls = s.res.cls := by
  unfold takeExtByte; simp only []; split <;> simp

@[simp] theorem takeExtByte_res_kind (b : Byte) (s : State) : (takeExtByte b s).res.kind = s.res.kind := by
  unfold takeExtByte; simp only []; split <;> simp

@[simp] theorem takeExtByte_res_masked (b : Byte) (s : State) : (takeExtByte b s).res.masked = s.res.masked := by
  unfold takeExtByte; simp only []; split <;> simp

/-! ## takeKeyByte -/

@[simp] theorem takeKeyByte_params (b : Byte) (s : State) : (takeKeyByte b s).params = s.params := by
  unfold takeKeyByte; simp only []; split <;> simp

@[simp] theorem takeKeyByte_fr (b : Byte) (s : State) : (takeKeyByte b s).fr = s.fr := by
  unfold takeKeyByte; simp only []; split <;> simp

@[simp] theorem takeKeyByte_pbuf (b : Byte) (s : State) : (takeKeyByte b s).pbuf = s.pbuf := by
  unfold takeKeyByte; simp only []; split <;> simp

@[simp] theorem takeKeyByte_io (b : Byte) (s : State) : (takeKeyByte b s).io = s.io := by
  unfold takeKeyByte; simp only []; split <;> simp

@[simp] theorem takeKeyByte_cmds (b : Byte) (s : State) : (takeKeyByte b s).cmds = s.cmds := by
  unfold takeKeyByte; simp only []; split <;> simp

@[simp] theorem takeKeyByte_rstEdges (b : Byte) (s : State) : (takeKeyByte b s).rstEdges = s.rstEdges := by
  unfold takeKeyByte; simp only []; split <;> simp

@[simp] theorem takeKeyByte_sq_cmd (b : Byte) (s : State) : (takeKeyByte b s).sq.cmd = s.sq.cmd := by
  unfold takeKeyByte; simp only []; split <;> simp

@[simp] theorem takeKeyByte_sq_pidx (b : Byte) (s : State) : (takeKeyByte b s).sq.pidx = s.sq.pidx := by
  unfold takeKeyByte; simp only []; split <;> simp

@[simp] theorem takeKeyByte_sq_hold (b : Byte) (s : State) : (takeKeyByte b s).sq.hold = s.sq.hold := by
  unfold takeKeyByte; simp only []; split <;> simp

@[simp] theorem takeKeyByte_res_fmt (b : Byte) (s : State) : (takeKeyByte b s).res.fmt = s.res.fmt := by
  unfold takeKeyByte; simp only []; split <;> simp

@[simp] theorem takeKeyByte_res_field (b : Byte) (s : State) : (takeKeyByte b s).res.field = s.res.field := by
  unfold takeKeyByte; simp only []; split <;> simp

@[simp] theorem takeKeyByte_res_ext (b : Byte) (s : State) : (takeKeyByte b s).res.ext = s.res.ext := by
  unfold takeKeyByte; simp only []; split <;> simp

@[simp] theorem takeKeyByte_res_cnt (b : Byte) (s : State) : (takeKeyByte b s).res.cnt = s.res.cnt := by
  unfold takeKeyByte; simp only []; split <;> simp

@[simp] theorem takeKeyByte_res_errinfo (b : Byte) (s : State) : (takeKeyByte b s).res.errinfo = s.res.errinfo := by
  unfold takeKeyByte; simp only []; split <;> simp

@[simp] theorem takeKeyByte_res_fin (b : Byte) (s : State) : (takeKeyByte b s).res.fin = s.res.fin := by
  unfold takeKeyByte; simp only []; split <;> simp

@[simp] theorem takeKeyByte_res_rsv1 (b : Byte) (s : State) : (takeKeyByte b s).res.rsv1 = s.res.rsv1 := by
  unfold takeKeyByte; simp only []; split <;> simp

@[simp] theorem takeKeyByte_res_rsv2 (b : Byte) (s : State) : (takeKeyByte b s).res.rsv2 = s.res.rsv2 := by
  unfold takeKeyByte; simp only []; split <;> simp

@[simp] theorem takeKeyByte_res_rsv3 (b : Byte) (s : State) : (takeKeyByte b s).res.rsv3 = s.res.rsv3 := by
  unfold takeKeyByte; simp only []; split <;> simp

@[simp] theorem takeKeyByte_res_opc (b : Byte) (s : State) : (takeKeyByte b s).res.opc = s.res.opc := by
  unfold takeKeyByte; simp only []; split <;> simp

@[simp] theorem takeKeyByte_res_cls (b : Byte) (s : State) : (takeKeyByte b s).res.cls = s.res.cls := by
  unfold takeKeyByte; simp only []; split <;> simp

@[simp] theorem takeKeyByte_res_kind (b : Byte) (s : State) : (takeKeyByte b s).res.kind = s.res.kind := by
  unfold takeKeyByte; simp only []; split <;> simp

@[simp] theorem takeKeyByte_res_masked (b : Byte) (s : State) : (takeKeyByte b s).res.masked = s.res.masked := by
  unfold takeKeyByte; simp only []; split <;> simp

@[simp] theorem takeKeyByte_res_len (b : Byte) (s : State) : (takeKeyByte b s).res.len = s.res.len := by
  unfold takeKeyByte; simp only []; split <;> simp

/-! ## parseByte -/

@[simp] theorem parseByte_params (b : Byte) (s : State) : (parseByte b s).params = s.params := by
  unfold parseByte; split <;> simp

@[simp] theorem parseByte_fr (b : Byte) (s : State) : (parseByte b s).fr = s.fr := by
  unfold parseByte; split <;> simp

@[simp] theorem parseByte_pbuf (b : Byte) (s : State) : (parseByte b s).pbuf = s.pbuf := by
  unfold parseByte; split <;> simp

@[simp] theorem parseByte_io (b : Byte) (s : State) : (parseByte b s).io = s.io := by
  unfold parseByte; split <;> simp

@[simp] theorem parseByte_cmds (b : Byte) (s : State) : (parseByte b s).cmds = s.cmds := by
  unfold parseByte; split <;> simp

@[simp] theorem parseByte_rstEdges (b : Byte) (s : State) : (parseByte b s).rstEdges = s.rstEdges := by
  unfold parseByte; split <;> simp

@[simp] theorem parseByte_sq_cmd (b : Byte) (s : State) : (parseByte b s).sq.cmd = s.sq.cmd := by
  unfold parseByte; split <;> simp

@[simp] theorem parseByte_sq_pidx (b : Byte) (s : State) : (parseByte b s).sq.pidx = s.sq.pidx := by
  unfold parseByte; split <;> simp

@[simp] theorem parseByte_sq_hold (b : Byte) (s : State) : (parseByte b s).sq.hold = s.sq.hold := by
  unfold parseByte; split <;> simp

@[simp] theorem parseByte_res_fmt (b : Byte) (s : State) : (parseByte b s).res.fmt = s.res.fmt := by
  unfold parseByte; split <;> simp

@[simp] theorem parseByte_res_field (b : Byte) (s : State) : (parseByte b s).res.field = s.res.field := by
  unfold parseByte; split <;> simp

@[simp] theorem parseByte_res_ext (b : Byte) (s : State) : (parseByte b s).res.ext = s.res.ext := by
  unfold parseByte; split <;> simp

@[simp] theorem parseByte_res_cnt (b : Byte) (s : State) : (parseByte b s).res.cnt = s.res.cnt := by
  unfold parseByte; split <;> simp

@[simp] theorem parseByte_res_errinfo (b : Byte) (s : State) : (parseByte b s).res.errinfo = s.res.errinfo := by
  unfold parseByte; split <;> simp

/-! ## headerDone -/

@[simp] theorem headerDone_params (s : State) : (headerDone s).params = s.params := by
  unfold headerDone; split <;> (try split) <;> rfl

@[simp] theorem headerDone_cmds (s : State) : (headerDone s).cmds = s.cmds := by
  unfold headerDone; split <;> (try split) <;> rfl

@[simp] theorem headerDone_rstEdges (s : State) : (headerDone s).rstEdges = s.rstEdges := by
  unfold headerDone; split <;> (try split) <;> rfl

@[simp] theorem headerDone_io (s : State) : (headerDone s).io = s.io := by
  unfold headerDone; split <;> (try split) <;> rfl

@[simp] theorem headerDone_sq_cmd (s : State) : (headerDone s).sq.cmd = s.sq.cmd := by
  unfold headerDone; split <;> (try split) <;> rfl

@[simp] theorem headerDone_sq_hold (s : State) : (headerDone s).sq.hold = s.sq.hold := by
  unfold headerDone; split <;> (try split) <;> rfl

@[simp] theorem headerDone_sq_rem (s : State) : (headerDone s).sq.rem = s.sq.rem := by
  unfold headerDone; split <;> (try split) <;> rfl

@[simp] theorem headerDone_sq_pos (s : State) : (headerDone s).sq.pos = s.sq.pos := by
  unfold headerDone; split <;> (try split) <;> rfl

@[simp] theorem headerDone_res_errinfo (s : State) : (headerDone s).res.errinfo = s.res.errinfo := by
  unfold headerDone; split <;> (try split) <;> rfl

/-! ## headerAcked -/

@[simp] theorem headerAcked_params (s : State) : (headerAcked s).params = s.params := by
  unfold headerAcked; simp only []; split <;> simp

@[simp] theorem headerAcked_cmds (s : State) : (headerAcked s).cmds = s.cmds := by
  unfold headerAcked; simp only []; split <;> simp

@[simp] theorem headerAcked_rstEdges (s : State) : (headerAcked s).rstEdges = s.rstEdges := by
  unfold headerAcked; simp only []; split <;> simp

@[simp] theorem headerAcked_io (s : State) : (headerAcked s).io = s.io := by
  unfold headerAcked; simp only []; split <;> simp

@[simp] theorem headerAcked_sq_cmd (s : State) : (headerAcked s).sq.cmd = s.sq.cmd := by
  unfold headerAcked; simp only []; split <;> simp

@[simp] theorem headerAcked_sq_hold (s : State) : (headerAcked s).sq.hold = s.sq.hold := by
  unfold headerAcked; simp only []; split <;> simp

@[simp] theorem headerAcked_sq_rem (s : State) : (headerAcked s).sq.rem = s.sq.rem := by
  unfold headerAcked; simp only []; split <;> simp

@[simp] theorem headerAcked_res_errinfo (s : State) : (headerAcked s).res.errinfo = s.res.errinfo := by
  unfold headerAcked; simp only []; split <;> simp

/-! ## payloadAcked -/

@[simp] theorem payloadAcked_params (s : State) : (payloadAcked s).params = s.params := by
  unfold payloadAcked; simp only []; split <;> simp

@[simp] theorem payloadAcked_cmds (s : State) : (payloadAcked s).cmds = s.cmds := by
  unfold payloadAcked; simp only []; split <;> simp

@[simp] theorem payloadAcked_rstEdges (s : State) : (payloadAcked s).rstEdges = s.rstEdges := by
  unfold payloadAcked; simp only []; split <;> simp

@[simp] theorem payloadAcked_io (s : State) : (payloadAcked s).io = s.io := by
  unfold payloadAcked; simp only []; split <;> simp

@[simp] theorem payloadAcked_sq_cmd (s : State) : (payloadAcked s).sq.cmd = s.sq.cmd := by
  unfold payloadAcked; simp only []; split <;> simp

@[simp] theorem payloadAcked_sq_hold (s : State) : (payloadAcked s).sq.hold = s.sq.hold := by
  unfold payloadAcked; simp only []; split <;> simp

@[simp] theorem payloadAcked_sq_rem (s : State) : (payloadAcked s).sq.rem = s.sq.rem := by
  unfold payloadAcked; simp only []; split <;> simp

@[simp] theorem payloadAcked_sq_pos (s : State) : (payloadAcked s).sq.pos = s.sq.pos := by
  unfold payloadAcked; simp only []; split <;> simp

@[simp] theorem payloadAcked_res_errinfo (s : State) : (payloadAcked s).res.errinfo = s.res.errinfo := by
  unfold payloadAcked; simp only []; split <;> simp

/-! ## sendFailed -/

@[simp] theorem sendFailed_params (e : Byte) (s : State) : (sendFailed e s).params = s.params := by
  unfold sendFailed; split <;> rfl

@[simp] theorem sendFailed_cmds (e : Byte) (s : State) : (sendFailed e s).cmds = s.cmds := by
  unfold sendFailed; split <;> rfl

@[simp] theorem sendFailed_rstEdges (e : Byte) (s : State) : (sendFailed e s).rstEdges = s.rstEdges := by
  unfold sendFailed; split <;> rfl

@[simp] theorem sendFailed_io (e : Byte) (s : State) : (sendFailed e s).io = s.io := by
  unfold sendFailed; split <;> rfl

@[simp] theorem sendFailed_sq_cmd (e : Byte) (s : State) : (sendFailed e s).sq.cmd = s.sq.cmd := by
  unfold sendFailed; split <;> rfl

@[simp] theorem sendFailed_sq_hold (e : Byte) (s : State) : (sendFailed e s).sq.hold = s.sq.hold := by
  unfold sendFailed; split <;> rfl

@[simp] theorem sendFailed_sq_rem (e : Byte) (s : State) : (sendFailed e s).sq.rem = s.sq.rem := by
  unfold sendFailed; split <;> rfl

@[simp] theorem sendFailed_sq_pos (e : Byte) (s : State) : (sendFailed e s).sq.pos = s.sq.pos := by
  unfold sendFailed; split <;> rfl

@[simp] theorem sendFailed_sq_pidx (e : Byte) (s : State) : (sendFailed e s).sq.pidx = s.sq.pidx := by
  unfold sendFailed; split <;> rfl

@[simp] theorem sendFailed_busy (e : Byte) (s : State) : (sendFailed e s).busy = false := rfl

@[simp] theorem sendFailed_sq_seq (e : Byte) (s : State) : (sendFailed e s).sq.seq = .idle := rfl

@[simp] theorem sendFailed_res_status (e : Byte) (s : State) : (sendFailed e s).res.status = .errIoWr := rfl

@[simp] theorem sendFailed_res_errinfo (e : Byte) (s : State) : (sendFailed e s).res.errinfo = e := rfl

/-! ## frameLoaded -/

@[simp] theorem frameLoaded_params (s : State) : (frameLoaded s).params = s.params := rfl

@[simp] theorem frameLoaded_pbuf (s : State) : (frameLoaded s).pbuf = s.pbuf := rfl

@[simp] theorem frameLoaded_io (s : State) : (frameLoaded s).io = s.io := rfl

@[simp] theorem frameLoaded_cmds (s : State) : (frameLoaded s).cmds = s.cmds := rfl

@[simp] theorem frameLoaded_rstEdges (s : State) : (frameLoaded s).rstEdges = s.rstEdges := rfl

@[simp] theorem frameLoaded_sq_cmd (s : State) : (frameLoaded s).sq.cmd = s.sq.cmd := rfl

@[simp] theorem frameLoaded_sq_hold (s : State) : (frameLoaded s).sq.hold = s.sq.hold := rfl

@[simp] theorem frameLoaded_sq_rem (s : State) : (frameLoaded s).sq.rem = s.sq.rem := rfl

@[simp] theorem frameLoaded_sq_pos (s : State) : (frameLoaded s).sq.pos = s.sq.pos := rfl

@[simp] theorem frameLoaded_sq_pidx (s : State) : (frameLoaded s).sq.pidx = s.sq.pidx := rfl

@[simp] theorem frameLoaded_res_errinfo (s : State) : (frameLoaded s).res.errinfo = s.res.errinfo := rfl

@[simp] theorem frameLoaded_busy (s : State) : (frameLoaded s).busy = false := rfl

@[simp] theorem frameLoaded_sq_seq (s : State) : (frameLoaded s).sq.seq = .idle := rfl

@[simp] theorem frameLoaded_res_status (s : State) : (frameLoaded s).res.status = .ok := rfl

@[simp] theorem frameLoaded_fr_valid (s : State) : (frameLoaded s).fr.valid = true := rfl

@[simp] theorem frameLoaded_fr_fin (s : State) : (frameLoaded s).fr.fin = true := rfl

@[simp] theorem frameLoaded_fr_rsv1 (s : State) : (frameLoaded s).fr.rsv1 = false := rfl

@[simp] theorem frameLoaded_fr_rsv2 (s : State) : (frameLoaded s).fr.rsv2 = false := rfl

@[simp] theorem frameLoaded_fr_rsv3 (s : State) : (frameLoaded s).fr.rsv3 = false := rfl

@[simp] theorem frameLoaded_fr_opc (s : State) : (frameLoaded s).fr.opc = cmdOpc s.sq.cmd := rfl

@[simp] theorem frameLoaded_fr_masked (s : State) : (frameLoaded s).fr.masked = false := rfl

@[simp] theorem frameLoaded_fr_plen (s : State) : (frameLoaded s).fr.plen = cmdLen s.sq.cmd := rfl

end Sys2Proof.Machine
end

