-- ==== Sys2Proof/Laws/Run.lean ====
section
/-! SUPPORT. Everything one byte step can do, case by case, and running byte steps until the operation ends or waits: the
one induction later proofs need. -/

namespace Sys2Proof.Machine

/-! ## One byte step, inverted -/

/-- A HDR_PARSE step takes a byte, or ends on EOS or ERR. -/
theorem parseStep_moved {s t : State} (h : parseStep s = .moved t) :
    (∃ b rest, s.io.rx = b :: rest ∧ t = parseByte b { s with io := { s.io with rx := rest } }) ∨
    (s.io.rx = [] ∧ s.io.rxEnd = some .eos ∧ t = raise (eosOutcome s.sq.seq) none (forgetHeader s)) ∨
    (∃ e, s.io.rx = [] ∧ s.io.rxEnd = some (.err e) ∧ t = raise .errIoRd (some e) (forgetHeader s)) := by
  unfold parseStep at h
  split at h
  · next b rest hrx => cases h; exact .inl ⟨b, rest, hrx, rfl⟩
  · next hrx =>
    split at h
    · cases h
    · next he => cases h; exact .inr (.inl ⟨hrx, he, rfl⟩)
    · next e he => cases h; exact .inr (.inr ⟨e, hrx, he, rfl⟩)
    · cases h

theorem parseStep_waits {s : State} : parseStep s = .waits ↔ s.io.rx = [] ∧ s.io.rxEnd = none := by
  unfold parseStep
  split
  · next hrx => simp [hrx]
  · next hrx => split <;> simp_all

theorem parseStep_stuck {s : State} {f : Fault} (h : parseStep s = .stuck f) : s.io.rxEnd = some .kind3 := by
  unfold parseStep at h
  split at h
  · cases h
  · split at h <;> cases h
    assumption

/-- A TX push is acknowledged or fails. -/
theorem txPush_moved {b : Byte} {acked : State → State} {s t : State} (h : txPush b acked s = .moved t) :
    (∃ rest, s.io.txAnswers = .ack :: rest ∧
      t = acked { s with io := { s.io with tx := s.io.tx ++ [b], txAnswers := rest } }) ∨
    (∃ e rest, s.io.txAnswers = .fail e :: rest ∧
      t = sendFailed e { s with io := { s.io with txAnswers := rest } }) := by
  unfold txPush at h
  split at h
  · cases h
  · next rest ha => cases h; exact .inl ⟨rest, ha, rfl⟩
  · next e rest ha => cases h; exact .inr ⟨e, rest, ha, rfl⟩
  · cases h

theorem txPush_waits {b : Byte} {acked : State → State} {s : State} :
    txPush b acked s = .waits ↔ s.io.txAnswers = [] := by
  unfold txPush
  split <;> simp_all

theorem txPush_stuck {b : Byte} {acked : State → State} {s : State} {f : Fault} (h : txPush b acked s = .stuck f) :
    TxAnswer.both ∈ s.io.txAnswers := by
  unfold txPush at h
  split at h
  · cases h
  · cases h
  · cases h
  · next ha => simp [ha]

/-- A header step offers `B[POS]`. -/
theorem headerStep_moved {s t : State} (h : headerStep s = .moved t) :
    ∃ b, (headerBytes s)[s.sq.pos.toNat]? = some b ∧ txPush b headerAcked s = .moved t := by
  unfold headerStep at h
  split at h
  · next b hb => exact ⟨b, hb, h⟩
  · cases h

/-- A payload step offers `PBUF[PIDX]`, masked as it leaves. -/
theorem payloadStep_moved {s t : State} (h : payloadStep s = .moved t) :
    pbufHas s s.sq.pidx.toNat = true ∧ txPush (payloadByte s) payloadAcked s = .moved t := by
  unfold payloadStep at h
  split at h
  · exact ⟨‹_›, h⟩
  · cases h

/-- A masker step pulls a byte, or pushes the masked one. -/
theorem maskStep_moved {s t : State} (h : maskStep s = .moved t) :
    (∃ b rest, s.sq.hold = none ∧ s.io.pin = b :: rest ∧
      t = { s with io := { s.io with pin := rest }, sq := { s.sq with hold := some b } }) ∨
    (∃ b n u, s.sq.hold = some b ∧ s.io.poutReady = n + 1 ∧
      u = { s with
        io := { s.io with
          pout := s.io.pout ++ [b ^^^ keyByte (cmdKey s.sq.cmd) s.sq.pidx.toNat], poutReady := n }
        sq := { s.sq with hold := none, pidx := s.sq.pidx + 1 } } ∧
      t = if s.sq.pidx + 1 = cmdLen s.sq.cmd then finishOk u else u) := by
  unfold maskStep at h
  split at h
  · next hh =>
    split at h
    · cases h
    · next b rest hp => cases h; exact .inl ⟨b, rest, hh, hp, rfl⟩
  · next b hh =>
    split at h
    · cases h
    · next n hn => cases h; exact .inr ⟨b, n, _, hh, hn, rfl, rfl⟩

theorem maskStep_waits {s : State} :
    maskStep s = .waits ↔ (s.sq.hold = none ∧ s.io.pin = []) ∨ (s.sq.hold.isSome = true ∧ s.io.poutReady = 0) := by
  unfold maskStep
  split <;> split <;> simp_all

theorem maskStep_ne_stuck {s : State} {f : Fault} : maskStep s ≠ .stuck f := by
  unfold maskStep
  split <;> split <;> simp

/-- A load step stores a PIN byte at `PBUF[PIDX]`. -/
theorem loadStep_moved {s t : State} (h : loadStep s = .moved t) :
    pbufHas s s.sq.pidx.toNat = true ∧ ∃ b rest u, s.io.pin = b :: rest ∧
      u = { s with
        io := { s.io with pin := rest }
        pbuf := s.pbuf.write s.sq.pidx.toNat b
        sq := { s.sq with pidx := s.sq.pidx + 1 } } ∧
      t = if s.sq.pidx + 1 = cmdLen s.sq.cmd then frameLoaded u else u := by
  unfold loadStep at h
  split at h
  · next hb =>
    split at h
    · cases h
    · next b rest hp => cases h; exact ⟨hb, b, rest, _, hp, rfl, rfl⟩
  · cases h

/-- Which phase a byte step is a step of. -/
theorem byteStep_cases (s : State) :
    (s.sq.seq = .idle ∧ byteStep s = .waits) ∨ (parsing s.sq.seq = true ∧ byteStep s = parseStep s) ∨
    (s.sq.seq = .sHdr ∧ byteStep s = headerStep s) ∨ (s.sq.seq = .fPay ∧ byteStep s = payloadStep s) ∨
    (s.sq.seq = .mRun ∧ byteStep s = maskStep s) ∨ (s.sq.seq = .lRun ∧ byteStep s = loadStep s) := by
  unfold byteStep
  cases s.sq.seq <;> simp [parsing]

theorem byteStep_parsing {s : State} (h : parsing s.sq.seq = true) : byteStep s = parseStep s := by
  rcases byteStep_cases s with h' | h' | h' | h' | h' | h' <;> first | exact h'.2 | simp [parsing, h'.1] at h

theorem byteStep_sHdr {s : State} (h : s.sq.seq = .sHdr) : byteStep s = headerStep s := by simp [byteStep, h]

theorem byteStep_fPay {s : State} (h : s.sq.seq = .fPay) : byteStep s = payloadStep s := by simp [byteStep, h]

theorem byteStep_mRun {s : State} (h : s.sq.seq = .mRun) : byteStep s = maskStep s := by simp [byteStep, h]

theorem byteStep_lRun {s : State} (h : s.sq.seq = .lRun) : byteStep s = loadStep s := by simp [byteStep, h]

theorem byteStep_idle {s : State} (h : s.sq.seq = .idle) : byteStep s = .waits := by simp [byteStep, h]

/-! ## Running byte steps -/

theorem budget_parseByte (b : Byte) (s : State) : budget (parseByte b s) = budget s := by
  simp [budget]

/-- Every byte step uses up something the environment has supplied, or ends the operation. -/
theorem byteStep_budget {s t : State} (h : byteStep s = .moved t) : t.sq.seq = .idle ∨ budget t < budget s := by
  rcases byteStep_cases s with h' | h' | h' | h' | h' | h' <;> rw [h'.2] at h
  · cases h
  · rcases parseStep_moved h with ⟨b, rest, hrx, rfl⟩ | ⟨_, _, rfl⟩ | ⟨e, _, _, rfl⟩
    · exact .inr (by simp [budget, hrx])
    · exact .inl rfl
    · exact .inl rfl
  · obtain ⟨b, _, h⟩ := headerStep_moved h
    rcases txPush_moved h with ⟨rest, ha, rfl⟩ | ⟨e, rest, ha, rfl⟩
    · exact .inr (by simp [budget, ha])
    · exact .inl rfl
  · obtain ⟨_, h⟩ := payloadStep_moved h
    rcases txPush_moved h with ⟨rest, ha, rfl⟩ | ⟨e, rest, ha, rfl⟩
    · exact .inr (by simp [budget, ha])
    · exact .inl rfl
  · rcases maskStep_moved h with ⟨b, rest, _, hp, rfl⟩ | ⟨b, n, u, _, hn, rfl, rfl⟩
    · exact .inr (by simp [budget, hp])
    · split
      · exact .inl rfl
      · exact .inr (by simp [budget, hn])
  · obtain ⟨_, b, rest, u, hp, rfl, rfl⟩ := loadStep_moved h
    split
    · exact .inl rfl
    · exact .inr (by simp [budget, hp])

theorem runBytes_idle (n : Nat) {s : State} (h : s.sq.seq = .idle) : runBytes n s = .next s := by
  cases n with
  | zero => rfl
  | succ n => simp [runBytes, byteStep_idle h]

/-- Beyond the budget the bound on byte steps does not matter. -/
theorem runBytes_enough {n m : Nat} {s : State} (hn : budget s ≤ n) (hm : budget s ≤ m) :
    runBytes n s = runBytes m s := by
  induction n generalizing m s with
  | zero => simp [budget] at hn
  | succ n ih =>
    cases m with
    | zero => simp [budget] at hm
    | succ m =>
      simp only [runBytes]
      cases hb : byteStep s with
      | moved t =>
        rcases byteStep_budget hb with hi | hl
        · simp only [runBytes_idle _ hi]
        · exact ih (by omega) (by omega)
      | waits => rfl
      | stuck f => rfl

/-- An operation in progress goes on by one byte step and then as before. -/
theorem proceed_moved {s t : State} (h : byteStep s = .moved t) : proceed s = proceed t := by
  unfold proceed
  obtain ⟨k, hk⟩ : ∃ k, budget s = k + 1 := ⟨_, rfl⟩
  rw [hk]
  simp only [runBytes, h]
  rcases byteStep_budget h with hi | hl
  · simp only [runBytes_idle _ hi]
  · exact runBytes_enough (by omega) (Nat.le_refl _)

theorem proceed_waits {s : State} (h : byteStep s = .waits) : proceed s = .next s := by
  unfold proceed
  obtain ⟨k, hk⟩ : ∃ k, budget s = k + 1 := ⟨_, rfl⟩
  rw [hk]
  simp [runBytes, h]

theorem proceed_stuck {s : State} {f : Fault} (h : byteStep s = .stuck f) : proceed s = .fault f := by
  unfold proceed
  obtain ⟨k, hk⟩ : ∃ k, budget s = k + 1 := ⟨_, rfl⟩
  rw [hk]
  simp [runBytes, h]

theorem proceed_idle {s : State} (h : s.sq.seq = .idle) : proceed s = .next s := proceed_waits (byteStep_idle h)

/-- Induction over the byte steps of an operation in progress. -/
theorem proceed_induction {P : State → Host.Outcome State Fault Refusal → Prop}
    (waits : ∀ s, byteStep s = .waits → P s (.next s)) (stuck : ∀ s f, byteStep s = .stuck f → P s (.fault f))
    (moved : ∀ s t, byteStep s = .moved t → P t (proceed t) → P s (proceed t)) (s : State) : P s (proceed s) := by
  have key : ∀ n s, budget s ≤ n → P s (proceed s) := by
    intro n
    induction n with
    | zero => intro s h; simp [budget] at h
    | succ n ih =>
      intro s h
      cases hb : byteStep s with
      | waits => rw [proceed_waits hb]; exact waits s hb
      | stuck f => rw [proceed_stuck hb]; exact stuck s f hb
      | moved t =>
        rw [proceed_moved hb]
        refine moved s t hb ?_
        rcases byteStep_budget hb with hi | hl
        · rw [proceed_idle hi]; exact waits t (byteStep_idle hi)
        · exact ih t (by omega)
  exact key _ s (Nat.le_refl _)

/-- What every byte step keeps, an operation in progress keeps. -/
theorem proceed_keeps {P : State → Prop} (step : ∀ s t, P s → byteStep s = .moved t → P t) {s t : State} (hs : P s)
    (h : proceed s = .next t) : P t := by
  have := proceed_induction (P := fun s o => P s → ∀ t, o = .next t → P t)
    (fun s _ hs t ht => by cases ht; exact hs) (fun s f _ _ t ht => by cases ht)
    (fun s u hb ih hs t ht => ih (step s u hs hb) t ht) s
  exact this hs t h

/-- An operation that has gone as far as it can waits, or has ended. -/
theorem proceed_quiet {s t : State} (h : proceed s = .next t) : byteStep t = .waits := by
  have := proceed_induction (P := fun _ o => ∀ t, o = .next t → byteStep t = .waits)
    (fun s hs t ht => by cases ht; exact hs) (fun s f _ t ht => by cases ht) (fun s u _ ih t ht => ih t ht) s
  exact this t h

/-- Going on never answers a refusal. -/
theorem proceed_ne_refused {s : State} {r : Refusal} : proceed s ≠ .refused r := by
  have := proceed_induction (P := fun _ o => o ≠ .refused r)
    (fun s _ h => by cases h) (fun s f _ h => by cases h) (fun s u _ ih => ih) s
  exact this

end Sys2Proof.Machine
end

