-- ==== Sys2Proof/Laws/Buffers.lean ====
section
/-! SUPPORT. Runs of the masker and of the loader (R151, R168): many bytes at once, and the last one. -/

namespace Sys2Proof.Machine

theorem pidx_succ {p l : Len} {n : Nat} (h : p.toNat + n < l.toNat) :
    (p + BitVec.ofNat 64 n).toNat = p.toNat + n := by
  have := l.isLt
  rw [BitVec.toNat_add]; simp; omega

theorem pidx_assoc (p : Len) (n : Nat) : p + 1 + BitVec.ofNat 64 n = p + BitVec.ofNat 64 (n + 1) := by
  rw [BitVec.add_assoc]; congr 1
  apply BitVec.eq_of_toNat_eq
  simp [Nat.add_comm]

/-! ## The masker -/

/-- PIN, POUT, the host's readiness and PIDX, moved on, with no byte held. -/
def masking (s : State) (pin pout : List Byte) (ready : Nat) (pidx : Len) : State :=
  { s with
    io := { s.io with pin := pin, pout := pout, poutReady := ready }
    sq := { s.sq with pidx := pidx, hold := none } }

@[simp] theorem masking_seq (s : State) (pin pout : List Byte) (ready : Nat) (pidx : Len) :
    (masking s pin pout ready pidx).sq.seq = s.sq.seq := rfl

theorem masking_self {s : State} (h : s.sq.hold = none) : masking s s.io.pin s.io.pout s.io.poutReady s.sq.pidx = s := by
  obtain ⟨params, busy, res, fr, pbuf, sq, io, cmds, edges, unspec⟩ := s
  cases sq
  simp only at h
  subst h
  rfl

/-- One byte in and its masked value out. -/
theorem proceed_maskByte {s : State} {b : Byte} {rest : List Byte} {n : Nat} (hq : s.sq.seq = .mRun)
    (hh : s.sq.hold = none) (hp : s.io.pin = b :: rest) (hr : s.io.poutReady = n + 1) :
    proceed s = proceed (if s.sq.pidx + 1 = cmdLen s.sq.cmd
      then finishOk (masking s rest (s.io.pout ++ [b ^^^ keyByte (cmdKey s.sq.cmd) s.sq.pidx.toNat]) n (s.sq.pidx + 1))
      else masking s rest (s.io.pout ++ [b ^^^ keyByte (cmdKey s.sq.cmd) s.sq.pidx.toNat]) n (s.sq.pidx + 1)) := by
  have h1 : byteStep s = .moved { s with io := { s.io with pin := rest }, sq := { s.sq with hold := some b } } := by
    rw [byteStep_mRun hq, maskStep, hh]
    simp only [hp]
  rw [proceed_moved h1]
  apply proceed_moved
  rw [byteStep_mRun (by exact hq), maskStep]
  simp only [hr]
  rfl

/-- Bytes masked, and not the last one among them. -/
theorem proceed_maskSome {s : State} {bs rest : List Byte} {room : Nat} (hq : s.sq.seq = .mRun)
    (hh : s.sq.hold = none) (hl : s.sq.pidx.toNat + bs.length < (cmdLen s.sq.cmd).toNat)
    (hp : s.io.pin = bs ++ rest) (hr : s.io.poutReady = bs.length + room) :
    proceed s = proceed (masking s rest (s.io.pout ++ applyMaskFrom (cmdKey s.sq.cmd) s.sq.pidx.toNat bs) room
      (s.sq.pidx + BitVec.ofNat 64 bs.length)) := by
  induction bs generalizing s with
  | nil =>
    have e := masking_self hh
    simp only [hp, hr] at e
    simp only [applyMaskFrom, List.append_nil, List.length_nil, BitVec.add_zero]
    rw [← (by simpa using e : masking s rest s.io.pout room s.sq.pidx = s)]
    rfl
  | cons b bs ih =>
    simp only [List.length_cons] at hl hr
    have h1 : (s.sq.pidx + 1).toNat = s.sq.pidx.toNat + 1 := pidx_succ (n := 1) (l := cmdLen s.sq.cmd) (by omega)
    have hne : ¬s.sq.pidx + 1 = cmdLen s.sq.cmd := by
      intro h; rw [h] at h1; omega
    rw [proceed_maskByte (n := bs.length + room) hq hh hp (by omega), if_neg hne,
      ih ((masking_seq s _ _ _ _).trans hq)]
    · simp only [masking, applyMaskFrom, h1, pidx_assoc, List.append_assoc, List.singleton_append, List.length_cons]
    · rfl
    · show (s.sq.pidx + 1).toNat + bs.length < _
      rw [h1]
      show _ < (cmdLen s.sq.cmd).toNat
      omega
    · rfl
    · rfl

/-- All bytes masked: the APPLY_MASK ends ST_OK. -/
theorem proceed_maskAll {s : State} {bs rest : List Byte} {room : Nat} (hq : s.sq.seq = .mRun)
    (hh : s.sq.hold = none) (hne : bs ≠ []) (hl : s.sq.pidx.toNat + bs.length = (cmdLen s.sq.cmd).toNat)
    (hp : s.io.pin = bs ++ rest) (hr : s.io.poutReady = bs.length + room) :
    proceed s = .next (finishOk (masking s rest
      (s.io.pout ++ applyMaskFrom (cmdKey s.sq.cmd) s.sq.pidx.toNat bs) room (cmdLen s.sq.cmd))) := by
  obtain ⟨as, b, rfl⟩ : ∃ as b, bs = as ++ [b] := ⟨bs.dropLast, bs.getLast hne, (List.dropLast_append_getLast hne).symm⟩
  simp only [List.length_append, List.length_singleton] at hl hr
  have h1 : (s.sq.pidx + BitVec.ofNat 64 as.length).toNat = s.sq.pidx.toNat + as.length :=
    pidx_succ (l := cmdLen s.sq.cmd) (by omega)
  have h2 : s.sq.pidx + BitVec.ofNat 64 as.length + 1 = cmdLen s.sq.cmd := by
    have := (cmdLen s.sq.cmd).isLt
    apply BitVec.eq_of_toNat_eq
    rw [BitVec.toNat_add, h1]; simp; omega
  rw [proceed_maskSome (bs := as) (rest := b :: rest) (room := 1 + room) hq hh (by omega) (by rw [hp]; simp) (by omega),
    proceed_maskByte (b := b) (rest := rest) (n := room) ((masking_seq s _ _ _ _).trans hq)]
  · rw [if_pos (by exact h2), proceed_idle rfl]
    simp only [masking, applyMaskFrom_append, applyMaskFrom, h1, h2, List.append_assoc]
  · rfl
  · rfl
  · exact Nat.add_comm 1 room

/-! ## The loader -/

/-- PBUF after bytes are stored from address `i` on. -/
def loadFrom : Nat → List Byte → Memory → Memory
  | _, [], m => m
  | i, b :: bs, m => loadFrom (i + 1) bs (m.write i b)

theorem loadFrom_append (i : Nat) (as bs : List Byte) (m : Memory) :
    loadFrom i (as ++ bs) m = loadFrom (i + as.length) bs (loadFrom i as m) := by
  induction as generalizing i m with
  | nil => rfl
  | cons a as ih => simp [loadFrom, ih, Nat.add_assoc, Nat.add_comm 1]

theorem loadFrom_wf {i : Nat} {bs : List Byte} {m : Memory} (h : m.wf) : (loadFrom i bs m).wf := by
  induction bs generalizing i m with
  | nil => exact h
  | cons b bs ih => exact ih (Memory.write_wf h i b)

theorem loadFrom_addresses {i : Nat} {bs : List Byte} {m : Memory} (h : m.addresses = List.range i) :
    (loadFrom i bs m).addresses = List.range (i + bs.length) := by
  induction bs generalizing i m with
  | nil => exact h
  | cons b bs ih =>
    rw [loadFrom, ih (Memory.addresses_write_end h b)]
    simp [Nat.add_assoc, Nat.add_comm 1]

/-- What a byte of PBUF holds after the load. -/
theorem loadFrom_read (i : Nat) (bs : List Byte) (m : Memory) (a : Nat) :
    (loadFrom i bs m).read a = if a < i then m.read a else if a < i + bs.length then bs[a - i]? else m.read a := by
  induction bs generalizing i m with
  | nil =>
    simp only [loadFrom, List.length_nil, Nat.add_zero]
    split
    · rfl
    · simp
  | cons b bs ih =>
    rw [loadFrom, ih]
    by_cases h1 : a < i
    · rw [if_pos (by omega), if_pos h1, Memory.read_write_other m b (by omega)]
    · rw [if_neg h1]
      by_cases h2 : a = i
      · subst h2
        simp [Memory.read_write_same]
      · rw [if_neg (by omega)]
        have e : a - i = a - (i + 1) + 1 := by omega
        by_cases h3 : a < i + 1 + bs.length
        · rw [if_pos h3, if_pos (by simp; omega), e]
          rfl
        · rw [if_neg h3, if_neg (by simp; omega), Memory.read_write_other m b h2]

/-- PIN, PBUF and PIDX, moved on. -/
def loading (s : State) (pin : List Byte) (pbuf : Memory) (pidx : Len) : State :=
  { s with io := { s.io with pin := pin }, pbuf := pbuf, sq := { s.sq with pidx := pidx } }

@[simp] theorem loading_seq (s : State) (pin : List Byte) (pbuf : Memory) (pidx : Len) :
    (loading s pin pbuf pidx).sq.seq = s.sq.seq := rfl

/-- One byte stored. -/
theorem proceed_loadByte {s : State} {b : Byte} {rest : List Byte} (hq : s.sq.seq = .lRun)
    (hin : s.sq.pidx.toNat < s.params.pbufBytes.toNat) (hp : s.io.pin = b :: rest) :
    proceed s = proceed (if s.sq.pidx + 1 = cmdLen s.sq.cmd
      then frameLoaded (loading s rest (s.pbuf.write s.sq.pidx.toNat b) (s.sq.pidx + 1))
      else loading s rest (s.pbuf.write s.sq.pidx.toNat b) (s.sq.pidx + 1)) := by
  apply proceed_moved
  rw [byteStep_lRun hq, loadStep, if_pos (by simpa [pbufHas] using hin)]
  simp only [hp]
  rfl

/-- Bytes stored, and not the last one among them. -/
theorem proceed_loadSome {s : State} {bs rest : List Byte} (hq : s.sq.seq = .lRun)
    (hfit : (cmdLen s.sq.cmd).toNat ≤ s.params.pbufBytes.toNat)
    (hl : s.sq.pidx.toNat + bs.length < (cmdLen s.sq.cmd).toNat) (hp : s.io.pin = bs ++ rest) :
    proceed s = proceed (loading s rest (loadFrom s.sq.pidx.toNat bs s.pbuf)
      (s.sq.pidx + BitVec.ofNat 64 bs.length)) := by
  induction bs generalizing s with
  | nil =>
    simp only [List.nil_append] at hp
    simp only [loadFrom, List.length_nil, BitVec.add_zero]
    rw [show loading s rest s.pbuf s.sq.pidx = s by rw [← hp]; rfl]
  | cons b bs ih =>
    simp only [List.length_cons] at hl
    have h1 : (s.sq.pidx + 1).toNat = s.sq.pidx.toNat + 1 := pidx_succ (n := 1) (l := cmdLen s.sq.cmd) (by omega)
    have hne : ¬s.sq.pidx + 1 = cmdLen s.sq.cmd := by
      intro h; rw [h] at h1; omega
    rw [proceed_loadByte hq (by omega) hp, if_neg hne, ih ((loading_seq s _ _ _).trans hq)]
    · simp only [loading, loadFrom, h1, pidx_assoc, List.length_cons]
    · exact hfit
    · show (s.sq.pidx + 1).toNat + bs.length < _
      rw [h1]
      show _ < (cmdLen s.sq.cmd).toNat
      omega
    · rfl

/-- All bytes stored: the frame is there. -/
theorem proceed_loadAll {s : State} {bs rest : List Byte} (hq : s.sq.seq = .lRun) (hne : bs ≠ [])
    (hfit : (cmdLen s.sq.cmd).toNat ≤ s.params.pbufBytes.toNat)
    (hl : s.sq.pidx.toNat + bs.length = (cmdLen s.sq.cmd).toNat) (hp : s.io.pin = bs ++ rest) :
    proceed s = .next (frameLoaded (loading s rest (loadFrom s.sq.pidx.toNat bs s.pbuf) (cmdLen s.sq.cmd))) := by
  obtain ⟨as, b, rfl⟩ : ∃ as b, bs = as ++ [b] := ⟨bs.dropLast, bs.getLast hne, (List.dropLast_append_getLast hne).symm⟩
  simp only [List.length_append, List.length_singleton] at hl
  have h1 : (s.sq.pidx + BitVec.ofNat 64 as.length).toNat = s.sq.pidx.toNat + as.length :=
    pidx_succ (l := cmdLen s.sq.cmd) (by omega)
  have h2 : s.sq.pidx + BitVec.ofNat 64 as.length + 1 = cmdLen s.sq.cmd := by
    have := (cmdLen s.sq.cmd).isLt
    apply BitVec.eq_of_toNat_eq
    rw [BitVec.toNat_add, h1]; simp; omega
  rw [proceed_loadSome (bs := as) (rest := b :: rest) hq hfit (by omega) (by rw [hp]; simp),
    proceed_loadByte (b := b) (rest := rest) ((loading_seq s _ _ _).trans hq)]
  · rw [if_pos (by exact h2), proceed_idle rfl]
    simp only [loading, loadFrom_append, loadFrom, h1, h2]
  · show (s.sq.pidx + BitVec.ofNat 64 as.length).toNat < s.params.pbufBytes.toNat
    omega
  · rfl

end Sys2Proof.Machine
end

