-- ==== Sys2Proof/Laws/Parse.lean ====
section
/-! SUPPORT. Runs of the header parser (R131): whole extensions and keys, and what is left when the bytes run out. -/

namespace Sys2Proof.Machine

/-- The parser takes the next RX byte. -/
theorem proceed_parseByte {s : State} {b : Byte} {rest : List Byte} (hq : parsing s.sq.seq = true)
    (hrx : s.io.rx = b :: rest) : proceed s = proceed (parseByte b { s with io := { s.io with rx := rest } }) := by
  apply proceed_moved
  rw [byteStep_parsing hq, parseStep, hrx]

/-- The parser takes all extension bytes: they are accumulated big-endian after what was there (R131, R83). -/
theorem proceed_extension {s : State} {bs rest : List Byte} (hq : s.sq.seq = .pExt) (hne : bs ≠ [])
    (hrem : s.sq.rem = BitVec.ofNat 4 bs.length) (hlen : bs.length < 16) (hrx : s.io.rx = bs ++ rest) :
    proceed s = proceed (afterLength { s with
      io := { s.io with rx := rest }
      res := { s.res with len := bs.foldl shiftIn s.res.len }
      sq := { s.sq with pos := s.sq.pos + BitVec.ofNat 4 bs.length, rem := 0 } }) := by
  induction bs generalizing s with
  | nil => exact absurd rfl hne
  | cons b bs ih =>
    rw [proceed_parseByte (by simp [hq, parsing]) hrx]
    simp only [parseByte, hq, takeExtByte]
    have hr : s.sq.rem - 1 = BitVec.ofNat 4 bs.length := by
      rw [hrem]; apply BitVec.eq_of_toNat_eq
      simp only [List.length_cons] at hlen ⊢
      simp
      omega
    rw [hr]
    cases bs with
    | nil => simp
    | cons c cs =>
      have hnz : ¬BitVec.ofNat 4 (c :: cs).length = 0 := by
        intro h0
        have := congrArg BitVec.toNat h0
        simp only [List.length_cons] at hlen this
        simp at this
        omega
      rw [if_neg hnz, ih (by simp) (by simp) rfl (by simpa using Nat.lt_of_succ_lt hlen) (by simp)]
      simp only [List.foldl_cons, BitVec.add_assoc]
      congr 4
      apply BitVec.eq_of_toNat_eq
      simp [Nat.add_comm]

/-- The parser takes the four key bytes and the header is done (R131, R132). -/
theorem proceed_key {s : State} {k0 k1 k2 k3 : Byte} {rest : List Byte} (hq : s.sq.seq = .pKey)
    (hrem : s.sq.rem = 4) (hrx : s.io.rx = k0 :: k1 :: k2 :: k3 :: rest) :
    proceed s = .next (finishParse { s with
      io := { s.io with rx := rest }
      res := { s.res with key := k0 ++ k1 ++ k2 ++ k3 }
      sq := { s.sq with pos := s.sq.pos + 4, rem := 0 } }) := by
  rw [proceed_parseByte (by simp [hq, parsing]) hrx]
  simp only [parseByte, hq, takeKeyByte, hrem]
  rw [if_neg (by decide), proceed_parseByte (by simp [parsing]) rfl]
  simp only [parseByte, takeKeyByte]
  rw [if_neg (by decide), proceed_parseByte (by simp [parsing]) rfl]
  simp only [parseByte, takeKeyByte]
  rw [if_neg (by decide), proceed_parseByte (by simp [parsing]) rfl]
  simp only [parseByte, takeKeyByte]
  rw [if_pos (by decide), proceed_idle (finishParse_sq_seq _)]
  rw [← setKeyByte_all s.res.key k0 k1 k2 k3]
  simp only [BitVec.add_assoc]
  rfl

/-- The packed key of the key bytes, or what was there before where the header has none. -/
def keyFrom (before : Key) : List Byte → Key
  | [k0, k1, k2, k3] => k0 ++ k1 ++ k2 ++ k3
  | _ => before

/-- Once the length is complete: an unmasked header is done, a masked one takes its key. -/
theorem proceed_afterLength {s : State} {key rest : List Byte} (hk : key.length = if s.res.masked then 4 else 0)
    (hrx : s.io.rx = key ++ rest) :
    proceed (afterLength s) = .next (finishParse { s with
      io := { s.io with rx := rest }
      res := { s.res with key := keyFrom s.res.key key }
      sq := { s.sq with
        pos := s.sq.pos + BitVec.ofNat 4 key.length, rem := if s.res.masked then 0 else s.sq.rem } }) := by
  unfold afterLength
  by_cases hm : s.res.masked = true
  · rw [if_pos hm] at hk ⊢
    obtain ⟨k0, k1, k2, k3, rfl⟩ : ∃ k0 k1 k2 k3, key = [k0, k1, k2, k3] := by
      rcases key with _ | ⟨k0, _ | ⟨k1, _ | ⟨k2, _ | ⟨k3, _ | ⟨_, _⟩⟩⟩⟩⟩ <;> simp at hk
      exact ⟨k0, k1, k2, k3, rfl⟩
    refine (proceed_key (s := { s with sq := { s.sq with rem := 4, seq := .pKey } }) (k0 := k0) (k1 := k1) (k2 := k2) (k3 := k3)
      (rest := rest) rfl rfl hrx).trans ?_
    simp only [hm, if_true]
    rfl
  · rw [if_neg hm] at hk ⊢
    obtain rfl := List.eq_nil_of_length_eq_zero hk
    rw [proceed_idle (finishParse_sq_seq _)]
    obtain ⟨params, busy, res, fr, pbuf, sq, io, cmds, edges, unspec⟩ := s
    obtain ⟨rx, rxEnd, tx, answers, pin, pout, ready⟩ := io
    obtain ⟨seq, pos, rem, pidx, cmd, hold⟩ := sq
    cases res
    simp only at hm hrx
    simp [hm, hrx, keyFrom]

/-- The state a whole header leaves behind, before the outcome is written. -/
def headerTaken (b0 b1 : Byte) (ext key rest : List Byte) (s : State) : State :=
  { s with
    io := { s.io with rx := rest }
    res := { s.res with
      fin := byte0Fin b0, rsv1 := byte0Rsv1 b0, rsv2 := byte0Rsv2 b0, rsv3 := byte0Rsv3 b0, opc := byte0Opc b0
      cls := classOf (byte0Opc b0), kind := kindOf (byte0Opc b0), masked := byte1Mask b1
      key := keyFrom s.res.key key
      len := if ext = [] then (byte1Field b1).setWidth 64 else fromBe ext }
    sq := { s.sq with
      pos := 2 + BitVec.ofNat 4 ext.length + BitVec.ofNat 4 key.length
      rem := if byte1Mask b1 then 0 else if ext = [] then s.sq.rem else 0 } }

/-- The whole of HDR_PARSE's control flow on a complete header (R130, R131). -/
theorem proceed_header {s : State} {b0 b1 : Byte} {ext key rest : List Byte} (hq : s.sq.seq = .pFix0)
    (hext : ext.length = (formatOfField (byte1Field b1)).extBytes)
    (hkey : key.length = if byte1Mask b1 then 4 else 0) (hrx : s.io.rx = b0 :: b1 :: (ext ++ key ++ rest)) :
    proceed s = .next (finishParse (headerTaken b0 b1 ext key rest s)) := by
  rw [proceed_parseByte (by simp [hq, parsing]) hrx]
  simp only [parseByte, hq]
  rw [proceed_parseByte (by simp [parsing]) rfl]
  simp only [parseByte, takeFixedByte0, takeFixedByte1]
  rcases formatOfField_cases (byte1Field b1) with ⟨_, e⟩ | ⟨_, e⟩ | ⟨_, e⟩ <;>
    simp only [e, LengthFormat.extBytes] at hext ⊢
  · obtain rfl := List.eq_nil_of_length_eq_zero hext
    refine (proceed_afterLength (key := key) (rest := rest) hkey rfl).trans ?_
    simp only [finishParse, headerTaken]
    cases byte1Mask b1 <;> simp <;> rfl
  · have hne : ext ≠ [] := by rintro rfl; simp at hext
    refine (proceed_extension (bs := ext) (rest := key ++ rest) rfl hne (by rw [hext]; rfl) (by omega)
      (by simp)).trans ?_
    refine (proceed_afterLength (key := key) (rest := rest) hkey rfl).trans ?_
    simp only [finishParse, headerTaken, hext, if_neg hne]
    cases byte1Mask b1 <;> simp <;> rfl
  · have hne : ext ≠ [] := by rintro rfl; simp at hext
    refine (proceed_extension (bs := ext) (rest := key ++ rest) rfl hne (by rw [hext]; rfl) (by omega)
      (by simp)).trans ?_
    refine (proceed_afterLength (key := key) (rest := rest) hkey rfl).trans ?_
    simp only [finishParse, headerTaken, hext, if_neg hne]
    cases byte1Mask b1 <;> simp <;> rfl

/-- A stream that has the bytes its header needs starts with a header. -/
theorem split_header {bs : List Byte} (h : headerNeed bs ≤ bs.length) :
    ∃ b0 b1 ext key rest, bs = b0 :: b1 :: (ext ++ key ++ rest) ∧
      ext.length = (formatOfField (byte1Field b1)).extBytes ∧ key.length = (if byte1Mask b1 then 4 else 0) := by
  rcases bs with _ | ⟨b0, _ | ⟨b1, bs⟩⟩
  · simp [headerNeed] at h
  · simp [headerNeed] at h
  · simp only [headerNeed, List.length_cons] at h
    refine ⟨b0, b1, bs.take (formatOfField (byte1Field b1)).extBytes,
      (bs.drop (formatOfField (byte1Field b1)).extBytes).take (if byte1Mask b1 then 4 else 0),
      (bs.drop (formatOfField (byte1Field b1)).extBytes).drop (if byte1Mask b1 then 4 else 0), ?_, ?_, ?_⟩
    · simp
    · simp; omega
    · simp; split <;> simp_all; omega

/-! ## Streams that are too short -/

/-- What the parser leaves alone while it goes on. -/
structure ParserGoesOn (s u : State) : Prop where
  parsing : parsing u.sq.seq = true
  busy : u.busy = s.busy
  params : u.params = s.params
  fr : u.fr = s.fr
  pbuf : u.pbuf = s.pbuf
  cmds : u.cmds = s.cmds
  rstEdges : u.rstEdges = s.rstEdges
  cmd : u.sq.cmd = s.sq.cmd
  pidx : u.sq.pidx = s.sq.pidx
  hold : u.sq.hold = s.sq.hold
  status : u.res.status = s.res.status
  errinfo : u.res.errinfo = s.res.errinfo
  formats : sameFormatRegisters s u

theorem ParserGoesOn.trans {s t u : State} (h : ParserGoesOn s t) (k : ParserGoesOn t u) : ParserGoesOn s u :=
  { parsing := k.parsing
    busy := k.busy.trans h.busy
    params := k.params.trans h.params
    fr := k.fr.trans h.fr
    pbuf := k.pbuf.trans h.pbuf
    cmds := k.cmds.trans h.cmds
    rstEdges := k.rstEdges.trans h.rstEdges
    cmd := k.cmd.trans h.cmd
    pidx := k.pidx.trans h.pidx
    hold := k.hold.trans h.hold
    status := k.status.trans h.status
    errinfo := k.errinfo.trans h.errinfo
    formats :=
      ⟨k.formats.1.trans h.formats.1, k.formats.2.1.trans h.formats.2.1, k.formats.2.2.1.trans h.formats.2.2.1,
        k.formats.2.2.2.trans h.formats.2.2.2⟩ }

/-- How many bytes the parser still needs to end ST_OK, if these come next. -/
def stillNeeds (s : State) (bs : List Byte) : Nat :=
  match s.sq.seq with
  | .pFix0 => headerNeed bs
  | .pFix1 => headerNeed (0 :: bs) - 1
  | .pExt => s.sq.rem.toNat + if s.res.masked then 4 else 0
  | .pKey => s.sq.rem.toNat
  | _ => 0

/-- How many bytes the parser still needs until the length is complete, if these come next. -/
def lengthStillNeeds (s : State) (bs : List Byte) : Nat :=
  match s.sq.seq with
  | .pFix0 => lengthNeed bs
  | .pFix1 => lengthNeed (0 :: bs) - 1
  | .pExt => s.sq.rem.toNat
  | _ => 0

theorem headerNeed_two (b0 b1 : Byte) (bs : List Byte) :
    headerNeed (b0 :: b1 :: bs) = 2 + (formatOfField (byte1Field b1)).extBytes + if byte1Mask b1 then 4 else 0 := rfl

theorem lengthNeed_two (b0 b1 : Byte) (bs : List Byte) :
    lengthNeed (b0 :: b1 :: bs) = 2 + (formatOfField (byte1Field b1)).extBytes := rfl

/-- The parser's counters are where R131 puts them. -/
def parserInBounds (s : State) : Prop :=
  (s.sq.seq = .pFix0 → s.sq.pos = 0) ∧ (s.sq.seq = .pFix1 → s.sq.pos = 1) ∧ (s.sq.seq = .pExt → 1 ≤ s.sq.rem.toNat)

/-- One byte taken by a parser that needs more than there is: it goes on, and needs one byte fewer. -/
theorem parseByte_short {s : State} {b : Byte} {bs : List Byte} (hq : parsing s.sq.seq = true)
    (hb : parserInBounds s) (hn : bs.length + 1 < stillNeeds s (b :: bs)) :
    ParserGoesOn s (parseByte b s) ∧ (parseByte b s).sq.pos = s.sq.pos + 1 ∧ parserInBounds (parseByte b s) ∧
    stillNeeds (parseByte b s) bs + 1 = stillNeeds s (b :: bs) ∧
    (lengthStillNeeds (parseByte b s) bs ≤ bs.length ↔ lengthStillNeeds s (b :: bs) ≤ bs.length + 1) := by
  have h16 := s.sq.rem.isLt
  have goes : ∀ t : State, t = parseByte b s → Sys2Proof.Machine.parsing t.sq.seq = true → t.busy = s.busy →
      t.res.status = s.res.status → ParserGoesOn s t := by
    rintro t rfl h1 h2 h3
    exact ⟨h1, h2, by simp, by simp, by simp, by simp, by simp, by simp, by simp, by simp, h3, by simp,
      by simp [sameFormatRegisters]⟩
  unfold parserInBounds at hb
  cases hs : s.sq.seq <;> simp only [hs, parsing] at hq hb <;> simp at hq hb
  · -- P_FIX0
    have e : parseByte b s = takeFixedByte0 (byte0Fin b) (byte0Rsv1 b) (byte0Rsv2 b) (byte0Rsv3 b) (byte0Opc b)
        (classOf (byte0Opc b)) (kindOf (byte0Opc b)) s := by simp [parseByte, hs]
    refine ⟨goes _ rfl (by simp [e, parsing]) (by simp [e]) (by simp [e]), by simp [e, hb], ?_, ?_, ?_⟩
    · simp [parserInBounds, e]
    · cases bs with
      | nil => simp [stillNeeds, e, hs, headerNeed]
      | cons c cs => simp [stillNeeds, e, hs, headerNeed_two]; omega
    · cases bs with
      | nil => simp [lengthStillNeeds, e, hs, lengthNeed]
      | cons c cs => simp [lengthStillNeeds, e, hs, lengthNeed_two]; omega
  · -- P_FIX1
    have e : parseByte b s = takeFixedByte1 b s := by simp [parseByte, hs]
    simp only [stillNeeds, hs, headerNeed_two] at hn
    rcases formatOfField_cases (byte1Field b) with ⟨_, f⟩ | ⟨_, f⟩ | ⟨_, f⟩ <;>
      simp only [f, LengthFormat.extBytes] at hn <;> simp only [e, takeFixedByte1, f, afterLength] at goes ⊢
    · have hm : byte1Mask b = true := by
        by_contra h; simp [h] at hn
      simp only [hm, if_true] at goes hn ⊢
      refine ⟨goes _ rfl (by simp [parsing]) rfl rfl, by simp [hb], ?_, ?_, ?_⟩
      · simp [parserInBounds]
      · simp [stillNeeds, hs, headerNeed_two, f, hm, LengthFormat.extBytes]
      · simp [lengthStillNeeds, hs, lengthNeed_two, f, LengthFormat.extBytes]
    · refine ⟨goes _ rfl (by simp [parsing]) rfl rfl, by simp [hb], ?_, ?_, ?_⟩
      · simp [parserInBounds]
      · simp [stillNeeds, hs, headerNeed_two, f, LengthFormat.extBytes]; omega
      · simp [lengthStillNeeds, hs, lengthNeed_two, f, LengthFormat.extBytes]
    · refine ⟨goes _ rfl (by simp [parsing]) rfl rfl, by simp [hb], ?_, ?_, ?_⟩
      · simp [parserInBounds]
      · simp [stillNeeds, hs, headerNeed_two, f, LengthFormat.extBytes]; omega
      · simp [lengthStillNeeds, hs, lengthNeed_two, f, LengthFormat.extBytes]
  · -- P_EXT
    have e : parseByte b s = takeExtByte b s := by simp [parseByte, hs]
    have hr : (s.sq.rem - 1).toNat = s.sq.rem.toNat - 1 := by
      rw [BitVec.toNat_sub]; simp; omega
    have hr0 : s.sq.rem - 1 = 0 ↔ s.sq.rem.toNat = 1 := by
      constructor
      · intro h; rw [h] at hr; simp at hr; omega
      · intro h; apply BitVec.eq_of_toNat_eq; rw [hr, h]; rfl
    simp only [stillNeeds, hs] at hn
    simp only [e, takeExtByte, afterLength] at goes ⊢
    by_cases h1 : s.sq.rem.toNat = 1
    · have hm : s.res.masked = true := by
        by_contra h; simp [h] at hn; omega
      simp only [hr0.2 h1, hm, if_true] at goes hn ⊢
      refine ⟨goes _ rfl (by simp [parsing]) rfl rfl, trivial, ?_, ?_, ?_⟩
      · simp [parserInBounds]
      · simp [stillNeeds, hs, h1, hm]
      · simp [lengthStillNeeds, hs, h1]
    · have h0 : ¬s.sq.rem - 1 = 0 := fun h => h1 (hr0.1 h)
      simp only [h0, if_false] at goes ⊢
      refine ⟨goes _ rfl (by simp [parsing, hs]) rfl rfl, trivial, ?_, ?_, ?_⟩
      · simp only [parserInBounds, hs]; refine ⟨by simp, by simp, fun _ => ?_⟩; omega
      · simp only [stillNeeds, hs, hr]; omega
      · simp only [lengthStillNeeds, hs, hr]; omega
  · -- P_KEY
    have e : parseByte b s = takeKeyByte b s := by simp [parseByte, hs]
    simp only [stillNeeds, hs] at hn
    have hr : (s.sq.rem - 1).toNat = s.sq.rem.toNat - 1 := by
      rw [BitVec.toNat_sub]; simp; omega
    have h0 : ¬s.sq.rem - 1 = 0 := by
      intro h; rw [h] at hr; simp at hr; omega
    simp only [e, takeKeyByte, h0, if_false] at goes ⊢
    refine ⟨goes _ rfl (by simp [parsing, hs]) rfl rfl, trivial, ?_, ?_, ?_⟩
    · simp [parserInBounds, hs]
    · simp only [stillNeeds, hs, hr]; omega
    · simp [lengthStillNeeds, hs]

/-- A parser that needs more bytes than RX has takes them all, goes on, and stands where their number says: in P_KEY
exactly when the length was complete (R130, R138). -/
theorem proceed_short {s : State} (hq : parsing s.sq.seq = true) (hb : parserInBounds s)
    (hn : s.io.rx.length < stillNeeds s s.io.rx) :
    ∃ u, proceed s = proceed u ∧ ParserGoesOn s u ∧ u.io = { s.io with rx := [] } ∧
      u.sq.pos = s.sq.pos + BitVec.ofNat 4 s.io.rx.length ∧
      (u.sq.seq = .pKey ↔ lengthStillNeeds s s.io.rx ≤ s.io.rx.length) := by
  obtain ⟨bs, hbs⟩ : ∃ bs, s.io.rx = bs := ⟨_, rfl⟩
  induction bs generalizing s with
  | nil =>
    refine ⟨s, rfl, ⟨hq, rfl, rfl, rfl, rfl, rfl, rfl, rfl, rfl, rfl, rfl, rfl, rfl, rfl, rfl, rfl⟩, ?_, ?_, ?_⟩
    · rw [← hbs]
    · simp [hbs]
    · unfold parserInBounds at hb
      rw [hbs]
      cases hs : s.sq.seq <;> simp [hs, parsing] at hq hb <;> simp [lengthStillNeeds, hs, lengthNeed]
      intro h0
      simp [h0] at hb
  | cons b bs ih =>
    rw [hbs] at hn ⊢
    have hshort := parseByte_short (s := { s with io := { s.io with rx := bs } }) (b := b) (bs := bs) hq hb
      (by simpa [stillNeeds] using hn)
    obtain ⟨g, hpos, hb', hneed, hlen⟩ := hshort
    rw [proceed_parseByte hq hbs]
    have hn' : bs.length < stillNeeds (parseByte b { s with io := { s.io with rx := bs } }) bs := by
      have : stillNeeds { s with io := { s.io with rx := bs } } (b :: bs) = stillNeeds s (b :: bs) := rfl
      simp only [List.length_cons] at hn
      omega
    obtain ⟨u, h1, h2, h3, h4, h5⟩ := ih (s := parseByte b { s with io := { s.io with rx := bs } }) g.parsing hb'
      (by simpa using hn') (by simp)
    refine ⟨u, h1, ParserGoesOn.trans ⟨g.parsing, g.busy, g.params, g.fr, g.pbuf, g.cmds, g.rstEdges, g.cmd, g.pidx,
      g.hold, g.status, g.errinfo, g.formats⟩ h2, ?_, ?_, ?_⟩
    · rw [h3]; simp
    · rw [h4, hpos, BitVec.add_assoc]
      congr 1
      apply BitVec.eq_of_toNat_eq
      simp [Nat.add_comm]
    · rw [h5]
      simp only [parseByte_io]
      exact hlen

end Sys2Proof.Machine
end

