-- ==== Sys2Proof/Laws/Send.lean ====
section
/-! SUPPORT. Runs of the serializer and of the payload phase (R135, R163): many bytes at once, the last one, a failure. -/

namespace Sys2Proof.Machine

/-! ## Header bytes -/

theorem headerBytes_length (s : State) : (headerBytes s).length =
    if sendsFrame s then headerLength s.fr.masked s.fr.plen
    else headerLength (cmdMasked s.sq.cmd) (cmdLen s.sq.cmd) := by
  unfold headerBytes
  split <;> simp [hdrBytes_length]

theorem headerBytes_bounds (s : State) : 2 ≤ (headerBytes s).length ∧ (headerBytes s).length ≤ 14 := by
  rw [headerBytes_length]
  split <;> exact headerLength_bounds _ _

/-- The sink's contents, its coming answers and POS, moved on. -/
def sendingHeader (s : State) (tx : List Byte) (answers : List TxAnswer) (pos : BitVec 4) : State :=
  { s with io := { s.io with tx := tx, txAnswers := answers }, sq := { s.sq with pos := pos } }

theorem headerBytes_sendingHeader (s : State) (tx : List Byte) (answers : List TxAnswer) (pos : BitVec 4) :
    headerBytes (sendingHeader s tx answers pos) = headerBytes s := rfl

@[simp] theorem sendingHeader_seq (s : State) (tx : List Byte) (answers : List TxAnswer) (pos : BitVec 4) :
    (sendingHeader s tx answers pos).sq.seq = s.sq.seq := rfl

/-- Nothing moved on. -/
theorem sendingHeader_self (s : State) : sendingHeader s s.io.tx s.io.txAnswers s.sq.pos = s := rfl

/-- A header byte is acknowledged, and it was not the last. -/
theorem byteStep_headerAck {s : State} {rest : List TxAnswer} (hq : s.sq.seq = .sHdr)
    (hlt : s.sq.pos.toNat < (headerBytes s).length) (hnl : s.sq.pos.toNat + 1 ≠ (headerBytes s).length)
    (ha : s.io.txAnswers = .ack :: rest) :
    byteStep s = .moved (sendingHeader s (s.io.tx ++ [(headerBytes s)[s.sq.pos.toNat]]) rest (s.sq.pos + 1)) := by
  rw [byteStep_sHdr hq, headerStep, List.getElem?_eq_getElem hlt]
  simp only [txPush, ha, headerAcked]
  rw [if_neg]
  · rfl
  · simp only [decide_eq_true_eq]
    exact hnl

/-- The last header byte is acknowledged. -/
theorem byteStep_headerLast {s : State} {rest : List TxAnswer} (hq : s.sq.seq = .sHdr)
    (hl : s.sq.pos.toNat + 1 = (headerBytes s).length) (ha : s.io.txAnswers = .ack :: rest) :
    byteStep s = .moved (headerDone
      (sendingHeader s (s.io.tx ++ (headerBytes s).drop s.sq.pos.toNat) rest (s.sq.pos + 1))) := by
  have hlt : s.sq.pos.toNat < (headerBytes s).length := by omega
  rw [byteStep_sHdr hq, headerStep, List.getElem?_eq_getElem hlt]
  simp only [txPush, ha, headerAcked]
  rw [if_pos]
  · rw [List.drop_eq_getElem_cons hlt, List.drop_eq_nil_of_le (by omega)]
    rfl
  · simp only [decide_eq_true_eq]
    exact hl

/-- A header byte is refused. -/
theorem byteStep_headerFail {s : State} {e : Byte} {rest : List TxAnswer} (hq : s.sq.seq = .sHdr)
    (hlt : s.sq.pos.toNat < (headerBytes s).length) (ha : s.io.txAnswers = .fail e :: rest) :
    byteStep s = .moved (sendFailed e (sendingHeader s s.io.tx rest s.sq.pos)) := by
  rw [byteStep_sHdr hq, headerStep, List.getElem?_eq_getElem hlt]
  simp only [txPush, ha]
  rfl

/-- `k` header bytes acknowledged, and not the last one among them. -/
theorem proceed_headerAcks {s : State} {k : Nat} {rest : List TxAnswer} (hq : s.sq.seq = .sHdr)
    (hk : s.sq.pos.toNat + k < (headerBytes s).length) (ha : s.io.txAnswers = List.replicate k .ack ++ rest) :
    proceed s = proceed (sendingHeader s (s.io.tx ++ ((headerBytes s).drop s.sq.pos.toNat).take k) rest
      (s.sq.pos + BitVec.ofNat 4 k)) := by
  induction k generalizing s with
  | zero =>
    simp only [List.replicate_zero, List.nil_append] at ha
    simp only [List.take_zero, List.append_nil, ← ha, BitVec.add_zero, sendingHeader_self]
  | succ k ih =>
    have hb := (headerBytes_bounds s).2
    have hlt : s.sq.pos.toNat < (headerBytes s).length := by omega
    have hpos : (s.sq.pos + 1).toNat = s.sq.pos.toNat + 1 := by
      rw [BitVec.toNat_add]; simp; omega
    rw [proceed_moved (byteStep_headerAck hq hlt (by omega) ha), ih ((sendingHeader_seq s _ _ _).trans hq)]
    · have e1 : s.sq.pos + 1 + BitVec.ofNat 4 k = s.sq.pos + BitVec.ofNat 4 (k + 1) := by
        rw [BitVec.add_assoc]; congr 1
        apply BitVec.eq_of_toNat_eq
        simp [Nat.add_comm]
      have e2 : ((headerBytes s).drop s.sq.pos.toNat).take (k + 1) =
          (headerBytes s)[s.sq.pos.toNat] :: ((headerBytes s).drop (s.sq.pos.toNat + 1)).take k := by
        rw [List.drop_eq_getElem_cons hlt, List.take_succ_cons]
      simp only [headerBytes_sendingHeader, e2]
      simp only [sendingHeader, hpos, List.append_assoc, List.singleton_append, ← e1]
    · show (s.sq.pos + 1).toNat + k < (headerBytes s).length
      omega
    · rfl

/-- The whole header acknowledged, from its first byte. -/
theorem proceed_headerAll {s : State} {rest : List TxAnswer} (hq : s.sq.seq = .sHdr) (hp : s.sq.pos = 0)
    (ha : s.io.txAnswers = List.replicate (headerBytes s).length .ack ++ rest) :
    proceed s = proceed (headerDone (sendingHeader s (s.io.tx ++ headerBytes s) rest
      (BitVec.ofNat 4 (headerBytes s).length))) := by
  have hb := headerBytes_bounds s
  obtain ⟨n, hn⟩ : ∃ n, (headerBytes s).length = n + 1 := ⟨(headerBytes s).length - 1, by omega⟩
  have hp0 : s.sq.pos.toNat = 0 := by rw [hp]; rfl
  have e2 : (s.sq.pos + BitVec.ofNat 4 n).toNat = n := by
    rw [hp]; simp; omega
  have e1 : s.sq.pos + BitVec.ofNat 4 n + 1 = BitVec.ofNat 4 (headerBytes s).length := by
    rw [hp, hn]; apply BitVec.eq_of_toNat_eq; simp
  rw [proceed_headerAcks (k := n) (rest := .ack :: rest) hq (by omega)
    (by rw [ha, hn, List.replicate_succ']; simp)]
  refine (proceed_moved (byteStep_headerLast (rest := rest) ((sendingHeader_seq s _ _ _).trans hq) ?_ rfl)).trans ?_
  · show (s.sq.pos + BitVec.ofNat 4 n).toNat + 1 = (headerBytes s).length
    omega
  · simp only [headerBytes_sendingHeader]
    simp only [sendingHeader, e1, e2, hp0, List.drop_zero, List.append_assoc, List.take_append_drop]

/-- A FAIL(e) in the header phase, after `k` acknowledged bytes. -/
theorem proceed_headerFail {s : State} {k : Nat} {e : Byte} {rest : List TxAnswer} (hq : s.sq.seq = .sHdr)
    (hk : s.sq.pos.toNat + k < (headerBytes s).length)
    (ha : s.io.txAnswers = List.replicate k .ack ++ .fail e :: rest) :
    proceed s = .next (sendFailed e (sendingHeader s (s.io.tx ++ ((headerBytes s).drop s.sq.pos.toNat).take k) rest
      (s.sq.pos + BitVec.ofNat 4 k))) := by
  rw [proceed_headerAcks hq hk ha]
  have hb := (headerBytes_bounds s).2
  have hpos : (s.sq.pos + BitVec.ofNat 4 k).toNat = s.sq.pos.toNat + k := by
    rw [BitVec.toNat_add]; simp; omega
  refine (proceed_moved (byteStep_headerFail (e := e) (rest := rest) ((sendingHeader_seq s _ _ _).trans hq) ?_ rfl)).trans (proceed_idle rfl)
  show (s.sq.pos + BitVec.ofNat 4 k).toNat < (headerBytes s).length
  omega

/-! ## Payload bytes -/

/-- The payload as it leaves: masked when the frame is (R162). -/
def sentPayload (s : State) : List Byte :=
  if s.fr.masked then applyMask (framePayload s) s.fr.key else framePayload s

theorem framePayload_length (s : State) : (framePayload s).length = s.fr.plen.toNat := by
  simp [framePayload, pbufBytes]

theorem sentPayload_length (s : State) : (sentPayload s).length = s.fr.plen.toNat := by
  unfold sentPayload
  split <;> simp [applyMask, framePayload_length]

/-- The byte offered in F_PAY is the payload's byte at `PIDX`, as it leaves. -/
theorem sentPayload_getElem? {s : State} (h : s.sq.pidx.toNat < s.fr.plen.toNat) :
    (sentPayload s)[s.sq.pidx.toNat]? = some (payloadByte s) := by
  have hp : (framePayload s)[s.sq.pidx.toNat]? = some (pbufByte s s.sq.pidx.toNat) := by
    simp [framePayload, pbufBytes, h]
  unfold sentPayload payloadByte
  split
  · rw [applyMask, applyMaskFrom_getElem?, hp]; simp
  · exact hp

theorem sentPayload_getElem {s : State} (h : s.sq.pidx.toNat < (sentPayload s).length) :
    (sentPayload s)[s.sq.pidx.toNat] = payloadByte s := by
  have := sentPayload_getElem? (s := s) (by rwa [← sentPayload_length])
  rw [List.getElem?_eq_getElem h] at this
  exact Option.some.inj this

/-- The sink's contents, its coming answers and PIDX, moved on. -/
def sendingPayload (s : State) (tx : List Byte) (answers : List TxAnswer) (pidx : Len) : State :=
  { s with io := { s.io with tx := tx, txAnswers := answers }, sq := { s.sq with pidx := pidx } }

theorem sentPayload_sendingPayload (s : State) (tx : List Byte) (answers : List TxAnswer) (pidx : Len) :
    sentPayload (sendingPayload s tx answers pidx) = sentPayload s := rfl

@[simp] theorem sendingPayload_seq (s : State) (tx : List Byte) (answers : List TxAnswer) (pidx : Len) :
    (sendingPayload s tx answers pidx).sq.seq = s.sq.seq := rfl

theorem sendingPayload_self (s : State) : sendingPayload s s.io.tx s.io.txAnswers s.sq.pidx = s := rfl

/-- A payload byte is acknowledged, and it was not the last. -/
theorem byteStep_payloadAck {s : State} {rest : List TxAnswer} (hq : s.sq.seq = .fPay)
    (hin : s.sq.pidx.toNat < s.params.pbufBytes.toNat) (hnl : s.sq.pidx + 1 ≠ s.fr.plen)
    (ha : s.io.txAnswers = .ack :: rest) :
    byteStep s = .moved (sendingPayload s (s.io.tx ++ [payloadByte s]) rest (s.sq.pidx + 1)) := by
  rw [byteStep_fPay hq, payloadStep, if_pos (by simpa [pbufHas] using hin)]
  simp only [txPush, ha, payloadAcked]
  rw [if_neg hnl]
  rfl

/-- The last payload byte is acknowledged. -/
theorem byteStep_payloadLast {s : State} {rest : List TxAnswer} (hq : s.sq.seq = .fPay)
    (hin : s.sq.pidx.toNat < s.params.pbufBytes.toNat) (hl : s.sq.pidx + 1 = s.fr.plen)
    (ha : s.io.txAnswers = .ack :: rest) :
    byteStep s = .moved (finishOk (forgetFrame
      (sendingPayload s (s.io.tx ++ [payloadByte s]) rest (s.sq.pidx + 1)))) := by
  rw [byteStep_fPay hq, payloadStep, if_pos (by simpa [pbufHas] using hin)]
  simp only [txPush, ha, payloadAcked]
  rw [if_pos hl]
  rfl

/-- A payload byte is refused. -/
theorem byteStep_payloadFail {s : State} {e : Byte} {rest : List TxAnswer} (hq : s.sq.seq = .fPay)
    (hin : s.sq.pidx.toNat < s.params.pbufBytes.toNat) (ha : s.io.txAnswers = .fail e :: rest) :
    byteStep s = .moved (sendFailed e (sendingPayload s s.io.tx rest s.sq.pidx)) := by
  rw [byteStep_fPay hq, payloadStep, if_pos (by simpa [pbufHas] using hin)]
  simp only [txPush, ha]
  rfl

/-- `k` payload bytes acknowledged, and not the last one among them. -/
theorem proceed_payloadAcks {s : State} {k : Nat} {rest : List TxAnswer} (hq : s.sq.seq = .fPay)
    (hfit : s.fr.plen.toNat ≤ s.params.pbufBytes.toNat) (hk : s.sq.pidx.toNat + k < s.fr.plen.toNat)
    (ha : s.io.txAnswers = List.replicate k .ack ++ rest) :
    proceed s = proceed (sendingPayload s (s.io.tx ++ ((sentPayload s).drop s.sq.pidx.toNat).take k) rest
      (s.sq.pidx + BitVec.ofNat 64 k)) := by
  induction k generalizing s with
  | zero =>
    simp only [List.replicate_zero, List.nil_append] at ha
    simp only [List.take_zero, List.append_nil, ← ha, BitVec.add_zero, sendingPayload_self]
  | succ k ih =>
    have h64 := s.fr.plen.isLt
    have hlt : s.sq.pidx.toNat < (sentPayload s).length := by rw [sentPayload_length]; omega
    have hpos : (s.sq.pidx + 1).toNat = s.sq.pidx.toNat + 1 := by
      rw [BitVec.toNat_add]; simp; omega
    have hne : s.sq.pidx + 1 ≠ s.fr.plen := by
      intro h; rw [h] at hpos; omega
    rw [proceed_moved (byteStep_payloadAck hq (by omega) hne ha), ih ((sendingPayload_seq s _ _ _).trans hq)]
    · have e1 : s.sq.pidx + 1 + BitVec.ofNat 64 k = s.sq.pidx + BitVec.ofNat 64 (k + 1) := by
        rw [BitVec.add_assoc]; congr 1
        apply BitVec.eq_of_toNat_eq
        simp [Nat.add_comm]
      have e2 : ((sentPayload s).drop s.sq.pidx.toNat).take (k + 1) =
          payloadByte s :: ((sentPayload s).drop (s.sq.pidx.toNat + 1)).take k := by
        rw [List.drop_eq_getElem_cons hlt, List.take_succ_cons, sentPayload_getElem hlt]
      simp only [sentPayload_sendingPayload, e2]
      simp only [sendingPayload, hpos, List.append_assoc, List.singleton_append, ← e1]
    · exact hfit
    · show (s.sq.pidx + 1).toNat + k < s.fr.plen.toNat
      omega
    · rfl

/-- The whole payload acknowledged, from its first byte: the frame is consumed. -/
theorem proceed_payloadAll {s : State} {rest : List TxAnswer} (hq : s.sq.seq = .fPay) (hp : s.sq.pidx = 0)
    (hne : s.fr.plen ≠ 0) (hfit : s.fr.plen.toNat ≤ s.params.pbufBytes.toNat)
    (ha : s.io.txAnswers = List.replicate s.fr.plen.toNat .ack ++ rest) :
    proceed s = .next (finishOk (forgetFrame (sendingPayload s (s.io.tx ++ sentPayload s) rest s.fr.plen))) := by
  have h64 := s.fr.plen.isLt
  have hpos : s.fr.plen.toNat ≠ 0 := fun h => hne (BitVec.eq_of_toNat_eq (by simpa using h))
  obtain ⟨n, hn⟩ : ∃ n, s.fr.plen.toNat = n + 1 := ⟨s.fr.plen.toNat - 1, by omega⟩
  have hp0 : s.sq.pidx.toNat = 0 := by rw [hp]; rfl
  have e1 : s.sq.pidx + BitVec.ofNat 64 n + 1 = s.fr.plen := by
    rw [hp]; apply BitVec.eq_of_toNat_eq; rw [hn]; simp; omega
  have e2 : (s.sq.pidx + BitVec.ofNat 64 n).toNat = n := by rw [hp]; simp; omega
  rw [proceed_payloadAcks (k := n) (rest := .ack :: rest) hq hfit (by omega)
    (by rw [ha, hn, List.replicate_succ']; simp)]
  generalize ht : sendingPayload s (s.io.tx ++ ((sentPayload s).drop s.sq.pidx.toNat).take n) (.ack :: rest)
    (s.sq.pidx + BitVec.ofNat 64 n) = t
  have ht1 : t.sq.pidx = s.sq.pidx + BitVec.ofNat 64 n := by subst ht; rfl
  have ht2 : sentPayload t = sentPayload s := by subst ht; rfl
  have ht3 : t.io.tx = s.io.tx ++ (sentPayload s).take n := by
    subst ht; show s.io.tx ++ _ = _; rw [hp0, List.drop_zero]
  have ht4 : ∀ x y, sendingPayload t x rest y = sendingPayload s x rest y := by subst ht; intro x y; rfl
  have ht5 : t.fr.plen = s.fr.plen ∧ t.params = s.params ∧ t.sq.seq = .fPay ∧ t.io.txAnswers = .ack :: rest := by
    subst ht; exact ⟨rfl, rfl, hq, rfl⟩
  have hbyte := sentPayload_getElem? (s := t) (by rw [ht1, e2, ht5.1]; omega)
  rw [ht1, e2, ht2] at hbyte
  have e3 : (sentPayload s).take n ++ [payloadByte t] = sentPayload s := by
    conv_rhs => rw [← List.take_of_length_le (l := sentPayload s) (i := n + 1) (by rw [sentPayload_length]; omega)]
    rw [List.take_add_one, hbyte]
    rfl
  rw [proceed_moved (byteStep_payloadLast (rest := rest) ht5.2.2.1 (by rw [ht1, e2, ht5.2.1]; omega)
    (by rw [ht1, e1, ht5.1]) ht5.2.2.2), proceed_idle rfl, ht4, ht3, ht1, e1, List.append_assoc, e3]

/-- A FAIL(e) in the payload phase, after `k` acknowledged bytes. -/
theorem proceed_payloadFail {s : State} {k : Nat} {e : Byte} {rest : List TxAnswer} (hq : s.sq.seq = .fPay)
    (hfit : s.fr.plen.toNat ≤ s.params.pbufBytes.toNat) (hk : s.sq.pidx.toNat + k < s.fr.plen.toNat)
    (ha : s.io.txAnswers = List.replicate k .ack ++ .fail e :: rest) :
    proceed s = .next (sendFailed e (sendingPayload s
      (s.io.tx ++ ((sentPayload s).drop s.sq.pidx.toNat).take k) rest (s.sq.pidx + BitVec.ofNat 64 k))) := by
  rw [proceed_payloadAcks hq hfit hk ha]
  have h64 := s.fr.plen.isLt
  have hpos : (s.sq.pidx + BitVec.ofNat 64 k).toNat = s.sq.pidx.toNat + k := by
    rw [BitVec.toNat_add]; simp; omega
  refine (proceed_moved (byteStep_payloadFail (e := e) (rest := rest) ((sendingPayload_seq s _ _ _).trans hq) ?_ rfl)).trans (proceed_idle rfl)
  show (s.sq.pidx + BitVec.ofNat 64 k).toNat < s.params.pbufBytes.toNat
  omega

end Sys2Proof.Machine
end

