-- ==== Sys2Proof/Laws/Meanings.lean ====
section
/-! SUPPORT. What exec comes to, instruction by instruction: the fields of the word a command latches, the state a command
starts from, the header rows, and the cases of one step. -/

namespace Sys2Proof.Machine

/-! ## The latched word (R64, R94) -/

theorem latch_hdrParse (w : CmdWord) : cmdOp (latchWord .hdrParse w) = 6 := by
  have h := decodeCommand_latchWord (i := .hdrParse) w rfl
  generalize latchWord _ _ = w at h
  unfold decodeCommand at h
  split at h <;> first | (cases h; done) | exact BitVec.eq_of_toNat_eq ‹_›

theorem latch_hdrFormat (fin rsv1 rsv2 rsv3 : Bool) (opc : BitVec 4) (masked : Bool) (key : Key) (len : Len) (w : CmdWord) :
    ∃ v, latchWord (.hdrFormat fin rsv1 rsv2 rsv3 opc masked key len) w = v ∧ cmdOp v = 7 ∧ cmdFin v = fin ∧
      cmdRsv1 v = rsv1 ∧ cmdRsv2 v = rsv2 ∧ cmdRsv3 v = rsv3 ∧ cmdOpc v = opc ∧ cmdMasked v = masked ∧
      cmdKey v = key ∧ cmdLen v = len := by
  have h := decodeCommand_latchWord (i := .hdrFormat fin rsv1 rsv2 rsv3 opc masked key len) w rfl
  refine ⟨_, rfl, ?_⟩
  generalize latchWord _ _ = w at h
  unfold decodeCommand at h
  split at h <;> first | (cases h; done) | skip
  simp only [Instr.hdrFormat.injEq] at h
  exact ⟨BitVec.eq_of_toNat_eq ‹_›, h⟩

theorem latch_applyMask (key : Key) (len : Len) (w : CmdWord) :
    ∃ v, latchWord (.applyMask key len) w = v ∧ cmdOp v = 8 ∧ cmdKey v = key ∧ cmdLen v = len := by
  have h := decodeCommand_latchWord (i := .applyMask key len) w rfl
  refine ⟨_, rfl, ?_⟩
  generalize latchWord _ _ = w at h
  unfold decodeCommand at h
  split at h <;> first | (cases h; done) | skip
  simp only [Instr.applyMask.injEq] at h
  exact ⟨BitVec.eq_of_toNat_eq ‹_›, h⟩

theorem latch_frameMessage (opc : BitVec 4) (len : Len) (w : CmdWord) :
    ∃ v, latchWord (.frameMessage opc len) w = v ∧ cmdOp v = 9 ∧ cmdOpc v = opc ∧ cmdLen v = len := by
  have h := decodeCommand_latchWord (i := .frameMessage opc len) w rfl
  refine ⟨_, rfl, ?_⟩
  generalize latchWord _ _ = w at h
  unfold decodeCommand at h
  split at h <;> first | (cases h; done) | skip
  simp only [Instr.frameMessage.injEq] at h
  exact ⟨BitVec.eq_of_toNat_eq ‹_›, h⟩

theorem latch_frameFormat (w : CmdWord) : cmdOp (latchWord .frameFormat w) = 11 := by
  have h := decodeCommand_latchWord (i := .frameFormat) w rfl
  generalize latchWord _ _ = w at h
  unfold decodeCommand at h
  split at h <;> first | (cases h; done) | exact BitVec.eq_of_toNat_eq ‹_›

/-! ## Header bytes -/

/-- The header bytes depend on FR and the latched word alone. -/
theorem headerBytes_congr {s t : State} (hf : s.fr = t.fr) (hc : s.sq.cmd = t.sq.cmd) : headerBytes s = headerBytes t := by
  simp [headerBytes, sendsFrame, hf, hc]

/-- While a FRAME_FORMAT runs they are those of the frame. -/
theorem headerBytes_frame {s : State} (h : cmdOp s.sq.cmd = 11) :
    sendsFrame s = true ∧ headerBytes s = (frameHeader s).bytes s.fr.plen ∧
      (headerBytes s).length = headerLength s.fr.masked s.fr.plen := by
  have e : sendsFrame s = true := by simp [sendsFrame, h]
  refine ⟨e, ?_, by simp [headerBytes_length, e]⟩
  simp only [headerBytes, e, if_true, FrameHeader.bytes, frameHeader, wire_ofWire]
  cases s.fr.masked <;> simp [hdrBytes]

/-- While a HDR_FORMAT runs they are those of its operands. -/
theorem headerBytes_hdrFormat {fin rsv1 rsv2 rsv3 : Bool} {opc : BitVec 4} {masked : Bool} {key : Key} {len : Len}
    {s : State} {w : CmdWord} (h : s.sq.cmd = latchWord (.hdrFormat fin rsv1 rsv2 rsv3 opc masked key len) w) :
    sendsFrame s = false ∧ headerBytes s = hdrBytes fin rsv1 rsv2 rsv3 opc masked key len := by
  obtain ⟨v, e, h0, h1, h2, h3, h4, h5, h6, h7, h8⟩ := latch_hdrFormat fin rsv1 rsv2 rsv3 opc masked key len w
  rw [e] at h
  have hs : sendsFrame s = false := by simp [sendsFrame, h, h0]
  exact ⟨hs, by simp [headerBytes, hs, h, h1, h2, h3, h4, h5, h6, h7, h8]⟩

/-! ## The states commands start from -/

/-- A HDR_PARSE that waits for its first byte. -/
def parseStart (s : State) : State :=
  { accept .hdrParse s with sq := { (accept .hdrParse s).sq with seq := .pFix0, pos := 0 } }

/-- The command `i`, a HDR_FORMAT or a FRAME_FORMAT, before its first byte. -/
def sendStart (i : Instr) (s : State) : State :=
  { accept i s with sq := { (accept i s).sq with seq := .sHdr, pos := 0 } }

/-- An APPLY_MASK before its first byte. -/
def maskStart (key : Key) (len : Len) (s : State) : State :=
  { accept (.applyMask key len) s with
    sq := { (accept (.applyMask key len) s).sq with seq := .mRun, pidx := 0, hold := none } }

/-- A FRAME_MESSAGE before its first byte: the old frame is gone. -/
def loadStart (opc : BitVec 4) (len : Len) (s : State) : State :=
  { forgetFrame (accept (.frameMessage opc len) s) with
    sq := { (accept (.frameMessage opc len) s).sq with seq := .lRun, pidx := 0 } }

theorem exec_hdrParse (s : State) : exec .hdrParse s = proceed (parseStart s) := rfl

theorem exec_hdrFormat (fin rsv1 rsv2 rsv3 : Bool) (opc : BitVec 4) (masked : Bool) (key : Key) (len : Len) (s : State) :
    exec (.hdrFormat fin rsv1 rsv2 rsv3 opc masked key len) s =
      proceed (sendStart (.hdrFormat fin rsv1 rsv2 rsv3 opc masked key len) s) := rfl

theorem exec_applyMask (key : Key) (len : Len) (s : State) :
    exec (.applyMask key len) s =
      if len = 0 then .next (finishOk (maskStart key len s)) else proceed (maskStart key len s) := rfl

theorem exec_frameMessage (opc : BitVec 4) (len : Len) (s : State) :
    exec (.frameMessage opc len) s =
      if tooLong s.params.pbufBytes len then .next (raise .errTooLong none (accept (.frameMessage opc len) s))
      else if len = 0 then .next (frameLoaded (loadStart opc len s)) else proceed (loadStart opc len s) := rfl

theorem exec_frameFormat {s : State} (h : s.fr.valid = true) : exec .frameFormat s = proceed (sendStart .frameFormat s) := by
  simp [exec, execFrameFormat, h, sendStart]

theorem exec_frameLen {s : State} (h : s.fr.valid = true) :
    exec .frameLen s =
      .next (finishOk (writeCount (headerLength s.fr.masked s.fr.plen + s.fr.plen.toNat) (accept .frameLen s))) := by
  simp [exec, execFrameLen, h]

theorem exec_frameSetKey_key {s : State} (h : s.fr.valid = true) (key : Key) :
    exec (.frameSetKey true key) s = .next (finishOk { accept (.frameSetKey true key) s with
      fr := { s.fr with masked := true, key := key } }) := by
  simp [exec, execFrameSetKey, h]

theorem exec_frameSetKey_none {s : State} (h : s.fr.valid = true) (key : Key) :
    exec (.frameSetKey false key) s = .next (finishOk (forgetFrameKey { accept (.frameSetKey false key) s with
      fr := { s.fr with masked := false } })) := by
  simp [exec, execFrameSetKey, h]

/-- The three operations on a frame, where there is none. -/
theorem exec_noFrame {s : State} {i : Instr} (h : s.fr.valid = false)
    (hi : i = .frameFormat ∨ i = .frameLen ∨ ∃ masked key, i = .frameSetKey masked key) :
    exec i s = .next (raise .errNoFrame none (accept i s)) := by
  rcases hi with rfl | rfl | ⟨masked, key, rfl⟩ <;> simp [exec, execFrameFormat, execFrameLen, execFrameSetKey, h]

/-! ## The header rows -/

/-- A whole header on RX is one row, and its meaning takes exactly that header. -/
theorem exec_wholeHeader {bs rest : List Byte} {i : Instr} (h : decodeHeader bs = .ok (i, rest)) :
    ∃ b0 b1 ext key, bs = b0 :: b1 :: (ext ++ key ++ rest) ∧
      ext.length = (formatOfField (byte1Field b1)).extBytes ∧ key.length = (if byte1Mask b1 then 4 else 0) ∧
      ∀ s : State, exec i { s with io := { s.io with rx := rest } } =
        .next (finishParse (headerTaken b0 b1 ext key rest s)) := by
  rcases bs with _ | ⟨b0, _ | ⟨b1, bs⟩⟩
  · simp [decodeHeader] at h
  · simp [decodeHeader] at h
  · simp only [decodeHeader] at h
    rcases formatOfField_cases (byte1Field b1) with ⟨l, e⟩ | ⟨l, e⟩ | ⟨l, e⟩ <;> simp only [l, if_true] at h
    · unfold decodeU8 at h
      split at h
      · next hm =>
        split at h <;> cases h
        refine ⟨b0, b1, [], [_, _, _, _], rfl, by rw [e]; rfl, by rw [hm]; rfl, fun s => ?_⟩
        simp only [exec, execHdrH6, takeHeader, headerTaken, takeFixedByte0, finishParse]
        simp [hm, keyFrom]
        rfl
      · next hm =>
        cases h
        simp only [Bool.not_eq_true] at hm
        refine ⟨b0, b1, [], [], rfl, by rw [e]; rfl, by rw [hm]; rfl, fun s => ?_⟩
        simp only [exec, execHdrH2, takeHeader, headerTaken, takeFixedByte0, finishParse]
        simp [hm, keyFrom]
        rfl
    · simp only [show ¬(126 : ℕ) < 126 by decide, if_false] at h
      unfold decodeU16 at h
      split at h
      · split at h
        · next hm =>
          split at h <;> cases h
          refine ⟨b0, b1, [_, _], [_, _, _, _], rfl, by rw [e]; rfl, by rw [hm]; rfl, fun s => ?_⟩
          simp only [exec, execHdrH8, takeHeader, headerTaken, takeFixedByte0, finishParse]
          simp [hm, keyFrom, fromBe_two]
          rfl
        · next hm =>
          cases h
          simp only [Bool.not_eq_true] at hm
          refine ⟨b0, b1, [_, _], [], rfl, by rw [e]; rfl, by rw [hm]; rfl, fun s => ?_⟩
          simp only [exec, execHdrH4, takeHeader, headerTaken, takeFixedByte0, finishParse]
          simp [hm, keyFrom, fromBe_two]
          rfl
      · cases h
    · simp only [show ¬(127 : ℕ) < 126 by decide, show ¬(127 : ℕ) = 126 by decide, if_false] at h
      unfold decodeU64 at h
      split at h
      · split at h
        · next hm =>
          split at h <;> cases h
          refine ⟨b0, b1, [_, _, _, _, _, _, _, _], [_, _, _, _], rfl, by rw [e]; rfl, by rw [hm]; rfl, fun s => ?_⟩
          simp only [exec, execHdrH14, takeHeader, headerTaken, takeFixedByte0, finishParse]
          simp [hm, keyFrom, fromBe_eight]
          rfl
        · next hm =>
          cases h
          simp only [Bool.not_eq_true] at hm
          refine ⟨b0, b1, [_, _, _, _, _, _, _, _], [], rfl, by rw [e]; rfl, by rw [hm]; rfl, fun s => ?_⟩
          simp only [exec, execHdrH10, takeHeader, headerTaken, takeFixedByte0, finishParse]
          simp [hm, keyFrom, fromBe_eight]
          rfl
      · cases h

/-- The meaning of a fixed byte 0, whichever opcode it carries. -/
theorem exec_fixedByte0 (b : Byte) (s : State) :
    exec (decodeFixedByte0 b) s = .next (takeFixedByte0 (byte0Fin b) (byte0Rsv1 b) (byte0Rsv2 b) (byte0Rsv3 b)
      (byte0Opc b) (classOf (byte0Opc b)) (kindOf (byte0Opc b)) s) := by
  unfold decodeFixedByte0
  generalize byte0Opc b = o
  generalize byte0Fin b = x
  generalize byte0Rsv1 b = y
  generalize byte0Rsv2 b = z
  generalize byte0Rsv3 b = w
  obtain ⟨k, rfl⟩ : ∃ k : Fin 16, o = BitVec.ofFin k := ⟨o.toFin, rfl⟩
  fin_cases k <;> rfl

/-! ## Every command is a start and byte steps -/

/-- A command either ends at once in a state with SEQ = IDLE and BUSY = 0, or is byte steps from its start. -/
theorem exec_command {i : Instr} (h : isCommand i = true) (s : State) :
    (∃ c u, exec i s = .next u ∧ u.busy = false ∧ u.sq.seq = .idle ∧ u.res.status = c ∧ mayEndWith i c = true) ∨
    (i = .hdrParse ∧ exec i s = proceed (parseStart s)) ∨
    (∃ f a b c o m k l, i = .hdrFormat f a b c o m k l ∧ exec i s = proceed (sendStart i s)) ∨
    (i = .frameFormat ∧ s.fr.valid = true ∧ exec i s = proceed (sendStart i s)) ∨
    (∃ k l, i = .applyMask k l ∧ l ≠ 0 ∧ exec i s = proceed (maskStart k l s)) ∨
    (∃ o l, i = .frameMessage o l ∧ l ≠ 0 ∧ l.toNat ≤ s.params.pbufBytes.toNat ∧ exec i s = proceed (loadStart o l s)) := by
  cases i with
  | hdrParse => exact .inr (.inl ⟨rfl, rfl⟩)
  | hdrFormat f a b c o m k l => exact .inr (.inr (.inl ⟨f, a, b, c, o, m, k, l, rfl, rfl⟩))
  | frameFormat =>
    by_cases hv : s.fr.valid = true
    · exact .inr (.inr (.inr (.inl ⟨rfl, hv, exec_frameFormat hv⟩)))
    · exact .inl ⟨_, raise .errNoFrame none (accept .frameFormat s), by simp [exec, execFrameFormat, hv], rfl, rfl, rfl, rfl⟩
  | applyMask k l =>
    by_cases hl : l = 0
    · exact .inl ⟨_, _, (exec_applyMask ..).trans (if_pos hl), rfl, rfl, rfl, rfl⟩
    · exact .inr (.inr (.inr (.inr (.inl ⟨k, l, rfl, hl, (exec_applyMask ..).trans (if_neg hl)⟩))))
  | frameMessage o l =>
    by_cases ht : tooLong s.params.pbufBytes l = true
    · exact .inl ⟨_, _, (exec_frameMessage ..).trans (if_pos ht), rfl, rfl, rfl, rfl⟩
    · by_cases hl : l = 0
      · exact .inl ⟨_, _, (exec_frameMessage ..).trans ((if_neg ht).trans (if_pos hl)), rfl, rfl, rfl, rfl⟩
      · exact .inr (.inr (.inr (.inr (.inr ⟨o, l, rfl, hl, by simpa [tooLong] using ht,
          (exec_frameMessage ..).trans ((if_neg ht).trans (if_neg hl))⟩))))
  | opcEncode cls kind opc =>
    cases he : encodeView cls kind opc with
    | some r => exact .inl ⟨_, finishOk (writeOpcode r cls kind (accept (.opcEncode cls kind opc) s)),
        by simp only [exec, execOpcEncode, he], rfl, rfl, rfl, rfl⟩
    | none => exact .inl ⟨_, raise .errBadOpcode none (accept (.opcEncode cls kind opc) s),
        by simp only [exec, execOpcEncode, he], rfl, rfl, rfl, rfl⟩
  | frameSetKey masked key =>
    by_cases hv : s.fr.valid = true
    · cases masked with
      | false => exact .inl ⟨_, _, by simp only [exec, execFrameSetKey, accept_fr, hv, if_true]; rfl, rfl, rfl, rfl, rfl⟩
      | true => exact .inl ⟨_, _, by simp only [exec, execFrameSetKey, accept_fr, hv, if_true]; rfl, rfl, rfl, rfl, rfl⟩
    · exact .inl ⟨_, raise .errNoFrame none (accept (.frameSetKey masked key) s), by simp [exec, execFrameSetKey, hv],
        rfl, rfl, rfl, rfl⟩
  | frameLen =>
    by_cases hv : s.fr.valid = true
    · exact .inl ⟨_, _, exec_frameLen hv, rfl, rfl, rfl, rfl⟩
    · exact .inl ⟨_, raise .errNoFrame none (accept .frameLen s), by simp [exec, execFrameLen, hv], rfl, rfl, rfl, rfl⟩
  | opcDecode opc => exact .inl ⟨_, _, rfl, rfl, rfl, rfl, rfl⟩
  | lenfmtForLength len => exact .inl ⟨_, _, rfl, rfl, rfl, rfl, rfl⟩
  | lenfmtOfField field => exact .inl ⟨_, _, rfl, rfl, rfl, rfl, rfl⟩
  | hdrLen masked len => exact .inl ⟨_, _, rfl, rfl, rfl, rfl, rfl⟩
  | reservedOp0 => exact .inl ⟨_, _, rfl, rfl, rfl, rfl, rfl⟩
  | reservedOp13 => exact .inl ⟨_, _, rfl, rfl, rfl, rfl, rfl⟩
  | reservedOp14 => exact .inl ⟨_, _, rfl, rfl, rfl, rfl, rfl⟩
  | reservedOp15 => exact .inl ⟨_, _, rfl, rfl, rfl, rfl, rfl⟩
  | _ => simp [isCommand, encode] at h

/-! ## One step -/

/-- Everything a step can be. -/
theorem step_cases (s : State) :
    (s.rstEdges ≠ 0 ∧ step s = .next (resetEdge s)) ∨
    (s.rstEdges = 0 ∧ s.busy = false ∧ s.cmds = [] ∧ step s = .next s) ∨
    (∃ w rest, s.rstEdges = 0 ∧ s.busy = false ∧ s.cmds = w :: rest ∧
      step s = exec (decodeCommand w) { s with cmds := rest, sq := { s.sq with cmd := w } }) ∨
    (s.rstEdges = 0 ∧ s.busy = true ∧ step s = proceed s) ∨
    (∃ b rest t, s.rstEdges = 0 ∧ s.busy = true ∧ s.sq.seq = .pFix0 ∧ s.io.rx = b :: rest ∧
      s.io.rx.length < headerNeed s.io.rx ∧ byteStep s = .moved t ∧ step s = .next t) := by
  by_cases hr : s.rstEdges = 0
  · cases hb : s.busy with
    | false =>
      cases hc : s.cmds with
      | nil => exact .inr (.inl ⟨hr, rfl, rfl, by simp [step, fetch, fetchCommand, hr, hb, hc]⟩)
      | cons w rest => exact .inr (.inr (.inl ⟨w, rest, hr, rfl, rfl, by simp [step, fetch, fetchCommand, hr, hb, hc]⟩))
    | true =>
      by_cases hq : s.sq.seq = .pFix0
      · cases hd : decodeHeader s.io.rx with
        | ok r =>
          obtain ⟨i, rest⟩ := r
          obtain ⟨b0, b1, ext, key, e, h1, h2, h3⟩ := exec_wholeHeader hd
          refine .inr (.inr (.inr (.inl ⟨hr, rfl, ?_⟩)))
          rw [proceed_header hq h1 h2 e, ← h3 s]
          simp [step, fetch, fetchHeader, hr, hb, hq, decodeRx, hd]
        | error e =>
          cases hx : s.io.rx with
          | nil =>
            refine .inr (.inr (.inr (.inl ⟨hr, rfl, ?_⟩)))
            simp [step, fetch, fetchHeader, hr, hb, hq, decodeRx, hx, decodeHeader]
          | cons b rest =>
            refine .inr (.inr (.inr (.inr ⟨b, rest, takeFixedByte0 (byte0Fin b) (byte0Rsv1 b) (byte0Rsv2 b)
              (byte0Rsv3 b) (byte0Opc b) (classOf (byte0Opc b)) (kindOf (byte0Opc b))
              { s with io := { s.io with rx := rest } }, hr, rfl, hq, rfl, ?_, ?_, ?_⟩)))
            · by_contra hl
              rw [← hx] at hl
              obtain ⟨b0, b1, ext, key, rest, e', h1, h2⟩ := split_header (Nat.le_of_not_lt hl)
              rw [e'] at hd
              simp only [decodeHeader] at hd
              rcases formatOfField_cases (byte1Field b1) with ⟨l, f⟩ | ⟨l, f⟩ | ⟨l, f⟩ <;> rw [f] at h1 <;>
                simp only [l, if_true, if_false, show ¬(126 : ℕ) < 126 by decide, show ¬(127 : ℕ) < 126 by decide,
                  show ¬(127 : ℕ) = 126 by decide] at hd <;>
                simp only [LengthFormat.extBytes] at h1
              · obtain rfl := List.eq_nil_of_length_eq_zero h1
                by_cases hm : byte1Mask b1 = true
                · rw [if_pos hm] at h2
                  rcases key with _ | ⟨k0, _ | ⟨k1, _ | ⟨k2, _ | ⟨k3, _ | ⟨_, _⟩⟩⟩⟩⟩ <;> simp at h2
                  simp [decodeU8, hm] at hd
                · simp [decodeU8, hm] at hd
              · rcases ext with _ | ⟨l0, _ | ⟨l1, _ | ⟨_, _⟩⟩⟩ <;> simp at h1
                by_cases hm : byte1Mask b1 = true
                · rw [if_pos hm] at h2
                  rcases key with _ | ⟨k0, _ | ⟨k1, _ | ⟨k2, _ | ⟨k3, _ | ⟨_, _⟩⟩⟩⟩⟩ <;> simp at h2
                  simp [decodeU16, hm] at hd
                · simp [decodeU16, hm] at hd
              · rcases ext with _ | ⟨l0, _ | ⟨l1, _ | ⟨l2, _ | ⟨l3, _ | ⟨l4, _ | ⟨l5, _ | ⟨l6, _ | ⟨l7, _ | ⟨_, _⟩⟩⟩⟩⟩⟩⟩⟩⟩ <;>
                  simp at h1
                by_cases hm : byte1Mask b1 = true
                · rw [if_pos hm] at h2
                  rcases key with _ | ⟨k0, _ | ⟨k1, _ | ⟨k2, _ | ⟨k3, _ | ⟨_, _⟩⟩⟩⟩⟩ <;> simp at h2
                  simp [decodeU64, hm] at hd
                · simp [decodeU64, hm] at hd
            · rw [byteStep_parsing (by simp [hq, parsing]), parseStep, hx]
              simp [parseByte, hq]
            · have hrow : decodeRx s.io.rx = .ok (decodeFixedByte0 b, rest) := by
                unfold decodeRx
                rw [hd, hx]
              rw [← exec_fixedByte0 b]
              simp only [step, fetch, fetchHeader, hrow, hr, hb, hq, if_true, ne_eq, not_true, if_false]
      · exact .inr (.inr (.inr (.inl ⟨hr, rfl, by simp [step, fetch, hr, hb, hq]⟩)))
  · exact .inl ⟨hr, by simp [step, fetch, hr]⟩

end Sys2Proof.Machine
end

