-- ==== Sys2Proof/Laws/Confined.lean ====
section
/-! SUPPORT. What each operation may touch while its byte steps run, and how it may end -/

namespace Sys2Proof.Machine

/-- `u` is a HDR_PARSE from `s` on its way, or ended with one of its outcomes: only RX and result registers have
moved. -/
def Parsing (s u : State) : Prop := ((parsing u.sq.seq = true ∧ u.busy = true) ∨ (u.sq.seq = .idle ∧
    mayEndWith .hdrParse u.res.status = true)) ∧
   u.io = { s.io with rx := u.io.rx } ∧ u.fr = s.fr ∧ u.pbuf = s.pbuf ∧ sameHost s u

/-- A byte leaves the parser on its way, or ends it ST_OK. -/
theorem parseByte_parsing (b : Byte) (u : State) (h : parsing u.sq.seq = true) :
    (parsing (parseByte b u).sq.seq = true ∧ (parseByte b u).busy = u.busy) ∨ ((parseByte b u).sq.seq = .idle ∧
    (parseByte b u).res.status = .ok) := by
  have fin : ∀ v : State, (finishParse v).sq.seq = .idle ∧ (finishParse v).res.status = .ok := fun v => by simp
  have aft : ∀ v : State, v.busy = u.busy → (parsing (afterLength v).sq.seq = true ∧
    (afterLength v).busy = u.busy) ∨ ((afterLength v).sq.seq = .idle ∧ (afterLength v).res.status = .ok) := by
    intro v hv; unfold afterLength; split
    · exact .inl ⟨rfl, hv⟩
    · exact .inr (fin v)
  unfold parseByte
  split
  · exact .inl ⟨rfl, rfl⟩
  · unfold takeFixedByte1; simp only []; split
    · exact aft _ rfl
    · exact .inl ⟨rfl, rfl⟩
    · exact .inl ⟨rfl, rfl⟩
  · unfold takeExtByte; simp only []; split
    · exact aft _ rfl
    · exact .inl ⟨by simpa using h, rfl⟩
  · unfold takeKeyByte; simp only []; split
    · exact .inr (fin _)
    · exact .inl ⟨by simpa using h, rfl⟩
  · exact .inl ⟨h, rfl⟩

theorem Parsing.step {s u v : State} (h : Parsing s u) (hm : byteStep u = .moved v) : Parsing s v := by
  obtain ⟨hq, hio, hf, hp, hh⟩ := h
  rcases hq with ⟨hq, hbz⟩ | ⟨hq, _⟩
  · rw [byteStep_parsing hq] at hm
    rcases parseStep_moved hm with ⟨b, rest, hrx, rfl⟩ | ⟨_, _, rfl⟩ | ⟨e, _, _, rfl⟩
    · refine ⟨?_, by (simp; rw [hio]; simp), by simp [hf], by simp [hp], by simpa [sameHost] using hh⟩
      rcases parseByte_parsing b { u with io := { u.io with rx := rest } } hq with ⟨h1, h2⟩ | ⟨h1, h2⟩
      · exact .inl ⟨h1, h2.trans hbz⟩
      · exact .inr ⟨h1, by rw [h2]; rfl⟩
    · refine ⟨.inr ⟨rfl, ?_⟩, by simpa using hio, by simp [hf], by simp [hp], by simpa [sameHost] using hh⟩
      simp [eosOutcome]; split <;> rfl
    · refine ⟨.inr ⟨rfl, rfl⟩, by simpa using hio, by simp [hf], by simp [hp], by simpa [sameHost] using hh⟩
  · rw [byteStep_idle hq] at hm; cases hm

/-- `u` is a HDR_FORMAT from `s` on its way, or ended with one of its outcomes: only TX has moved. -/
def Formatting (s u : State) : Prop := ((u.sq.seq = .sHdr ∧ sendsFrame u = false ∧
    u.busy = true) ∨ (u.sq.seq = .idle ∧ (u.res.status = .ok ∨ u.res.status = .errIoWr))) ∧
   u.io = { s.io with tx := u.io.tx, txAnswers := u.io.txAnswers } ∧ u.fr = s.fr ∧ u.pbuf = s.pbuf ∧ sameHost s u

theorem Formatting.step {s u v : State} (h : Formatting s u) (hm : byteStep u = .moved v) : Formatting s v := by
  obtain ⟨hq, hio, hf, hp, hh⟩ := h
  rcases hq with ⟨hq, hsf, hbz⟩ | ⟨hq, _⟩
  · rw [byteStep_sHdr hq] at hm
    obtain ⟨b, _, h2⟩ := headerStep_moved hm
    rcases txPush_moved h2 with ⟨rest, ha, rfl⟩ | ⟨e, rest, ha, rfl⟩
    · unfold headerAcked headerDone
      simp only []
      split
      · split
        · next hx => exact absurd (hx.symm.trans hsf) (by simp)
        · refine ⟨.inr ⟨rfl, .inl rfl⟩, by (simp; rw [hio]; simp), by simp [hf], by simp [hp],
            by simpa [sameHost] using hh⟩
      · refine ⟨.inl ⟨hq, hsf, hbz⟩, by (simp; rw [hio]; simp), by simp [hf], by simp [hp],
          by simpa [sameHost] using hh⟩
    · unfold sendFailed
      split
      · next hx => exact absurd (hx.symm.trans hsf) (by simp)
      · refine ⟨.inr ⟨rfl, .inr rfl⟩, by (simp; rw [hio]; simp), by simp [hf], by simp [hp],
          by simpa [sameHost] using hh⟩
  · rw [byteStep_idle hq] at hm; cases hm

/-- `u` is a FRAME_FORMAT from `s` on its way, or ended with one of its outcomes: of the streams only TX has moved. -/
def Emitting (s u : State) : Prop := (((u.sq.seq = .sHdr ∨ u.sq.seq = .fPay) ∧ sendsFrame u = true ∧
    u.busy = true) ∨ (u.sq.seq = .idle ∧ (u.res.status = .ok ∨ u.res.status = .errIoWr))) ∧
   u.io = { s.io with tx := u.io.tx, txAnswers := u.io.txAnswers } ∧ sameHost s u

theorem Emitting.step {s u v : State} (h : Emitting s u) (hm : byteStep u = .moved v) : Emitting s v := by
  obtain ⟨hq, hio, hh⟩ := h
  rcases hq with ⟨hq | hq, hsf, hbz⟩ | ⟨hq, _⟩
  · rw [byteStep_sHdr hq] at hm
    obtain ⟨b, _, h2⟩ := headerStep_moved hm
    rcases txPush_moved h2 with ⟨rest, ha, rfl⟩ | ⟨e, rest, ha, rfl⟩
    · unfold headerAcked headerDone
      simp only []
      split
      · split
        · split
          · refine ⟨.inr ⟨rfl, .inl rfl⟩, by (simp; rw [hio]; simp), by simpa [sameHost] using hh⟩
          · refine ⟨.inl ⟨.inr rfl, hsf, hbz⟩, by (simp; rw [hio]; simp), by simpa [sameHost] using hh⟩
        · next hx => exact absurd hsf hx
      · refine ⟨.inl ⟨.inl hq, hsf, hbz⟩, by (simp; rw [hio]; simp), by simpa [sameHost] using hh⟩
    · unfold sendFailed
      split
      · refine ⟨.inr ⟨rfl, .inr rfl⟩, by (simp; rw [hio]; simp), by simpa [sameHost] using hh⟩
      · next hx => exact absurd hsf hx
  · rw [byteStep_fPay hq] at hm
    obtain ⟨_, h2⟩ := payloadStep_moved hm
    rcases txPush_moved h2 with ⟨rest, ha, rfl⟩ | ⟨e, rest, ha, rfl⟩
    · unfold payloadAcked
      simp only []
      split
      · refine ⟨.inr ⟨rfl, .inl rfl⟩, by (simp; rw [hio]; simp), by simpa [sameHost] using hh⟩
      · refine ⟨.inl ⟨.inr hq, hsf, hbz⟩, by (simp; rw [hio]; simp), by simpa [sameHost] using hh⟩
    · unfold sendFailed
      split
      · refine ⟨.inr ⟨rfl, .inr rfl⟩, by (simp; rw [hio]; simp), by simpa [sameHost] using hh⟩
      · next hx => exact absurd hsf hx
  · rw [byteStep_idle hq] at hm; cases hm

/-- `u` is an APPLY_MASK from `s` on its way, or ended ST_OK: only PIN and POUT have moved. -/
def Masking (s u : State) : Prop := ((u.sq.seq = .mRun ∧ u.busy = true) ∨ (u.sq.seq = .idle ∧ u.res.status = .ok)) ∧
   u.io = { s.io with pin := u.io.pin, pout := u.io.pout, poutReady := u.io.poutReady } ∧ u.fr = s.fr ∧
     u.pbuf = s.pbuf ∧ sameHost s u

theorem Masking.step {s u v : State} (h : Masking s u) (hm : byteStep u = .moved v) : Masking s v := by
  obtain ⟨hq, hio, hf, hp, hh⟩ := h
  rcases hq with ⟨hq, hbz⟩ | ⟨hq, _⟩
  · rw [byteStep_mRun hq] at hm
    rcases maskStep_moved hm with ⟨b, rest, hn, hp', rfl⟩ | ⟨b, n, w, hn, hr, hu, rfl⟩
    · exact ⟨.inl ⟨hq, hbz⟩, by (simp; rw [hio]; simp), hf, hp, hh⟩
    · subst hu; split
      · exact ⟨.inr ⟨rfl, rfl⟩, by (simp; rw [hio]; simp), hf, hp, hh⟩
      · exact ⟨.inl ⟨hq, hbz⟩, by (simp; rw [hio]; simp), hf, hp, hh⟩
  · rw [byteStep_idle hq] at hm; cases hm

/-- `u` is a FRAME_MESSAGE from `s` on its way, or ended ST_OK: of the streams only PIN has moved. -/
def Loading (s u : State) : Prop := ((u.sq.seq = .lRun ∧ u.busy = true) ∨ (u.sq.seq = .idle ∧ u.res.status = .ok)) ∧
   u.io = { s.io with pin := u.io.pin } ∧ sameHost s u

theorem Loading.step {s u v : State} (h : Loading s u) (hm : byteStep u = .moved v) : Loading s v := by
  obtain ⟨hq, hio, hh⟩ := h
  rcases hq with ⟨hq, hbz⟩ | ⟨hq, _⟩
  · rw [byteStep_lRun hq] at hm
    obtain ⟨hb1, b, rest, w, hp, hu, rfl⟩ := loadStep_moved hm
    subst hu; split
    · exact ⟨.inr ⟨rfl, rfl⟩, by (simp; rw [hio]; simp), hh⟩
    · exact ⟨.inl ⟨hq, hbz⟩, by (simp; rw [hio]; simp), hh⟩
  · rw [byteStep_idle hq] at hm; cases hm

end Sys2Proof.Machine
end

