-- ==== Sys2Proof/Laws/Endings.lean ====
section
/-! SUPPORT. What a HDR_PARSE and a FRAME_FORMAT that have ended have done with their streams; the canonical length
encoding
of a parsed length; two runs side by side. -/

namespace Sys2Proof.Machine

/-- A HDR_PARSE that has ended ST_OK has taken a whole header from the front of RX. -/
theorem parse_ok_header {s t : State} (h : exec .hdrParse s = .next t) (h1 : t.busy = false)
    (h2 : t.res.status = .ok) : 
   ∃ b0 b1 ext key rest, s.io.rx = b0 :: b1 :: (ext ++ key ++ rest) ∧
     ext.length = (formatOfField (byte1Field b1)).extBytes ∧ key.length = (if byte1Mask b1 then 4 else 0) ∧
     t = finishParse (headerTaken b0 b1 ext key rest (parseStart s)) := by
  by_cases hl : s.io.rx.length < headerNeed s.io.rx
  · exfalso
    obtain ⟨u, g1, g2, g3, g4, g5⟩ :=
      proceed_short (s := parseStart s) rfl (by simp [parserInBounds, parseStart]) hl
    have h' : proceed u = .next t := by rw [← g1]; exact h
    cases hb : byteStep u with
    | waits => rw [proceed_waits hb] at h'; cases h'; rw [g2.busy] at h1; cases h1
    | stuck f => rw [proceed_stuck hb] at h'; cases h'
    | moved v =>
      rw [proceed_moved hb] at h'
      rw [byteStep_parsing g2.parsing] at hb
      rcases parseStep_moved hb with ⟨b, rest, hr, rfl⟩ | ⟨_, _, rfl⟩ | ⟨e, _, _, rfl⟩
      · simp [g3] at hr
      · rw [proceed_idle rfl] at h'; cases h'; simp [eosOutcome] at h2; split at h2 <;> cases h2
      · rw [proceed_idle rfl] at h'; cases h'; simp at h2
  · obtain ⟨b0, b1, ext, key, rest, e, k1, k2⟩ := split_header (by omega : headerNeed s.io.rx ≤ s.io.rx.length)
    refine ⟨b0, b1, ext, key, rest, e, k1, k2, ?_⟩
    have := proceed_header (s := parseStart s) rfl k1 k2 e
    have h' : proceed (parseStart s) = .next t := h
    rw [this] at h'
    cases h'; rfl

/-- Fixed byte 1 with another length field is another byte. -/
theorem fixedByte1_eq_iff : ∀ (b1 : Byte) (f : BitVec 7), fixedByte1 (byte1Mask b1) f = b1 ↔ f = byte1Field b1 := by
  intro b f
  constructor
  · intro h; rw [← h]; simp
  · rintro rfl; exact fixedByte1_fields b

/-- The canonical encoding of the length an extension decodes to is that extension, or is shorter. -/
theorem canonical_or_shorter {b1 : Byte} {ext : List Byte} {L : Len} (k1 :
    ext.length = (formatOfField (byte1Field b1)).extBytes)
  (hL : (if ext = [] then (byte1Field b1).setWidth 64 else fromBe ext) = L) :
  ((fieldOf L = byte1Field b1 ∧ extensionOf L = ext) ↔ ¬((byte1Field b1).toNat = 126 ∧ L.toNat < 126) ∧
    ¬((byte1Field b1).toNat = 127 ∧ L.toNat < 65536)) ∧
  ((byte1Field b1).toNat = 126 ∧ L.toNat < 126 → (extensionOf L).length + 2 = ext.length) ∧
  ((byte1Field b1).toNat = 127 ∧ L.toNat < 126 → (extensionOf L).length + 8 = ext.length) ∧
  ((byte1Field b1).toNat = 127 ∧ 126 ≤ L.toNat ∧ L.toNat < 65536 → (extensionOf L).length + 6 = ext.length) := by
  rcases formatOfField_cases (byte1Field b1) with ⟨l, e1⟩ | ⟨l, e1⟩ | ⟨l,
    e1⟩ <;> rw [e1] at k1 <;> simp only [LengthFormat.extBytes] at k1
  · obtain rfl := List.eq_nil_of_length_eq_zero k1
    simp at hL
    subst hL
    have : (BitVec.setWidth 64 (byte1Field b1)).toNat < 126 := by simp; omega
    have fo : formatOf (BitVec.setWidth 64 (byte1Field b1)) = .u8 := by unfold formatOf; rw [if_pos this]
    have : fieldOf (BitVec.setWidth 64 (byte1Field b1)) = byte1Field b1 := by
      simp [fieldOf, fo]
      apply BitVec.eq_of_toNat_eq; simp; omega
    simp [this, extensionOf, fo]
    omega
  · rcases ext with _|⟨l0,_|⟨l1,_|⟨_,_⟩⟩⟩ <;> simp at k1
    simp [fromBe_two] at hL
    subst hL
    have lt := (l0 ++ l1).isLt
    have tn : ((l0++l1).setWidth 64).toNat = (l0++l1).toNat := by simp; omega
    rcases formatOf_cases ((l0++l1).setWidth 64) with ⟨q, fo⟩ | ⟨q, q2, fo⟩ | ⟨q, fo⟩
    · have : ¬ (fieldOf ((l0++l1).setWidth 64) = byte1Field b1) := by
        intro h
        have := congrArg BitVec.toNat h
        simp [fieldOf, fo] at this
        simp at q
        omega
      simp only [this, false_and, false_iff, extensionOf, fo, l]
      simp only [tn] at q ⊢
      simp
      omega
    · have : fieldOf ((l0++l1).setWidth 64) = byte1Field b1 := by
        apply BitVec.eq_of_toNat_eq
        rw [l]; simp [fieldOf, fo]
      have ee : extensionOf ((l0++l1).setWidth 64) = [l0, l1] := by
        have : BitVec.setWidth 16 (BitVec.setWidth 64 (l0 ++ l1)) = l0 ++ l1 := by simp
        rw [extensionOf, fo]
        simp only []
        rw [show BitVec.extractLsb' 0 16 ((l0++l1).setWidth 64) = (l0++l1) from ?_]
        · exact be2_of_bytes l0 l1
        · apply BitVec.eq_of_toNat_eq; simp; omega
      simp only [this, ee, l, tn] at q ⊢
      simp
      omega
    · simp only [tn] at q; omega
  · rcases ext with _|⟨l0,_|⟨l1,_|⟨l2,_|⟨l3,_|⟨l4,_|⟨l5,_|⟨l6,_|⟨l7,_|⟨_,_⟩⟩⟩⟩⟩⟩⟩⟩⟩ <;> simp at k1
    simp [fromBe_eight] at hL
    subst hL
    generalize hL : (l0 ++ l1 ++ l2 ++ l3 ++ l4 ++ l5 ++ l6 ++ l7) = L at *
    rcases formatOf_cases L with ⟨q, fo⟩ | ⟨q, q2, fo⟩ | ⟨q, fo⟩
    · have : ¬ (fieldOf L = byte1Field b1) := by
        intro h
        have := congrArg BitVec.toNat h
        simp [fieldOf, fo] at this
        omega
      simp [this, extensionOf, fo]
      omega
    · have : ¬ (fieldOf L = byte1Field b1) := by
        intro h
        have := congrArg BitVec.toNat h
        simp [fieldOf, fo] at this
        omega
      simp [this, extensionOf, fo, be2]
      omega
    · have : fieldOf L = byte1Field b1 := by
        apply BitVec.eq_of_toNat_eq
        rw [l]; simp [fieldOf, fo]
      have ee : extensionOf L = [l0, l1, l2, l3, l4, l5, l6, l7] := by
        rw [extensionOf, fo]; subst hL; exact be8_of_bytes _ _ _ _ _ _ _ _
      simp [this, ee]
      omega

/-- `u` is a FRAME_FORMAT from `s` on its way, with what it has sent so far, or ended with the frame gone. -/
def EmittingFrame (s u : State) : Prop :=
  (u.sq.seq = .sHdr ∧ u.busy = true ∧ cmdOp u.sq.cmd = 11 ∧ u.fr = s.fr ∧ u.pbuf = s.pbuf ∧ u.unspec = s.unspec ∧ 
    u.io.tx = s.io.tx ++ ((frameHeader s).bytes s.fr.plen).take u.sq.pos.toNat ∧
      u.sq.pos.toNat < headerLength s.fr.masked s.fr.plen) ∨
  (u.sq.seq = .fPay ∧ u.busy = true ∧ cmdOp u.sq.cmd = 11 ∧ u.fr = s.fr ∧ u.pbuf = s.pbuf ∧ u.unspec = s.unspec ∧ 
    u.io.tx = s.io.tx ++ (frameHeader s).bytes s.fr.plen ++ (sentPayload s).take u.sq.pidx.toNat ∧
      u.sq.pidx.toNat < s.fr.plen.toNat) ∨
  (u.sq.seq = .idle ∧ u.fr.valid = false ∧ (u.res.status = .ok →
    u.io.tx = s.io.tx ++ (frameHeader s).bytes s.fr.plen ++ sentPayload s))

theorem EmittingFrame.step {s u v : State} (h : EmittingFrame s u)
    (hb : byteStep u = .moved v) : EmittingFrame s v := by
  have hpl := s.fr.plen.isLt
  rcases h with ⟨hq, hbz, hc, hf, hp, hu, ht, hl⟩ | ⟨hq, hbz, hc, hf, hp, hu, ht, hl⟩ | ⟨hq, _⟩
  · obtain ⟨e3, e1, e2⟩ := headerBytes_frame hc
    have e1' : headerBytes u = (frameHeader s).bytes s.fr.plen := by rw [e1]; simp only [frameHeader, hf]
    have e2' : (headerBytes u).length = headerLength s.fr.masked s.fr.plen := by rw [e2, hf]
    have h14 := headerLength_bounds s.fr.masked s.fr.plen
    rw [byteStep_sHdr hq] at hb
    obtain ⟨b, hb1, hb2⟩ := headerStep_moved hb
    rcases txPush_moved hb2 with ⟨rest, ha, rfl⟩ | ⟨e, rest, ha, rfl⟩
    · have htake : s.io.tx ++ ((frameHeader s).bytes s.fr.plen).take u.sq.pos.toNat ++ [b] = s.io.tx ++
        ((frameHeader s).bytes s.fr.plen).take (u.sq.pos.toNat + 1) := by
        rw [List.take_add_one, ← e1', hb1]; simp
      by_cases hlast : u.sq.pos.toNat + 1 = headerLength s.fr.masked s.fr.plen
      · have hall : s.io.tx ++ ((frameHeader s).bytes s.fr.plen).take u.sq.pos.toNat ++ [b] = s.io.tx ++
          (frameHeader s).bytes s.fr.plen := by
          rw [htake, List.take_of_length_le]; rw [← e1', e2']; omega
        rw [headerAcked, if_pos (by rw [decide_eq_true_iff]; exact hlast.trans e2'.symm), headerDone,
          if_pos (by exact e3)]
        simp only [hf]
        by_cases hz : s.fr.plen = 0
        · rw [if_pos hz]
          refine .inr (.inr ⟨rfl, rfl, fun _ => ?_⟩)
          have hnil : sentPayload s = [] := List.eq_nil_of_length_eq_zero (by rw [sentPayload_length, hz]; rfl)
          simp only [finishOk_io, forgetFrame_io, ht, hnil, List.append_nil, hall]
        · rw [if_neg hz]
          refine .inr (.inl ⟨rfl, hbz, hc, rfl, hp, hu, ?_, ?_⟩)
          · simp only [ht, hall]; simp
          · simp only []
            show 0 < _
            rcases Nat.eq_zero_or_pos s.fr.plen.toNat with h | h
            · exact absurd (BitVec.eq_of_toNat_eq (by simpa using h)) hz
            · exact h
      · rw [headerAcked, if_neg (by rw [decide_eq_true_iff]; exact fun h => hlast (h.trans e2'))]
        have hpos : (u.sq.pos + 1).toNat = u.sq.pos.toNat + 1 := by
          rw [BitVec.toNat_add]; simp; omega
        refine .inl ⟨hq, hbz, hc, hf, hp, hu, ?_, ?_⟩
        · simp only [ht, htake, hpos]
        · simp only [hpos]; omega
    · refine .inr (.inr ⟨rfl, ?_, ?_⟩)
      · have : sendsFrame { u with io := { u.io with txAnswers := rest } } = true := e3
        simp [sendFailed, this]
      · intro h; simp [sendFailed] at h
  · rw [byteStep_fPay hq] at hb
    obtain ⟨hb1, hb2⟩ := payloadStep_moved hb
    have e3 := (headerBytes_frame hc).1
    have hsp : sentPayload u = sentPayload s := by
      have hby : pbufByte u = pbufByte s := by funext a; simp only [pbufByte, hp, hu]
      simp only [sentPayload, framePayload, pbufBytes, hf, hby]
    have hbyte := sentPayload_getElem? (s := u) (by rw [hf]; exact hl)
    rcases txPush_moved hb2 with ⟨rest, ha, rfl⟩ | ⟨e, rest, ha, rfl⟩
    · have htake : s.io.tx ++ (frameHeader s).bytes s.fr.plen ++ (sentPayload s).take u.sq.pidx.toNat ++
        [payloadByte u] = s.io.tx ++ (frameHeader s).bytes s.fr.plen ++ (sentPayload s).take (u.sq.pidx.toNat + 1) := by
        rw [List.take_add_one, ← hsp, hbyte]; simp
      have hpos : (u.sq.pidx + 1).toNat = u.sq.pidx.toNat + 1 := by
        rw [BitVec.toNat_add]; simp; omega
      by_cases hlast : u.sq.pidx + 1 = s.fr.plen
      · rw [payloadAcked, if_pos (by simp only [hf]; exact hlast)]
        refine .inr (.inr ⟨rfl, rfl, fun _ => ?_⟩)
        simp only [finishOk_io, forgetFrame_io, ht, htake]
        rw [List.take_of_length_le]
        rw [sentPayload_length, ← hpos, hlast]
      · rw [payloadAcked, if_neg (by simp only [hf]; exact hlast)]
        have hne : u.sq.pidx.toNat + 1 ≠ s.fr.plen.toNat := fun h => hlast (BitVec.eq_of_toNat_eq (by omega))
        refine .inr (.inl ⟨hq, hbz, hc, hf, hp, hu, ?_, ?_⟩)
        · simp only [ht, htake, hpos]
        · simp only [hpos]; omega
    · refine .inr (.inr ⟨rfl, ?_, ?_⟩)
      · have : sendsFrame { u with io := { u.io with txAnswers := rest } } = true := e3
        simp [sendFailed, this]
      · intro h; simp [sendFailed] at h
  · rw [byteStep_idle hq] at hb; cases hb

/-- A FRAME_FORMAT that has ended has consumed the frame; if it ended ST_OK, it has sent its header and its payload. -/
theorem frameFormat_ended {s t : State} (hv : s.fr.valid = true) (h : exec .frameFormat s = .next t)
    (hb : t.busy = false) :
   t.fr.valid = false ∧ (t.res.status = .ok → t.io.tx = s.io.tx ++ (frameHeader s).bytes s.fr.plen ++ sentPayload
     s) := by
  rw [exec_frameFormat hv] at h
  have h0 : EmittingFrame s (sendStart .frameFormat s) := by
    refine .inl ⟨rfl, rfl, latch_frameFormat _, rfl, rfl, rfl, ?_, ?_⟩
    · show s.io.tx = s.io.tx ++ List.take 0 _
      simp
    · have h14 := headerLength_bounds s.fr.masked s.fr.plen
      show 0 < _
      omega
  have := proceed_keeps (P := EmittingFrame s) (fun _ _ => EmittingFrame.step) h0 h
  rcases this with h | h | h
  · simp [h.2.1] at hb
  · simp [h.2.1] at hb
  · exact h.2

/-- Two runs whose byte steps match stay matched as far as they go. -/
theorem two_runs {Q : State → State → Prop} (hmove : ∀ s s' u, Q s s' → byteStep s = .moved u → ∃ u',
    byteStep s' = .moved u' ∧ Q u u')
   (hwait : ∀ s s', Q s s' → byteStep s = .waits → byteStep s' = .waits) {s s' t t' : State} (h : Q s s')
     (h1 : proceed s = .next t) (h2 : proceed s' = .next t') : Q t t' := by
  have := proceed_induction (P := fun s o => ∀ s', Q s s' → ∀ t t', o = .next t → proceed s' = .next t' → Q t t')
    (fun s hw s' hq t t' e1 e2 => by cases e1; rw [proceed_waits (hwait s s' hq hw)] at e2; cases e2; exact hq)
    (fun s f _ s' _ t t' e1 _ => by cases e1)
    (fun s u hm ih s' hq t t' e1 e2 => by
      obtain ⟨u', hm', hq'⟩ := hmove s s' u hq hm
      rw [proceed_moved hm'] at e2
      exact ih u' hq' t t' e1 e2) s
  exact this s' h t t' h1 h2

end Sys2Proof.Machine
end

