-- ==== Sys2Proof/Laws/Hidden.lean ====
section
/-! SUPPORT. What a byte step may do to the hidden registers (R35): which of POS, REM, PIDX and the masker's byte it moves,
and where SEQ goes. -/

namespace Sys2Proof.Machine

/-- A byte in the parser moves POS and REM alone of the hidden registers, and leaves the parser in it or SEQ = IDLE. -/
theorem parseByte_hidden (b : Byte) (s : State) :
    (parseByte b s).sq.cmd = s.sq.cmd ∧ (parseByte b s).sq.pidx = s.sq.pidx ∧ (parseByte b s).sq.hold = s.sq.hold := by
  unfold parseByte
  split <;> simp [takeFixedByte0]

/-- One byte step. CMD stays; each other hidden register moves only in the states of SEQ that use it; SEQ stays among the
states of its operation, or becomes IDLE. -/
theorem byteStep_hidden {s t : State} (h : byteStep s = .moved t) :
    t.sq.cmd = s.sq.cmd ∧
    (t.sq.pos = s.sq.pos ∨ parsing s.sq.seq = true ∨ s.sq.seq = .sHdr) ∧
    (t.sq.rem = s.sq.rem ∨ parsing s.sq.seq = true) ∧
    (t.sq.pidx = s.sq.pidx ∨ (s.sq.seq = .sHdr ∧ sendsFrame s = true) ∨ s.sq.seq = .fPay ∨ s.sq.seq = .mRun ∨
      s.sq.seq = .lRun) ∧
    (t.sq.hold = s.sq.hold ∨ s.sq.seq = .mRun) ∧
    (t.sq.seq = .idle ∨ t.sq.seq = s.sq.seq ∨ (parsing s.sq.seq = true ∧ parsing t.sq.seq = true) ∨
      (s.sq.seq = .sHdr ∧ sendsFrame s = true ∧ t.sq.seq = .fPay)) := by
  rcases byteStep_cases s with ⟨hq, h'⟩ | ⟨hq, h'⟩ | ⟨hq, h'⟩ | ⟨hq, h'⟩ | ⟨hq, h'⟩ | ⟨hq, h'⟩ <;> rw [h'] at h
  · cases h
  · rcases parseStep_moved h with ⟨b, rest, _, rfl⟩ | ⟨_, _, rfl⟩ | ⟨e, _, _, rfl⟩
    · obtain ⟨h1, h2, h3⟩ := parseByte_hidden b { s with io := { s.io with rx := rest } }
      refine ⟨h1, .inr (.inl hq), .inr hq, .inl h2, .inl h3, ?_⟩
      rcases parseByte_parsing b { s with io := { s.io with rx := rest } } hq with ⟨h4, _⟩ | ⟨h4, _⟩
      · exact .inr (.inr (.inl ⟨hq, h4⟩))
      · exact .inl h4
    · exact ⟨rfl, .inl rfl, .inl rfl, .inl rfl, .inl rfl, .inl rfl⟩
    · exact ⟨rfl, .inl rfl, .inl rfl, .inl rfl, .inl rfl, .inl rfl⟩
  · obtain ⟨b, _, hp⟩ := headerStep_moved h
    rcases txPush_moved hp with ⟨rest, _, rfl⟩ | ⟨e, rest, _, rfl⟩
    · refine ⟨by simp, .inr (.inr hq), .inl (by simp), ?_, .inl (by simp), ?_⟩ <;>
        by_cases hf : sendsFrame s = true
      · exact .inr (.inl ⟨hq, hf⟩)
      · left
        unfold headerAcked headerDone
        simp only []
        split
        · rw [if_neg (by exact hf)]; rfl
        · rfl
      · unfold headerAcked headerDone
        simp only []
        split
        · rw [if_pos (by exact hf)]
          split
          · exact .inl rfl
          · exact .inr (.inr (.inr ⟨hq, hf, rfl⟩))
        · exact .inr (.inl rfl)
      · unfold headerAcked headerDone
        simp only []
        split
        · rw [if_neg (by exact hf)]; exact .inl rfl
        · exact .inr (.inl rfl)
    · exact ⟨by simp, .inl (by simp), .inl (by simp), .inl (by simp), .inl (by simp), .inl rfl⟩
  · obtain ⟨_, hp⟩ := payloadStep_moved h
    rcases txPush_moved hp with ⟨rest, _, rfl⟩ | ⟨e, rest, _, rfl⟩
    · refine ⟨by simp, .inl (by simp), .inl (by simp), .inr (.inr (.inl hq)), .inl (by simp), ?_⟩
      unfold payloadAcked
      simp only []
      split
      · exact .inl rfl
      · exact .inr (.inl rfl)
    · exact ⟨by simp, .inl (by simp), .inl (by simp), .inl (by simp), .inl (by simp), .inl rfl⟩
  · rcases maskStep_moved h with ⟨b, rest, _, _, rfl⟩ | ⟨b, n, u, _, _, rfl, rfl⟩
    · exact ⟨rfl, .inl rfl, .inl rfl, .inl rfl, .inr hq, .inr (.inl rfl)⟩
    · split
      · exact ⟨rfl, .inl rfl, .inl rfl, .inr (.inr (.inr (.inl hq))), .inr hq, .inl rfl⟩
      · exact ⟨rfl, .inl rfl, .inl rfl, .inr (.inr (.inr (.inl hq))), .inr hq, .inr (.inl rfl)⟩
  · obtain ⟨_, b, rest, u, _, rfl, rfl⟩ := loadStep_moved h
    split
    · exact ⟨by simp, .inl (by simp), .inl (by simp), .inr (.inr (.inr (.inr hq))), .inl (by simp), .inl (by simp)⟩
    · exact ⟨rfl, .inl rfl, .inl rfl, .inr (.inr (.inr (.inr hq))), .inl rfl, .inr (.inl rfl)⟩

/-- A command leaves its own word in CMD, whatever it ends with. -/
theorem exec_command_cmd {i : Instr} {s t : State} (hi : isCommand i = true) (h : exec i s = .next t) :
    t.sq.cmd = latchWord i s.sq.cmd := by
  have run : ∀ u : State, proceed u = .next t → t.sq.cmd = u.sq.cmd := fun u hu =>
    proceed_keeps (P := fun v => v.sq.cmd = u.sq.cmd) (fun _ _ hv hm => (byteStep_hidden hm).1.trans hv) rfl hu
  cases i with
  | hdrParse => exact run _ h
  | hdrFormat => exact run _ h
  | applyMask =>
    rw [exec_applyMask] at h
    split at h
    · cases h; rfl
    · exact run _ h
  | frameMessage =>
    rw [exec_frameMessage] at h
    split at h
    · cases h; rfl
    · split at h
      · cases h; rfl
      · exact run _ h
  | frameFormat =>
    cases hv : s.fr.valid with
    | true => rw [exec_frameFormat hv] at h; exact run _ h
    | false => rw [exec_noFrame hv (.inl rfl)] at h; cases h; rfl
  | frameSetKey masked key =>
    cases hv : s.fr.valid with
    | true =>
      cases masked with
      | true => rw [exec_frameSetKey_key hv] at h; cases h; rfl
      | false => rw [exec_frameSetKey_none hv] at h; cases h; rfl
    | false => rw [exec_noFrame hv (.inr (.inr ⟨_, _, rfl⟩))] at h; cases h; rfl
  | frameLen =>
    cases hv : s.fr.valid with
    | true => rw [exec_frameLen hv] at h; cases h; rfl
    | false => rw [exec_noFrame hv (.inr (.inl rfl))] at h; cases h; rfl
  | opcEncode =>
    simp only [exec, execOpcEncode] at h
    split at h <;> cases h <;> rfl
  | opcDecode | lenfmtForLength | lenfmtOfField | hdrLen | reservedOp0 | reservedOp13 | reservedOp14 | reservedOp15 =>
    cases h; rfl
  | _ => cases hi

end Sys2Proof.Machine
end

