-- ==== Sys2Proof/Laws/Invariant.lean ====
section
/-! SUPPORT. The invariant along byte steps, and at the start of every command that runs byte steps -/

namespace Sys2Proof.Machine

/-- What holds of FR and PBUF while no payload is being loaded. -/
def frameRest (s : State) : Prop :=
  if s.fr.valid then s.fr.plen.toNat ≤ s.params.pbufBytes.toNat ∧
    s.pbuf.addresses = List.range s.fr.plen.toNat else s.pbuf = []

/-- Outside L_RUN that is what the invariant says of them. -/
theorem frameInv_rest {s : State} (h : s.sq.seq ≠ .lRun) : frameInv s ↔ frameRest s := by
  unfold frameInv frameRest; split <;> simp_all

/-- The invariant of a state in which no operation is in progress. -/
theorem inv_of_idle {s : State} (hb : s.busy = false) (hq : s.sq.seq = .idle) (hw : s.pbuf.wf)
    (hh : s.sq.hold = none) (hf : frameRest s) : StateInv s := by
  refine ⟨by simp [hb, hq], hw, by simp [hh], (frameInv_rest (by simp [hq])).2 hf, by simp [seqInv, hq]⟩

/-- Outside M_RUN no byte is held. -/
theorem hold_none {s : State} (h : StateInv s) (hq : s.sq.seq ≠ .mRun) : s.sq.hold = none := by
  have := mt h.2.2.1 hq
  simpa using this

/-- A parser step keeps the invariant. -/
theorem parseStep_keeps_inv {s t : State} (h : StateInv s) (hq : parsing s.sq.seq = true)
    (hm : parseStep s = .moved t) : StateInv t := by
  have hnl : s.sq.seq ≠ .lRun := by intro e; simp [e, parsing] at hq
  have hh : s.sq.hold = none := hold_none h (by intro e; simp [e, parsing] at hq)
  have hfr := (frameInv_rest hnl).1 h.2.2.2.1
  have hbz : s.busy = true := h.1.2 (by intro e; simp [e, parsing] at hq)
  have hs := h.2.2.2.2
  rcases parseStep_moved hm with ⟨b, rest, hrx, rfl⟩ | ⟨_, _, rfl⟩ | ⟨e, _, _, rfl⟩
  · generalize hu : ({ s with io := { s.io with rx := rest } } : State) = u
    have u1 : u.sq = s.sq ∧ u.pbuf = s.pbuf ∧ u.fr = s.fr ∧ u.params = s.params ∧ u.busy = s.busy ∧
      u.res = s.res := by subst hu; simp
    obtain ⟨u1,u2,u3,u4,u5,u6⟩ := u1
    have hsu : seqInv u := by unfold seqInv at hs ⊢; subst hu; exact hs
    have hfru : frameRest u := by unfold frameRest at hfr ⊢; rw [u2,u3,u4]; exact hfr
    -- conclusions for a finished parse of a state alike
    have fin : ∀ v : State, v.pbuf = u.pbuf → v.fr = u.fr → v.params = u.params → v.sq.hold = u.sq.hold →
      StateInv (finishParse v) := by
      intro v v1 v2 v3 v4
      refine inv_of_idle (by simp) (by simp) (by simp [v1, u2, h.2.1]) (by simp [v4, u1, hh]) ?_
      unfold frameRest at hfru ⊢
      simp [v1, v2, v3]; simpa using hfru
    have go : ∀ v : State, v.pbuf = u.pbuf → v.fr = u.fr → v.params = u.params → v.sq.hold = u.sq.hold →
      v.busy = u.busy → parsing v.sq.seq = true → seqInv v → StateInv v := by
      intro v v1 v2 v3 v4 v5 v6 v7
      refine ⟨by simp [v5, u5, hbz]; intro e; simp [e, parsing] at v6, by simp [v1, u2, h.2.1], by simp [v4, u1,
        hh], (frameInv_rest (by intro e; simp [e, parsing] at v6)).2 ?_, v7⟩
      unfold frameRest at hfru ⊢
      rw [v1, v2, v3]; exact hfru
    have after : ∀ v : State, v.pbuf = u.pbuf → v.fr = u.fr → v.params = u.params → v.sq.hold = u.sq.hold →
      v.busy = u.busy → cmdOp v.sq.cmd = 6 → (v.sq.pos.toNat = 2 ∨ v.sq.pos.toNat = 4 ∨ v.sq.pos.toNat = 10) →
      StateInv (afterLength v) := by
      intro v v1 v2 v3 v4 v5 v6 v7
      unfold afterLength
      split
      · refine go _ v1 v2 v3 v4 v5 rfl ?_
        simp [seqInv, *]
      · exact fin v v1 v2 v3 v4
    have hc : parsing u.sq.seq = true → cmdOp u.sq.cmd = 6 := by
      intro hp
      unfold seqInv at hsu
      split at hsu <;> simp_all [parsing]
    have hc := hc (by rw [u1]; exact hq)
    unfold parseByte
    split
    · next hx =>
      refine go _ rfl rfl rfl rfl rfl rfl ?_
      simpa [seqInv, takeFixedByte0] using hc
    · next hx =>
      unfold takeFixedByte1
      simp only []
      rcases formatOfField_cases (byte1Field b) with ⟨_, e⟩ | ⟨_, e⟩ | ⟨_, e⟩ <;> rw [e] <;> simp only []
      · exact after _ rfl rfl rfl rfl rfl hc (.inl rfl)
      · exact go _ rfl rfl rfl rfl rfl rfl (by simpa [seqInv] using hc)
      · exact go _ rfl rfl rfl rfl rfl rfl (by simpa [seqInv] using hc)
    · next hx =>
      simp only [seqInv, hx] at hsu
      obtain ⟨_, k1, k2, k3⟩ := hsu
      have p1 : (u.sq.pos + 1).toNat = u.sq.pos.toNat + 1 := by rw [BitVec.toNat_add]; simp; omega
      have p2 : (u.sq.rem - 1).toNat = u.sq.rem.toNat - 1 := by rw [BitVec.toNat_sub]; simp; omega
      unfold takeExtByte
      simp only []
      split
      · next hz =>
        have hz' : u.sq.rem.toNat - 1 = 0 := by rw [← p2, hz]; rfl
        refine after _ rfl rfl rfl rfl rfl hc ?_
        simp only [p1]
        omega
      · next hz =>
        have hz' : u.sq.rem.toNat - 1 ≠ 0 := by rw [← p2]; intro h; exact hz (BitVec.eq_of_toNat_eq (by simpa using h))
        refine go _ rfl rfl rfl rfl rfl (by simp [hx, parsing]) ?_
        simp only [seqInv, hx, hc, p1, p2]
        simp only [true_and]
        omega
    · next hx =>
      simp only [seqInv, hx] at hsu
      obtain ⟨_, k0, k1, k2, k3⟩ := hsu
      have p1 : (u.sq.pos + 1).toNat = u.sq.pos.toNat + 1 := by rw [BitVec.toNat_add]; simp; omega
      have p2 : (u.sq.rem - 1).toNat = u.sq.rem.toNat - 1 := by rw [BitVec.toNat_sub]; simp; omega
      unfold takeKeyByte
      simp only []
      split
      · exact fin _ rfl rfl rfl rfl
      · next hz =>
        have hz' : u.sq.rem.toNat - 1 ≠ 0 := by rw [← p2]; intro h; exact hz (BitVec.eq_of_toNat_eq (by simpa using h))
        refine go _ rfl rfl rfl rfl rfl (by simp [hx, parsing]) ?_
        simp only [seqInv, hx, hc, p1, p2, k0]
        simp only [true_and]
        omega
    · next h1 h2 h3 h4 =>
      rw [u1] at h1 h2 h3 h4
      simp [parsing] at hq
      exact absurd hq (by rintro (((e | e) | e) | e) <;> first | exact h1 e | exact h2 e | exact h3 e | exact h4 e)
  · exact inv_of_idle (by simp) (by simp) (by simp [h.2.1]) (by simp [hh]) hfr
  · exact inv_of_idle (by simp) (by simp) (by simp [h.2.1]) (by simp [hh]) hfr

/-- A step in S_HDR keeps the invariant. -/
theorem headerStep_keeps_inv {s t : State} (h : StateInv s) (hq : s.sq.seq = .sHdr)
    (hm : headerStep s = .moved t) : StateInv t := by
  have hh : s.sq.hold = none := hold_none h (by simp [hq])
  have hfr := (frameInv_rest (by simp [hq])).1 h.2.2.2.1
  have hbz : s.busy = true := h.1.2 (by simp [hq])
  have hs := h.2.2.2.2
  have h14 := headerBytes_bounds s
  obtain ⟨b, hb1, hb2⟩ := headerStep_moved hm
  simp only [seqInv, hq] at hs
  rcases txPush_moved hb2 with ⟨rest, ha, rfl⟩ | ⟨e, rest, ha, rfl⟩
  · unfold headerAcked
    rw [show headerBytes { s with io := { s.io with tx := s.io.tx ++ [b], txAnswers := rest } } = headerBytes s from rfl]
    simp only []
    split
    · unfold headerDone
      split
      · next hf =>
        have hc : cmdOp s.sq.cmd = 11 := by simpa [sendsFrame] using hf
        have hv : s.fr.valid = true := by simpa [hc] using hs.1
        split
        · exact inv_of_idle (by simp) (by simp) (by simp [Memory.wf]) (by simp [hh]) (by simp [frameRest])
        · next hz =>
          refine ⟨by simp [hbz], h.2.1, by simp [hh], (frameInv_rest (by simp)).2 hfr, ?_⟩
          refine ⟨hc, hv, ?_⟩
          show 0 < s.fr.plen.toNat
          rcases Nat.eq_zero_or_pos s.fr.plen.toNat with h | h
          · exact absurd (BitVec.eq_of_toNat_eq (by simpa using h)) hz
          · exact h
      · exact inv_of_idle (by simp) (by simp) (by simp [h.2.1]) (by simp [hh]) hfr
    · next hl =>
      have hl' : s.sq.pos.toNat + 1 ≠ (headerBytes s).length := by simpa using hl
      have p1 : (s.sq.pos + 1).toNat = s.sq.pos.toNat + 1 := by rw [BitVec.toNat_add]; simp; omega
      refine ⟨by simp [hbz, hq], h.2.1, by simp [hh], (frameInv_rest (by simp [hq])).2 hfr, ?_⟩
      simp only [seqInv, hq]
      refine ⟨hs.1, ?_⟩
      rw [p1]
      show s.sq.pos.toNat + 1 < (headerBytes s).length
      omega
  · unfold sendFailed
    split
    · exact inv_of_idle (by simp) (by simp) (by simp [Memory.wf]) (by simp [hh]) (by simp [frameRest])
    · exact inv_of_idle (by simp) (by simp) (by simp [h.2.1]) (by simp [hh]) hfr

/-- A step in F_PAY keeps the invariant. -/
theorem payloadStep_keeps_inv {s t : State} (h : StateInv s) (hq : s.sq.seq = .fPay)
    (hm : payloadStep s = .moved t) : StateInv t := by
  have hh : s.sq.hold = none := hold_none h (by simp [hq])
  have hfr := (frameInv_rest (by simp [hq])).1 h.2.2.2.1
  have hbz : s.busy = true := h.1.2 (by simp [hq])
  have hs := h.2.2.2.2
  have hpl := s.fr.plen.isLt
  obtain ⟨hb1, hb2⟩ := payloadStep_moved hm
  simp only [seqInv, hq] at hs
  obtain ⟨hc, hv, hi⟩ := hs
  have p1 : (s.sq.pidx + 1).toNat = s.sq.pidx.toNat + 1 := by rw [BitVec.toNat_add]; simp; omega
  rcases txPush_moved hb2 with ⟨rest, ha, rfl⟩ | ⟨e, rest, ha, rfl⟩
  · unfold payloadAcked
    simp only []
    split
    · exact inv_of_idle (by simp) (by simp) (by simp [Memory.wf]) (by simp [hh]) (by simp [frameRest])
    · next hl =>
      have hne : s.sq.pidx.toNat + 1 ≠ s.fr.plen.toNat := fun h => hl (BitVec.eq_of_toNat_eq (by omega))
      refine ⟨by simp [hbz, hq], h.2.1, by simp [hh], (frameInv_rest (by simp [hq])).2 hfr, ?_⟩
      simp only [seqInv, hq, p1]
      exact ⟨hc, hv, by omega⟩
  · unfold sendFailed
    rw [if_pos (by simp [sendsFrame, hc])]
    exact inv_of_idle (by simp) (by simp) (by simp [Memory.wf]) (by simp [hh]) (by simp [frameRest])

/-- A step in M_RUN keeps the invariant. -/
theorem maskStep_keeps_inv {s t : State} (h : StateInv s) (hq : s.sq.seq = .mRun) (hm : maskStep s = .moved t) : StateInv t := by
  have hfr := (frameInv_rest (by simp [hq])).1 h.2.2.2.1
  have hbz : s.busy = true := h.1.2 (by simp [hq])
  have hs := h.2.2.2.2
  simp only [seqInv, hq] at hs
  obtain ⟨hc, hi⟩ := hs
  have hpl := (cmdLen s.sq.cmd).isLt
  have p1 : (s.sq.pidx + 1).toNat = s.sq.pidx.toNat + 1 := by rw [BitVec.toNat_add]; simp; omega
  rcases maskStep_moved hm with ⟨b, rest, hn, hp, rfl⟩ | ⟨b, n, u, hn, hr, hu, rfl⟩
  · refine ⟨by simp [hbz, hq], h.2.1, by simp [hq], (frameInv_rest (by simp [hq])).2 hfr, ?_⟩
    simp only [seqInv, hq]
    exact ⟨hc, hi⟩
  · split
    · subst hu
      exact inv_of_idle (by simp) (by simp) (by simp [h.2.1]) (by simp) hfr
    · next hl =>
      have hne : s.sq.pidx.toNat + 1 ≠ (cmdLen s.sq.cmd).toNat := fun h => hl (BitVec.eq_of_toNat_eq (by omega))
      subst hu
      refine ⟨by simp [hbz, hq], h.2.1, by simp, (frameInv_rest (by simp [hq])).2 hfr, ?_⟩
      simp only [seqInv, hq, p1]
      exact ⟨hc, by omega⟩

/-- A step in L_RUN keeps the invariant. -/
theorem loadStep_keeps_inv {s t : State} (h : StateInv s) (hq : s.sq.seq = .lRun) (hm : loadStep s = .moved t) : StateInv t := by
  have hh : s.sq.hold = none := hold_none h (by simp [hq])
  have hbz : s.busy = true := h.1.2 (by simp [hq])
  have hs := h.2.2.2.2
  simp only [seqInv, hq] at hs
  obtain ⟨hc, hv, hi, hfit, had⟩ := hs
  have hpl := (cmdLen s.sq.cmd).isLt
  have p1 : (s.sq.pidx + 1).toNat = s.sq.pidx.toNat + 1 := by rw [BitVec.toNat_add]; simp; omega
  obtain ⟨hb1, b, rest, u, hp, hu, rfl⟩ := loadStep_moved hm
  have hadd := Memory.addresses_write_end had b
  split
  · next hl =>
    subst hu
    refine inv_of_idle (by simp) (by simp) (by simp [Memory.write_wf h.2.1]) (by simp [hh]) ?_
    simp only [frameRest, frameLoaded_fr_valid, if_true]
    refine ⟨by simpa using hfit, ?_⟩
    simp only [frameLoaded_pbuf, frameLoaded_fr_plen]
    rw [hadd, ← hl, p1]
  · next hl =>
    have hne : s.sq.pidx.toNat + 1 ≠ (cmdLen s.sq.cmd).toNat := fun h => hl (BitVec.eq_of_toNat_eq (by omega))
    subst hu
    refine ⟨by simp [hbz, hq], Memory.write_wf h.2.1 _ _, by simp [hh], by simp [frameInv, hv, hq], ?_⟩
    simp only [seqInv, hq, p1]
    exact ⟨hc, hv, by omega, hfit, hadd⟩

/-- A byte step keeps the invariant. -/
theorem byteStep_keeps_inv {s t : State} (h : StateInv s) (hm : byteStep s = .moved t) : StateInv t := by
  rcases byteStep_cases s with h' | h' | h' | h' | h' | h' <;> rw [h'.2] at hm
  · cases hm
  · exact parseStep_keeps_inv h h'.1 hm
  · exact headerStep_keeps_inv h h'.1 hm
  · exact payloadStep_keeps_inv h h'.1 hm
  · exact maskStep_keeps_inv h h'.1 hm
  · exact loadStep_keeps_inv h h'.1 hm

/-- Going on keeps the invariant. -/
theorem proceed_keeps_inv {s t : State} (h : StateInv s) (hm : proceed s = .next t) : StateInv t :=
  proceed_keeps (P := StateInv) (fun _ _ => byteStep_keeps_inv) h hm

/-- A state in which a command may be accepted: no byte is held, PBUF is in canonical form and agrees with FR. -/
def Quiet (u : State) : Prop := u.sq.hold = none ∧ u.pbuf.wf ∧ frameRest u

/-- A HDR_PARSE starts within the invariant. -/
theorem inv_parseStart {u : State} (h : Quiet u) : StateInv (parseStart u) :=
  ⟨by simp [parseStart], by simp [parseStart, h.2.1], by simp [parseStart, h.1],
    (frameInv_rest (by simp [parseStart])).2 h.2.2, latch_hdrParse _, rfl⟩

/-- A HDR_FORMAT, and a FRAME_FORMAT of a frame, start within the invariant. -/
theorem inv_sendStart {i : Instr} {u : State} (h : Quiet u) (hi :
    cmdOp (latchWord i u.sq.cmd) = 7 ∨ cmdOp (latchWord i u.sq.cmd) = 11 ∧ u.fr.valid = true) : StateInv (sendStart i u) :=
  ⟨by simp [sendStart], by simp [sendStart, h.2.1], by simp [sendStart, h.1],
    (frameInv_rest (by simp [sendStart])).2 h.2.2, hi,
    Nat.lt_of_lt_of_le (by decide : (0#4).toNat < 2) (headerBytes_bounds (sendStart i u)).1⟩

/-- An APPLY_MASK of a byte or more starts within the invariant. -/
theorem inv_maskStart {k : Key} {l : Len} {u : State} (h : Quiet u) (hl : l ≠ 0) : StateInv (maskStart k l u) := by
  obtain ⟨v, e1, e2, e3, e4⟩ := latch_applyMask k l u.sq.cmd
  refine ⟨by simp [maskStart], by simp [maskStart, h.2.1], by simp [maskStart],
    (frameInv_rest (by simp [maskStart])).2 h.2.2, ?_⟩
  simp only [seqInv, maskStart, accept_sq_cmd, e1, e2, e4]
  have : l.toNat ≠ 0 := fun h => hl (BitVec.eq_of_toNat_eq (by simpa using h))
  simp; omega

/-- A FRAME_MESSAGE of a payload that fits starts within the invariant. -/
theorem inv_loadStart {o : BitVec 4} {l : Len} {u : State} (h : Quiet u) (hl : l ≠ 0)
    (hf : l.toNat ≤ u.params.pbufBytes.toNat) : StateInv (loadStart o l u) := by
  obtain ⟨v, e1, e2, e3, e4⟩ := latch_frameMessage o l u.sq.cmd
  refine ⟨by simp [loadStart], by simp [loadStart, Memory.wf], by simp [loadStart, h.1], by simp [frameInv,
    loadStart], ?_⟩
  have : l.toNat ≠ 0 := fun h => hl (BitVec.eq_of_toNat_eq (by simpa using h))
  simp only [seqInv, loadStart, accept_sq_cmd, e1, e2, e4]
  refine ⟨trivial, ?_, ?_, hf, ?_⟩
  · simp [forgetFrame]
  · show 0 < l.toNat
    omega
  · simp

/-- With BUSY = 0 the invariant gives such a state, whatever word is latched. -/
theorem quiet_of_inv {s : State} (h : StateInv s) (hb : s.busy = false) (w : CmdWord) (rest : List CmdWord) :
    Quiet { s with cmds := rest, sq := { s.sq with cmd := w } } := by
  have hq : s.sq.seq = .idle := by have := mt h.1.2; simp [hb] at this; exact this
  exact ⟨hold_none (s := s) h (by simp [hq]), h.2.1, (frameInv_rest (s := s) (by simp [hq])).1 h.2.2.2.1⟩

/-- Under the rules of its environment, a byte step is never stuck. -/
theorem byteStep_not_stuck {s : State} {f : Fault} (h : StateInv s) (e : environmentKeepsRules s) :
    byteStep s ≠ .stuck f := by
  intro hm
  rcases byteStep_cases s with h' | h' | h' | h' | h' | h' <;> rw [h'.2] at hm
  · cases hm
  · exact e.1 (parseStep_stuck hm)
  · unfold headerStep at hm
    split at hm
    · exact e.2 (txPush_stuck hm)
    · cases hm
  · unfold payloadStep at hm
    split at hm
    · exact e.2 (txPush_stuck hm)
    · next hp =>
      have hs := h.2.2.2.2
      simp only [seqInv, h'.1] at hs
      have hf := h.2.2.2.1
      simp only [frameInv, hs.2.1, if_true] at hf
      simp [pbufHas] at hp
      omega
  · exact maskStep_ne_stuck hm
  · unfold loadStep at hm
    split at hm
    · split at hm <;> cases hm
    · next hp =>
      have hs := h.2.2.2.2
      simp only [seqInv, h'.1] at hs
      simp [pbufHas] at hp
      omega

/-- A byte step keeps frames host-built. -/
theorem byteStep_keeps_hostBuilt {s t : State} (h : frameHostBuilt s)
    (hm : byteStep s = .moved t) : frameHostBuilt t := by
  have key : ∀ u : State, u.fr.valid = false → frameHostBuilt u := fun u hu hv => by simp [hu] at hv
  have same : ∀ u : State, u.fr = s.fr → frameHostBuilt u := fun u hu => by unfold frameHostBuilt; rw [hu]; exact h
  rcases byteStep_cases s with h' | h' | h' | h' | h' | h' <;> rw [h'.2] at hm
  · cases hm
  · rcases parseStep_moved hm with ⟨b, rest, hrx, rfl⟩ | ⟨_, _, rfl⟩ | ⟨e, _, _, rfl⟩ <;> exact same _ (by simp)
  · obtain ⟨b, _, h2⟩ := headerStep_moved hm
    rcases txPush_moved h2 with ⟨rest, ha, rfl⟩ | ⟨e, rest, ha, rfl⟩
    · unfold headerAcked headerDone
      simp only []
      split
      · split
        · split
          · exact key _ (by simp)
          · exact same _ (by simp)
        · exact same _ (by simp)
      · exact same _ (by simp)
    · unfold sendFailed
      split
      · exact key _ (by simp)
      · exact same _ (by simp)
  · obtain ⟨_, h2⟩ := payloadStep_moved hm
    rcases txPush_moved h2 with ⟨rest, ha, rfl⟩ | ⟨e, rest, ha, rfl⟩
    · unfold payloadAcked
      simp only []
      split
      · exact key _ (by simp)
      · exact same _ (by simp)
    · unfold sendFailed
      split
      · exact key _ (by simp)
      · exact same _ (by simp)
  · rcases maskStep_moved hm with ⟨b, rest, hn, hp, rfl⟩ | ⟨b, n, u, hn, hr, hu, rfl⟩
    · exact same _ rfl
    · subst hu; split <;> exact same _ rfl
  · obtain ⟨hb1, b, rest, u, hp, hu, rfl⟩ := loadStep_moved hm
    split
    · intro _; simp
    · subst hu; exact same _ rfl

end Sys2Proof.Machine
end

