-- ==== Sys2Proof/Laws/PerInstr.lean ====
section
/-! SUPPORT. Per-instruction families. EncodedSize: the words of an instruction stand on the port its table row belongs to
and take as many bytes as the row gives (R85, R88, R93). -/

namespace Sys2Proof.Laws.EncodedSize

/-- The bytes a table row gives an instruction on RX; nothing for a row of the command port. -/
def rxBytes : Instr → Option Nat
  | .opcDecode _ => none
  | .opcEncode _ _ _ => none
  | .lenfmtForLength _ => none
  | .lenfmtOfField _ => none
  | .hdrLen _ _ => none
  | .hdrParse => none
  | .hdrFormat _ _ _ _ _ _ _ _ => none
  | .applyMask _ _ => none
  | .frameMessage _ _ => none
  | .frameSetKey _ _ => none
  | .frameFormat => none
  | .frameLen => none
  | .reservedOp0 => none
  | .reservedOp13 => none
  | .reservedOp14 => none
  | .reservedOp15 => none
  | .wireContinue _ _ _ _ => some 1
  | .wireText _ _ _ _ => some 1
  | .wireBinary _ _ _ _ => some 1
  | .wireDrsv3 _ _ _ _ => some 1
  | .wireDrsv4 _ _ _ _ => some 1
  | .wireDrsv5 _ _ _ _ => some 1
  | .wireDrsv6 _ _ _ _ => some 1
  | .wireDrsv7 _ _ _ _ => some 1
  | .wireClose _ _ _ _ => some 1
  | .wirePing _ _ _ _ => some 1
  | .wirePong _ _ _ _ => some 1
  | .wireCrsv11 _ _ _ _ => some 1
  | .wireCrsv12 _ _ _ _ => some 1
  | .wireCrsv13 _ _ _ _ => some 1
  | .wireCrsv14 _ _ _ _ => some 1
  | .wireCrsv15 _ _ _ _ => some 1
  | .hdrH2 _ _ _ _ _ _ => some 2
  | .hdrH6 _ _ _ _ _ _ _ => some 6
  | .hdrH4 _ _ _ _ _ _ => some 4
  | .hdrH8 _ _ _ _ _ _ _ => some 8
  | .hdrH10 _ _ _ _ _ _ => some 10
  | .hdrH14 _ _ _ _ _ _ _ => some 14

/-- The bytes of the words that stand on RX. -/
def sizeOnRx : Encoded → Option Nat
  | .command _ => none
  | .rx bytes => some bytes.length

/-- An instruction's words stand on the port, and take the bytes, that its row gives. -/
def Statement (i : Instr) : Prop := sizeOnRx (encode i) = rxBytes i

theorem opcDecode (opc : BitVec 4) : Statement (.opcDecode opc) := rfl
theorem opcEncode (cls : Bool) (kind : BitVec 2) (opc : BitVec 4) : Statement (.opcEncode cls kind opc) := rfl
theorem lenfmtForLength (len : Len) : Statement (.lenfmtForLength len) := rfl
theorem lenfmtOfField (field : BitVec 7) : Statement (.lenfmtOfField field) := rfl
theorem hdrLen (masked : Bool) (len : Len) : Statement (.hdrLen masked len) := rfl
theorem hdrParse : Statement .hdrParse := rfl
theorem hdrFormat (fin rsv1 rsv2 rsv3 : Bool) (opc : BitVec 4) (masked : Bool) (key : Key) (len : Len) : Statement (.hdrFormat fin rsv1 rsv2 rsv3 opc masked key len) := rfl
theorem applyMask (key : Key) (len : Len) : Statement (.applyMask key len) := rfl
theorem frameMessage (opc : BitVec 4) (len : Len) : Statement (.frameMessage opc len) := rfl
theorem frameSetKey (masked : Bool) (key : Key) : Statement (.frameSetKey masked key) := rfl
theorem frameFormat : Statement .frameFormat := rfl
theorem frameLen : Statement .frameLen := rfl
theorem reservedOp0 : Statement .reservedOp0 := rfl
theorem reservedOp13 : Statement .reservedOp13 := rfl
theorem reservedOp14 : Statement .reservedOp14 := rfl
theorem reservedOp15 : Statement .reservedOp15 := rfl
theorem wireContinue (fin rsv1 rsv2 rsv3 : Bool) : Statement (.wireContinue fin rsv1 rsv2 rsv3) := rfl
theorem wireText (fin rsv1 rsv2 rsv3 : Bool) : Statement (.wireText fin rsv1 rsv2 rsv3) := rfl
theorem wireBinary (fin rsv1 rsv2 rsv3 : Bool) : Statement (.wireBinary fin rsv1 rsv2 rsv3) := rfl
theorem wireDrsv3 (fin rsv1 rsv2 rsv3 : Bool) : Statement (.wireDrsv3 fin rsv1 rsv2 rsv3) := rfl
theorem wireDrsv4 (fin rsv1 rsv2 rsv3 : Bool) : Statement (.wireDrsv4 fin rsv1 rsv2 rsv3) := rfl
theorem wireDrsv5 (fin rsv1 rsv2 rsv3 : Bool) : Statement (.wireDrsv5 fin rsv1 rsv2 rsv3) := rfl
theorem wireDrsv6 (fin rsv1 rsv2 rsv3 : Bool) : Statement (.wireDrsv6 fin rsv1 rsv2 rsv3) := rfl
theorem wireDrsv7 (fin rsv1 rsv2 rsv3 : Bool) : Statement (.wireDrsv7 fin rsv1 rsv2 rsv3) := rfl
theorem wireClose (fin rsv1 rsv2 rsv3 : Bool) : Statement (.wireClose fin rsv1 rsv2 rsv3) := rfl
theorem wirePing (fin rsv1 rsv2 rsv3 : Bool) : Statement (.wirePing fin rsv1 rsv2 rsv3) := rfl
theorem wirePong (fin rsv1 rsv2 rsv3 : Bool) : Statement (.wirePong fin rsv1 rsv2 rsv3) := rfl
theorem wireCrsv11 (fin rsv1 rsv2 rsv3 : Bool) : Statement (.wireCrsv11 fin rsv1 rsv2 rsv3) := rfl
theorem wireCrsv12 (fin rsv1 rsv2 rsv3 : Bool) : Statement (.wireCrsv12 fin rsv1 rsv2 rsv3) := rfl
theorem wireCrsv13 (fin rsv1 rsv2 rsv3 : Bool) : Statement (.wireCrsv13 fin rsv1 rsv2 rsv3) := rfl
theorem wireCrsv14 (fin rsv1 rsv2 rsv3 : Bool) : Statement (.wireCrsv14 fin rsv1 rsv2 rsv3) := rfl
theorem wireCrsv15 (fin rsv1 rsv2 rsv3 : Bool) : Statement (.wireCrsv15 fin rsv1 rsv2 rsv3) := rfl
theorem hdrH2 (fin rsv1 rsv2 rsv3 : Bool) (opc : BitVec 4) (len : BitVec 7) : Statement (.hdrH2 fin rsv1 rsv2 rsv3 opc len) := rfl
theorem hdrH6 (fin rsv1 rsv2 rsv3 : Bool) (opc : BitVec 4) (len : BitVec 7) (key : Key) : Statement (.hdrH6 fin rsv1 rsv2 rsv3 opc len key) := rfl
theorem hdrH4 (fin rsv1 rsv2 rsv3 : Bool) (opc : BitVec 4) (len : BitVec 16) : Statement (.hdrH4 fin rsv1 rsv2 rsv3 opc len) := rfl
theorem hdrH8 (fin rsv1 rsv2 rsv3 : Bool) (opc : BitVec 4) (len : BitVec 16) (key : Key) : Statement (.hdrH8 fin rsv1 rsv2 rsv3 opc len key) := rfl
theorem hdrH10 (fin rsv1 rsv2 rsv3 : Bool) (opc : BitVec 4) (len : BitVec 64) : Statement (.hdrH10 fin rsv1 rsv2 rsv3 opc len) := rfl
theorem hdrH14 (fin rsv1 rsv2 rsv3 : Bool) (opc : BitVec 4) (len : BitVec 64) (key : Key) : Statement (.hdrH14 fin rsv1 rsv2 rsv3 opc len key) := rfl

end Sys2Proof.Laws.EncodedSize
end

