-- ==== Sys2Proof/Laws/Streams.lean ====
section
/-! SUPPORT. What every byte step does to the streams: bytes are taken from the front, appended at the end,
and nothing else -/

namespace Sys2Proof.Machine

/-- The streams have only moved on, and the host's side and the parameters are as before. -/
def MovedOn (s t : State) : Prop := (∃ taken, s.io.rx = taken ++ t.io.rx) ∧ (∃ taken, s.io.pin = taken ++ t.io.pin) ∧
    (∃ sent, t.io.tx = s.io.tx ++ sent) ∧ (∃ sent, t.io.pout = s.io.pout ++ sent) ∧ t.io.rxEnd = s.io.rxEnd ∧
      (∃ used, s.io.txAnswers = used ++ t.io.txAnswers) ∧
    t.params = s.params ∧ t.cmds = s.cmds ∧ t.rstEdges = s.rstEdges

theorem MovedOn.refl (s : State) : MovedOn s s := ⟨⟨[], rfl⟩, ⟨[], rfl⟩, ⟨[], by simp⟩, ⟨[], by simp⟩, rfl, ⟨[],
    rfl⟩, rfl, rfl, rfl⟩

theorem MovedOn.trans {s t u : State} : MovedOn s t → MovedOn t u → MovedOn s u := by
  rintro ⟨⟨a, ha⟩, ⟨b, hb⟩, ⟨c, hc⟩, ⟨d, hd⟩, he, ⟨f, hf⟩, hg, hh, hi⟩ ⟨⟨a', ha'⟩, ⟨b', hb'⟩, ⟨c', hc'⟩, ⟨d', hd'⟩,
    he', ⟨f', hf'⟩, hg', hh', hi'⟩
  exact ⟨⟨a ++ a', by rw [ha, ha', List.append_assoc]⟩, ⟨b ++ b', by rw [hb, hb', List.append_assoc]⟩, ⟨c ++ c',
    by rw [hc', hc, List.append_assoc]⟩,
    ⟨d ++ d', by rw [hd', hd, List.append_assoc]⟩, he'.trans he, ⟨f ++ f', by rw [hf, hf', List.append_assoc]⟩,
      hg'.trans hg, hh'.trans hh, hi'.trans hi⟩

theorem MovedOn.same {s t : State} (h1 : t.io = s.io) (h2 : t.params = s.params) (h3 : t.cmds = s.cmds)
    (h4 : t.rstEdges = s.rstEdges) : MovedOn s t := by
  refine ⟨⟨[], by simp [h1]⟩, ⟨[], by simp [h1]⟩, ⟨[], by simp [h1]⟩, ⟨[], by simp [h1]⟩, by rw [h1], ⟨[],
    by simp [h1]⟩, h2, h3, h4⟩

theorem MovedOn.acked {s t : State} {b : Byte} {rest : List TxAnswer} (h : s.io.txAnswers = .ack :: rest)
    (h1 : t.io = { s.io with tx := s.io.tx ++ [b], txAnswers := rest }) (h2 : t.params = s.params)
      (h3 : t.cmds = s.cmds) (h4 : t.rstEdges = s.rstEdges) : MovedOn s t := by
  refine ⟨⟨[], by simp [h1]⟩, ⟨[], by simp [h1]⟩, ⟨[b], by simp [h1]⟩, ⟨[], by simp [h1]⟩, by rw [h1], ⟨[.ack],
    by simp [h1, h]⟩, h2, h3, h4⟩

theorem MovedOn.failed {s t : State} {e : Byte} {rest : List TxAnswer} (h : s.io.txAnswers = .fail e :: rest)
    (h1 : t.io = { s.io with txAnswers := rest }) (h2 : t.params = s.params) (h3 : t.cmds = s.cmds)
      (h4 : t.rstEdges = s.rstEdges) : MovedOn s t := by
  refine ⟨⟨[], by simp [h1]⟩, ⟨[], by simp [h1]⟩, ⟨[], by simp [h1]⟩, ⟨[], by simp [h1]⟩, by rw [h1], ⟨[.fail e],
    by simp [h1, h]⟩, h2, h3, h4⟩

/-- A byte step only moves the streams on. -/
theorem byteStep_movedOn {s t : State} (hm : byteStep s = .moved t) : MovedOn s t := by
  rcases byteStep_cases s with h' | h' | h' | h' | h' | h' <;> rw [h'.2] at hm
  · cases hm
  · rcases parseStep_moved hm with ⟨b, rest, hrx, rfl⟩ | ⟨_, _, rfl⟩ | ⟨e, _, _, rfl⟩
    · refine ⟨⟨[b], by simp [hrx]⟩, ⟨[], by simp⟩, ⟨[], by simp⟩, ⟨[], by simp⟩, by simp, ⟨[], by simp⟩, by simp,
        by simp, by simp⟩
    · exact MovedOn.same rfl rfl rfl rfl
    · exact MovedOn.same rfl rfl rfl rfl
  · obtain ⟨b, _, h2⟩ := headerStep_moved hm
    rcases txPush_moved h2 with ⟨rest, ha, rfl⟩ | ⟨e, rest, ha, rfl⟩
    · exact MovedOn.acked (b := b) ha (by simp) (by simp) (by simp) (by simp)
    · exact MovedOn.failed ha (by simp) (by simp) (by simp) (by simp)
  · obtain ⟨_, h2⟩ := payloadStep_moved hm
    rcases txPush_moved h2 with ⟨rest, ha, rfl⟩ | ⟨e, rest, ha, rfl⟩
    · exact MovedOn.acked (b := payloadByte s) ha (by simp) (by simp) (by simp) (by simp)
    · exact MovedOn.failed ha (by simp) (by simp) (by simp) (by simp)
  · rcases maskStep_moved hm with ⟨b, rest, hn, hp, rfl⟩ | ⟨b, n, u, hn, hr, hu, rfl⟩
    · refine ⟨⟨[], by simp⟩, ⟨[b], by simp [hp]⟩, ⟨[], by simp⟩, ⟨[], by simp⟩, rfl, ⟨[], by simp⟩, rfl, rfl, rfl⟩
    · subst hu; split <;> exact ⟨⟨[], by simp⟩, ⟨[], by simp⟩, ⟨[], by simp⟩, ⟨[_], rfl⟩, rfl, ⟨[], by simp⟩, rfl,
        rfl, rfl⟩
  · obtain ⟨hb1, b, rest, u, hp, hu, rfl⟩ := loadStep_moved hm
    subst hu; split <;> exact ⟨⟨[], by simp⟩, ⟨[b], by simp [hp]⟩, ⟨[], by simp⟩, ⟨[], by simp⟩, rfl, ⟨[],
      by simp⟩, rfl, rfl, rfl⟩

/-- An environment that keeps its rules goes on keeping them. -/
theorem MovedOn.env {s t : State} (h : MovedOn s t) (e : environmentKeepsRules s) : environmentKeepsRules t := by
  obtain ⟨_, _, _, _, he, ⟨f, hf⟩, _⟩ := h
  refine ⟨by rw [he]; exact e.1, fun hx => e.2 (by rw [hf]; exact List.mem_append_right _ hx)⟩

/-- Going on only moves the streams on. -/
theorem proceed_movedOn {s t : State} (h : proceed s = .next t) : MovedOn s t :=
  proceed_keeps (P := MovedOn s) (fun _ _ hs hm => hs.trans (byteStep_movedOn hm)) (MovedOn.refl s) h

end Sys2Proof.Machine
end

