-- ==== Sys2Proof/Laws/Pieces.lean ====
section
/-! SUPPORT. Changing the streams under an operation in progress: what does not read a stream commutes with replacing them,
and supplying more before or after an operation has gone as far as it can is the same. -/

namespace Sys2Proof.Machine

/-- The streams, replaced. -/
def withIo (g : Streams) (s : State) : State := { s with io := g }

theorem finishParse_withIo (g : Streams) (s : State) : finishParse (withIo g s) = withIo g (finishParse s) := by
  rcases s with ⟨_, _, ⟨_, _, _, _, _, _, _, _, _, m, _, _, _, _, _, _, _⟩, _, _, _, _, _, _, _⟩
  cases m <;> rfl

theorem afterLength_withIo (g : Streams) (s : State) : afterLength (withIo g s) = withIo g (afterLength s) := by
  unfold afterLength
  by_cases h : s.res.masked = true
  · rw [if_pos h, if_pos (by exact h)]; rfl
  · rw [if_neg h, if_neg (by exact h)]; exact finishParse_withIo g s

theorem parseByte_withIo (g : Streams) (b : Byte) (s : State) : parseByte b (withIo g s) = withIo g (parseByte b s) := by
  unfold parseByte
  rw [show (withIo g s).sq.seq = s.sq.seq from rfl]
  split
  · rfl
  · unfold takeFixedByte1
    simp only []
    rcases formatOfField_cases (byte1Field b) with ⟨_, e⟩ | ⟨_, e⟩ | ⟨_, e⟩ <;> rw [e] <;> simp only []
    · exact afterLength_withIo g { s with res := { s.res with masked := byte1Mask b, len := (byte1Field b).setWidth 64 }, sq := { s.sq with pos := 2 } }
    · rfl
    · rfl
  · let u : State := { s with res := { s.res with len := shiftIn s.res.len b }, sq := { s.sq with pos := s.sq.pos + 1, rem := s.sq.rem - 1 } }
    show (if s.sq.rem - 1 = 0 then afterLength (withIo g u) else withIo g u) = withIo g (if s.sq.rem - 1 = 0 then afterLength u else u)
    by_cases h : s.sq.rem - 1 = 0
    · rw [if_pos h, if_pos h]; exact afterLength_withIo g u
    · rw [if_neg h, if_neg h]
  · let u : State := { s with res := { s.res with key := setKeyByte (4 - s.sq.rem.toNat) b s.res.key }, sq := { s.sq with pos := s.sq.pos + 1, rem := s.sq.rem - 1 } }
    show (if s.sq.rem - 1 = 0 then finishParse (withIo g u) else withIo g u) = withIo g (if s.sq.rem - 1 = 0 then finishParse u else u)
    by_cases h : s.sq.rem - 1 = 0
    · rw [if_pos h, if_pos h]; exact finishParse_withIo g u
    · rw [if_neg h, if_neg h]
  · rfl

theorem headerDone_withIo (g : Streams) (s : State) : headerDone (withIo g s) = withIo g (headerDone s) := by
  unfold headerDone
  by_cases h : sendsFrame s = true
  · rw [if_pos h, if_pos (by exact h)]
    by_cases hz : s.fr.plen = 0
    · rw [if_pos hz, if_pos (by exact hz)]; rfl
    · rw [if_neg hz, if_neg (by exact hz)]; rfl
  · rw [if_neg h, if_neg (by exact h)]; rfl

theorem headerAcked_withIo (g : Streams) (s : State) : headerAcked (withIo g s) = withIo g (headerAcked s) := by
  unfold headerAcked
  rw [show headerBytes (withIo g s) = headerBytes s from rfl]
  by_cases h : s.sq.pos.toNat + 1 = (headerBytes s).length
  · simp only [withIo, h, decide_true, if_true]
    exact headerDone_withIo g { s with sq := { s.sq with pos := s.sq.pos + 1 } }
  · simp only [withIo, h, decide_false]
    rfl

theorem payloadAcked_withIo (g : Streams) (s : State) : payloadAcked (withIo g s) = withIo g (payloadAcked s) := by
  let u : State := { s with sq := { s.sq with pidx := s.sq.pidx + 1 } }
  show (if s.sq.pidx + 1 = s.fr.plen then finishOk (forgetFrame (withIo g u)) else withIo g u) =
    withIo g (if s.sq.pidx + 1 = s.fr.plen then finishOk (forgetFrame u) else u)
  by_cases h : s.sq.pidx + 1 = s.fr.plen
  · rw [if_pos h, if_pos h]; rfl
  · rw [if_neg h, if_neg h]

theorem sendFailed_withIo (g : Streams) (e : Byte) (s : State) : sendFailed e (withIo g s) = withIo g (sendFailed e s) := by
  unfold sendFailed
  by_cases h : sendsFrame s = true
  · rw [if_pos h, if_pos (by exact h)]; rfl
  · rw [if_neg h, if_neg (by exact h)]; rfl

/-- If a change `E` of the environment commutes with every byte step, it commutes with running as far as possible. -/
theorem proceed_pieces (I : State → Prop) (E : State → State) (hI : ∀ s u, I s → byteStep s = .moved u → I u)
    (hE : ∀ s u, I s → byteStep s = .moved u → byteStep (E s) = .moved (E u)) {s t : State} (hs : I s) (h : proceed s = .next t) : proceed (E t) = proceed (E s) := by
  have := proceed_induction (P := fun s o => I s → ∀ t, o = .next t → proceed (E t) = proceed (E s))
    (fun s _ _ t e => by cases e; rfl) (fun s f _ _ t e => by cases e) (fun s u hm ih hi t e => (ih (hI s u hi hm) t e).trans (proceed_moved (hE s u hi hm)).symm) s
  exact this hs t h

/-- When a change `f` of the streams commutes with each kind of transfer, it commutes with a byte step. -/
theorem byteStep_withIo (f : Streams → Streams) (I : State → Prop)
    (rx : ∀ s b rest, I s → s.io.rx = b :: rest →
      (f s.io).rx = b :: (f { s.io with rx := rest }).rx ∧
      f { s.io with rx := rest } = { f s.io with rx := (f { s.io with rx := rest }).rx })
    (ends : ∀ s, I s → s.io.rx = [] → s.io.rxEnd ≠ none → (f s.io).rx = [] ∧ (f s.io).rxEnd = s.io.rxEnd)
    (tx : ∀ s a rest, I s → s.io.txAnswers = a :: rest →
      (f s.io).txAnswers = a :: (f { s.io with txAnswers := rest }).txAnswers)
    (txa : ∀ s a rest b, I s → s.io.txAnswers = a :: rest →
      f { s.io with tx := s.io.tx ++ [b], txAnswers := rest } =
        { f s.io with tx := (f s.io).tx ++ [b], txAnswers := (f { s.io with txAnswers := rest }).txAnswers })
    (txf : ∀ s a rest, I s → s.io.txAnswers = a :: rest →
      f { s.io with txAnswers := rest } =
        { f s.io with txAnswers := (f { s.io with txAnswers := rest }).txAnswers })
    (pin : ∀ s b rest, I s → s.io.pin = b :: rest →
      (f s.io).pin = b :: (f { s.io with pin := rest }).pin ∧
      f { s.io with pin := rest } = { f s.io with pin := (f { s.io with pin := rest }).pin })
    (pout : ∀ s n b, I s → s.io.poutReady = n + 1 →
      ∃ m, (f s.io).poutReady = m + 1 ∧
        f { s.io with pout := s.io.pout ++ [b], poutReady := n } =
          { f s.io with pout := (f s.io).pout ++ [b], poutReady := m }) :
    ∀ s u, I s → byteStep s = .moved u → byteStep (withIo (f s.io) s) = .moved (withIo (f u.io) u) := by
  intro s u hi hm
  have hq : (withIo (f s.io) s).sq.seq = s.sq.seq := rfl
  rcases byteStep_cases s with h' | h' | h' | h' | h' | h' <;> rw [h'.2] at hm
  · cases hm
  · rw [byteStep_parsing (by exact h'.1)]
    rcases parseStep_moved hm with ⟨b, rest, hrx, rfl⟩ | ⟨hx, e, rfl⟩ | ⟨e, hx, e', rfl⟩
    · obtain ⟨h1, h2⟩ := rx s b rest hi hrx
      unfold parseStep
      simp only [withIo, h1]
      have e1 := parseByte_withIo { f s.io with rx := (f { s.io with rx := rest }).rx } b s
      have e2 := parseByte_withIo { s.io with rx := rest } b s
      simp only [withIo] at e1 e2
      rw [e1, e2]
      simp only [← h2]
    · obtain ⟨h1, h2⟩ := ends s hi hx (by rw [e]; simp)
      unfold parseStep
      simp only [withIo, h1, h2, e]
      rfl
    · obtain ⟨h1, h2⟩ := ends s hi hx (by rw [e']; simp)
      unfold parseStep
      simp only [withIo, h1, h2, e']
      rfl
  · rw [byteStep_sHdr (by exact h'.1)]
    obtain ⟨b, hb, h2⟩ := headerStep_moved hm
    unfold headerStep
    rw [show headerBytes (withIo (f s.io) s) = headerBytes s from rfl, show (withIo (f s.io) s).sq = s.sq from rfl, hb]
    simp only []
    rcases txPush_moved h2 with ⟨rest, ha, rfl⟩ | ⟨e, rest, ha, rfl⟩
    · unfold txPush
      simp only [withIo, tx s _ rest hi ha]
      have e1 := headerAcked_withIo { f s.io with tx := (f s.io).tx ++ [b], txAnswers := (f { s.io with txAnswers := rest }).txAnswers } s
      have e2 := headerAcked_withIo { s.io with tx := s.io.tx ++ [b], txAnswers := rest } s
      simp only [withIo] at e1 e2
      rw [e1, e2]
      simp only [← txa s _ rest b hi ha]
    · unfold txPush
      simp only [withIo, tx s _ rest hi ha]
      have e1 := sendFailed_withIo { f s.io with txAnswers := (f { s.io with txAnswers := rest }).txAnswers } e s
      have e2 := sendFailed_withIo { s.io with txAnswers := rest } e s
      simp only [withIo] at e1 e2
      rw [e1, e2]
      simp only [← txf s _ rest hi ha]
  · rw [byteStep_fPay (by exact h'.1)]
    obtain ⟨hp, h2⟩ := payloadStep_moved hm
    unfold payloadStep
    rw [if_pos (by exact hp)]
    rw [show payloadByte (withIo (f s.io) s) = payloadByte s from rfl]
    rcases txPush_moved h2 with ⟨rest, ha, rfl⟩ | ⟨e, rest, ha, rfl⟩
    · unfold txPush
      simp only [withIo, tx s _ rest hi ha]
      have e1 := payloadAcked_withIo { f s.io with tx := (f s.io).tx ++ [payloadByte s], txAnswers := (f { s.io with txAnswers := rest }).txAnswers } s
      have e2 := payloadAcked_withIo { s.io with tx := s.io.tx ++ [payloadByte s], txAnswers := rest } s
      simp only [withIo] at e1 e2
      rw [e1, e2]
      simp only [← txa s _ rest (payloadByte s) hi ha]
    · unfold txPush
      simp only [withIo, tx s _ rest hi ha]
      have e1 := sendFailed_withIo { f s.io with txAnswers := (f { s.io with txAnswers := rest }).txAnswers } e s
      have e2 := sendFailed_withIo { s.io with txAnswers := rest } e s
      simp only [withIo] at e1 e2
      rw [e1, e2]
      simp only [← txf s _ rest hi ha]
  · rw [byteStep_mRun (by exact h'.1)]
    rcases maskStep_moved hm with ⟨b, rest, hn, hp, rfl⟩ | ⟨b, n, u, hn, hr, hu, rfl⟩
    · obtain ⟨h1, h2⟩ := pin s b rest hi hp
      unfold maskStep
      simp only [withIo, hn, h1]
      rw [← h2]
    · obtain ⟨m, h1, h2⟩ := pout s n (b ^^^ keyByte (cmdKey s.sq.cmd) s.sq.pidx.toNat) hi hr
      unfold maskStep
      subst hu
      simp only [withIo, hn, h1]
      by_cases h : s.sq.pidx + 1 = cmdLen s.sq.cmd
      · erw [if_pos h, if_pos h]; simp only [finishOk_io, h2]; rfl
      · erw [if_neg h, if_neg h]; simp only [h2]
  · rw [byteStep_lRun (by exact h'.1)]
    obtain ⟨hb1, b, rest, u, hp, hu, rfl⟩ := loadStep_moved hm
    obtain ⟨h1, h2⟩ := pin s b rest hi hp
    unfold loadStep
    rw [if_pos (by exact hb1)]
    subst hu
    simp only [withIo, h1]
    by_cases h : s.sq.pidx + 1 = cmdLen s.sq.cmd
    · erw [if_pos h, if_pos h]; simp only [frameLoaded_io]; rw [h2]; rfl
    · erw [if_neg h, if_neg h]; simp only []; rw [h2]

end Sys2Proof.Machine
end

