-- ==== Sys2Proof/Laws/Results.lean ====
section
/-! SUPPORT. Which result registers an operation in progress moves. -/

namespace Sys2Proof.Machine

/-- `u` is an operation from `s` that is no HDR_PARSE: of the result bank only the status, and R_ERRINFO by a write
failure, have moved. -/
def Kept (s u : State) : Prop :=
  ∃ c e, u.res = { s.res with status := c, errinfo := e } ∧
    (u.sq.seq = .idle → e = s.res.errinfo ∨ c = .errIoWr) ∧ (u.sq.seq ≠ .idle → e = s.res.errinfo) ∧
    parsing u.sq.seq = false

theorem Kept.step {s u v : State} (h : Kept s u) (hm : byteStep u = .moved v) : Kept s v := by
  obtain ⟨c, e, hr, h1, h2, h3⟩ := h
  have fin : ∀ w : State, w.res = u.res → u.sq.seq ≠ .idle → Kept s (finishOk w) := by
    intro w hw hne
    exact ⟨.ok, e, by simp [finishOk, raise, hw, hr], fun _ => .inl (h2 hne), fun h => absurd rfl h, rfl⟩
  have fail : ∀ (w : State) x, w.res = u.res → Kept s (raise .errIoWr (some x) w) := by
    intro w x hw
    exact ⟨.errIoWr, x, by simp [raise, hw, hr], fun _ => .inr rfl, fun h => absurd rfl h, rfl⟩
  have mv : ∀ (w : State), w.res = u.res → u.sq.seq ≠ .idle → w.sq.seq ≠ .idle → parsing w.sq.seq = false → Kept s w := by
    intro w hw hne hne' hp
    exact ⟨c, e, by rw [hw, hr], fun h => absurd h hne', fun _ => h2 hne, hp⟩
  rcases byteStep_cases u with h' | h' | h' | h' | h' | h'
  · rw [h'.2] at hm; cases hm
  · rw [h'.1] at h3; cases h3
  · have hne : u.sq.seq ≠ .idle := by rw [h'.1]; decide
    rw [h'.2] at hm
    obtain ⟨b, _, hp⟩ := headerStep_moved hm
    rcases txPush_moved hp with ⟨rest, ha, rfl⟩ | ⟨x, rest, ha, rfl⟩
    · unfold headerAcked headerDone
      simp only []
      split
      · split
        · split
          · exact fin _ rfl hne
          · exact mv _ rfl hne (by simp) rfl
        · exact fin _ rfl hne
      · exact mv _ rfl hne (by simpa using hne) (by simpa using h3)
    · unfold sendFailed
      apply fail; split <;> rfl
  · have hne : u.sq.seq ≠ .idle := by rw [h'.1]; decide
    rw [h'.2] at hm
    obtain ⟨_, hp⟩ := payloadStep_moved hm
    rcases txPush_moved hp with ⟨rest, ha, rfl⟩ | ⟨x, rest, ha, rfl⟩
    · unfold payloadAcked
      simp only []
      split
      · exact fin _ rfl hne
      · exact mv _ rfl hne (by simpa using hne) (by simpa using h3)
    · unfold sendFailed
      apply fail; split <;> rfl
  · have hne : u.sq.seq ≠ .idle := by rw [h'.1]; decide
    rw [h'.2] at hm
    rcases maskStep_moved hm with ⟨b, rest, hn, hp', rfl⟩ | ⟨b, n, w, hn, hr, hu, rfl⟩
    · exact mv _ rfl hne (by simpa using hne) (by simpa using h3)
    · subst hu; split
      · exact fin _ rfl hne
      · exact mv _ rfl hne (by simpa using hne) (by simpa using h3)
  · have hne : u.sq.seq ≠ .idle := by rw [h'.1]; decide
    rw [h'.2] at hm
    obtain ⟨hb1, b, rest, w, hp, hu, rfl⟩ := loadStep_moved hm
    subst hu; split
    · exact fin _ rfl hne
    · exact mv _ rfl hne (by simpa using hne) (by simpa using h3)

/-- `u` is a HDR_PARSE from `s`: of the result bank only the status, the header registers and, by a read failure, R_ERRINFO
have moved. -/
def ParseKept (s u : State) : Prop :=
  ∃ c e,
    { u.res with
      fin := s.res.fin, rsv1 := s.res.rsv1, rsv2 := s.res.rsv2, rsv3 := s.res.rsv3, opc := s.res.opc, cls := s.res.cls
      kind := s.res.kind, masked := s.res.masked, key := s.res.key, len := s.res.len, overcap := s.res.overcap } =
        { s.res with status := c, errinfo := e } ∧
    (u.sq.seq = .idle → e = s.res.errinfo ∨ c = .errIoRd) ∧ (u.sq.seq ≠ .idle → e = s.res.errinfo) ∧
    (parsing u.sq.seq = true ∨ u.sq.seq = .idle)

theorem ParseKept.step {s u v : State} (h : ParseKept s u) (hm : byteStep u = .moved v) : ParseKept s v := by
  obtain ⟨c, e, hr, h1, h2, h3⟩ := h
  rcases h3 with h3 | h3
  swap
  · rw [byteStep_idle h3] at hm; cases hm
  have hne : u.sq.seq ≠ .idle := by intro h; rw [h] at h3; cases h3
  rw [byteStep_parsing h3] at hm
  rcases parseStep_moved hm with ⟨b, rest, hrx, rfl⟩ | ⟨hx, _, rfl⟩ | ⟨e9, hx, e', rfl⟩
  · have fin : ∀ w : State, w.res.errinfo = u.res.errinfo → sameFormatRegisters u w → ParseKept s (finishParse w) := by
      intro w hw hs
      simp at hr
      refine ⟨.ok, e, ?_, fun _ => .inl (h2 hne), by simp, .inr (by simp)⟩
      simp [sameFormatRegisters] at hs
      simp [hw, hs, hr]
    have mv : ∀ (w : State), w.res.errinfo = u.res.errinfo → w.res.status = u.res.status →  sameFormatRegisters u w → parsing w.sq.seq = true → ParseKept s w := by
      intro w hw hw' hs hp
      simp at hr
      refine ⟨c, e, ?_, ?_, fun _ => h2 hne, .inl hp⟩
      · simp [sameFormatRegisters] at hs; simp [hw, hs, hr, hw']
      · intro h; rw [h] at hp; cases hp
    have aft : ∀ w : State, w.res.errinfo = u.res.errinfo → w.res.status = u.res.status →  sameFormatRegisters u w → ParseKept s (afterLength w) := by
      intro w a b c
      unfold afterLength
      split
      · exact mv _ a b c rfl
      · exact fin _ a c
    unfold parseByte
    split
    · exact mv _ rfl rfl ⟨rfl, rfl, rfl, rfl⟩ rfl
    · unfold takeFixedByte1; simp only []; split
      · exact aft _ rfl rfl ⟨rfl, rfl, rfl, rfl⟩
      · exact mv _ rfl rfl ⟨rfl, rfl, rfl, rfl⟩ rfl
      · exact mv _ rfl rfl ⟨rfl, rfl, rfl, rfl⟩ rfl
    · unfold takeExtByte; simp only []; split
      · exact aft _ rfl rfl ⟨rfl, rfl, rfl, rfl⟩
      · exact mv _ rfl rfl ⟨rfl, rfl, rfl, rfl⟩ (by simpa using h3)
    · unfold takeKeyByte; simp only []; split
      · exact fin _ rfl ⟨rfl, rfl, rfl, rfl⟩
      · exact mv _ rfl rfl ⟨rfl, rfl, rfl, rfl⟩ (by simpa using h3)
    · exact mv _ rfl rfl ⟨rfl, rfl, rfl, rfl⟩ (by simpa using h3)
  · simp at hr
    refine ⟨eosOutcome u.sq.seq, e, ?_, fun _ => .inl (h2 hne), by simp [raise], .inr rfl⟩
    simp [forgetHeader, raise, hr]
  · simp at hr
    refine ⟨.errIoRd, e9, ?_, fun _ => .inr rfl, by simp [raise], .inr rfl⟩
    simp [forgetHeader, raise, hr]

end Sys2Proof.Machine
end

