-- ==== Sys2Proof/Tests/Slice0.lean ====
section
/-! SUPPORT. The model's own tests: ill-formed terms refused, words written out from the spec's encodings, one or two small
steps per instruction (expected values from spec/95_test_vectors.md, its vector named in the theorem), and for every
statement with hypotheses a state and operands that meet them. -/

namespace Sys2Proof.Tests

open Sys2Proof Sys2Proof.Machine

/-! ## Helpers -/

/-- The next state, where there is one. -/
def after : Host.Outcome State Fault Refusal → Option State
  | .next s => some s
  | _ => none

/-- The state a step leads to when the host presents a command word. -/
def onWord (w : CmdWord) (s : State) : Option State := after (step (hostPresents w s))

/-- Reset with bytes on RX and what ends them. -/
def rxState (bs : List Byte) (e : Option RxEnd) : State :=
  { State.reset with io := { Streams.empty with rx := bs, rxEnd := e } }

/-- Reset with the TX sink's answers. -/
def txState (as : List TxAnswer) : State := { State.reset with io := { Streams.empty with txAnswers := as } }

/-- Reset with bytes on PIN and a host that takes as many from POUT. -/
def pinState (bs : List Byte) (n : Nat) : State :=
  { State.reset with io := { Streams.empty with pin := bs, poutReady := n } }

/-- A state with a host-built frame in FR and its payload in PBUF. -/
def frameState (opc : BitVec 4) (masked : Bool) (key : Key) (bs : List Byte) (as : List TxAnswer) : State :=
  { txState as with
    fr := { valid := true, fin := true, rsv1 := false, rsv2 := false, rsv3 := false, opc := opc, masked := masked,
            key := key, plen := BitVec.ofNat 64 bs.length }
    pbuf := (List.range bs.length).zip bs }

/-- "Hello". -/
def hello : List Byte := [0x48, 0x65, 0x6c, 0x6c, 0x6f]

/-! ## WellFormed: the one check, and terms it refuses -/

theorem test_wellFormed_refuses_H2_126 : wellFormed (.hdrH2 true false false false 1 126) = false := by decide
theorem test_wellFormed_refuses_H2_127 : wellFormed (.hdrH2 true false false false 1 127) = false := by decide
theorem test_wellFormed_refuses_H6_126 : wellFormed (.hdrH6 true false false false 1 126 0) = false := by decide
theorem test_wellFormed_refuses_H6_127 : wellFormed (.hdrH6 true false false false 1 127 0) = false := by decide
theorem test_wellFormed_takes_H2_125 : wellFormed (.hdrH2 true false false false 1 125) = true := by decide
theorem test_wellFormed_takes_H6_125 : wellFormed (.hdrH6 true false false false 1 125 0) = true := by decide

/-! ## Decoding: a word of every constructor, written out from R93, R94, R95 and R81 to R88 -/

theorem test_decode_opcDecode : decodeCommand 0x1090000000000000000000000000 = .opcDecode 9 := by decide
theorem test_decode_opcEncode : decodeCommand 0x20f7000000000000000000000000 = .opcEncode true 3 15 := by decide
theorem test_decode_lenfmtForLength : decodeCommand 0x3000000000000000000000010000 = .lenfmtForLength 65536 := by decide
theorem test_decode_lenfmtOfField : decodeCommand 0x400000000000fffffffffffffffe = .lenfmtOfField 126 := by decide
theorem test_decode_hdrLen : decodeCommand 0x500800000000000000000000012c = .hdrLen true 300 := by decide
theorem test_decode_hdrParse : decodeCommand 0x6000000000000000000000000000 = .hdrParse := by decide
theorem test_decode_hdrFormat : decodeCommand 0x750000000000000000000000007e = .hdrFormat false true false true 0 false 0 126 := by decide
theorem test_decode_hdrFormat_masked : decodeCommand 0x782837fa213d0000000000010000 = .hdrFormat true false false false 2 true 0x37fa213d 65536 := by decide
theorem test_decode_applyMask : decodeCommand 0x8ff737fa213d0000000000000005 = .applyMask 0x37fa213d 5 := by decide
theorem test_decode_frameMessage : decodeCommand 0x90d0000000000000000000000001 = .frameMessage 13 1 := by decide
theorem test_decode_frameSetKey : decodeCommand 0xa00837fa213d0000000000000000 = .frameSetKey true 0x37fa213d := by decide
theorem test_decode_frameFormat : decodeCommand 0xb000000000000000000000000000 = .frameFormat := by decide
theorem test_decode_frameLen : decodeCommand 0xc000000000000000000000000000 = .frameLen := by decide
theorem test_decode_reservedOp0 : decodeCommand 0x0000000000000000000000000000 = .reservedOp0 := by decide
theorem test_decode_reservedOp13 : decodeCommand 0xdfffffffffffffffffffffffffff = .reservedOp13 := by decide
theorem test_decode_reservedOp14 : decodeCommand 0xe000000000000000000000000000 = .reservedOp14 := by decide
theorem test_decode_reservedOp15 : decodeCommand 0xf000000000000000000000000000 = .reservedOp15 := by decide
theorem test_decode_wireContinue : decode (.rx [0x80]) = .ok (.wireContinue true false false false) := by
  decide
theorem test_decode_wireText : decode (.rx [0x01]) = .ok (.wireText false false false false) := by
  decide
theorem test_decode_wireBinary : decode (.rx [0xc2]) = .ok (.wireBinary true true false false) := by
  decide
theorem test_decode_wireDrsv3 : decode (.rx [0x23]) = .ok (.wireDrsv3 false false true false) := by
  decide
theorem test_decode_wireDrsv4 : decode (.rx [0x14]) = .ok (.wireDrsv4 false false false true) := by
  decide
theorem test_decode_wireDrsv5 : decode (.rx [0x45]) = .ok (.wireDrsv5 false true false false) := by
  decide
theorem test_decode_wireDrsv6 : decode (.rx [0xf6]) = .ok (.wireDrsv6 true true true true) := by
  decide
theorem test_decode_wireDrsv7 : decode (.rx [0x97]) = .ok (.wireDrsv7 true false false true) := by
  decide
theorem test_decode_wireClose : decode (.rx [0x88]) = .ok (.wireClose true false false false) := by
  decide
theorem test_decode_wirePing : decode (.rx [0x89]) = .ok (.wirePing true false false false) := by
  decide
theorem test_decode_wirePong : decode (.rx [0x8a]) = .ok (.wirePong true false false false) := by
  decide
theorem test_decode_wireCrsv11 : decode (.rx [0x3b]) = .ok (.wireCrsv11 false false true true) := by
  decide
theorem test_decode_wireCrsv12 : decode (.rx [0x6c]) = .ok (.wireCrsv12 false true true false) := by
  decide
theorem test_decode_wireCrsv13 : decode (.rx [0x5d]) = .ok (.wireCrsv13 false true false true) := by
  decide
theorem test_decode_wireCrsv14 : decode (.rx [0xae]) = .ok (.wireCrsv14 true false true false) := by
  decide
theorem test_decode_wireCrsv15 : decode (.rx [0xff]) = .ok (.wireCrsv15 true true true true) := by
  decide
theorem test_decode_hdrH2 :
    decode (.rx [0x50, 0x7d]) = .ok (.hdrH2 false true false true 0 125) := by decide
theorem test_decode_hdrH6 :
    decode (.rx [0x81, 0x85, 0x37, 0xfa, 0x21, 0x3d]) = .ok (.hdrH6 true false false false 1 5 0x37fa213d) := by decide
theorem test_decode_hdrH4 :
    decode (.rx [0x82, 0x7e, 0x01, 0x2c]) = .ok (.hdrH4 true false false false 2 300) := by decide
theorem test_decode_hdrH8 :
    decode (.rx [0x81, 0xfe, 0x01, 0x00, 0xaa, 0xbb, 0xcc, 0xdd]) = .ok (.hdrH8 true false false false 1 256 0xaabbccdd) := by decide
theorem test_decode_hdrH10 :
    decode (.rx [0x82, 0x7f, 0x80, 0, 0, 0, 0, 1, 0, 2]) = .ok (.hdrH10 true false false false 2 0x8000000000010002) := by decide
theorem test_decode_hdrH14 :
    decode (.rx [0xff, 0xff, 0x01, 0x02, 0x03, 0x04, 0x05, 0x06, 0x07, 0x08, 0x37, 0xfa, 0x21, 0x3d]) = .ok (.hdrH14 true true true true 15 0x0102030405060708 0x37fa213d) := by decide

/-- Byte lists that are no instruction are refused by name. -/
theorem test_decode_refuses :
    decode (.rx []) = .error .noByte ∧ decodeHeader [0x81] = .error .fixedShort ∧
    decodeHeader [0x81, 0x7e, 0x00] = .error .extensionShort ∧
    decodeHeader [0x81, 0xfe, 0x01, 0x00, 0xaa] = .error .keyShort ∧
    decode (.rx [0x81, 0x05, 0x48]) = .error .trailingBytes := by decide

/-- Table words: a command, fixed byte 0, a whole header with its first wire byte most significant, and the word rows
RESERVED_OP_0 and H14 share. -/
theorem test_tableWord :
    decodeTableWord 112 0x1090000000000000000000000000 = some (.opcDecode 9) ∧
    decodeTableWord 8 0x09 = some (.wirePing false false false false) ∧
    decodeTableWord 32 0x827e012c = some (.hdrH4 true false false false 2 300) ∧
    decodeTableWord 112 0 = some .reservedOp0 ∧
    decodeTableWord 112 (255 * 256 ^ 12) = some (.hdrH14 false false false false 0 0 0) := by decide

/-- withFetchWord: the very next step runs the row's instruction, on either port. -/
theorem test_withFetchWord :
    ((after (step (State.reset.withFetchWord 112 0xc000000000000000000000000000))).map fun t => (t.res.status, t.busy)) =
      some (.errNoFrame, false) ∧
    ((after (step (State.reset.withFetchWord 8 0x09))).map fun t => (t.sq.seq, t.res.opc, t.res.kind, t.io.rx)) =
      some (.pFix1, 9, 1, []) ∧
    ((after (step (State.reset.withFetchWord 32 0x827e012c))).map fun t => (t.res.status, t.res.len, t.busy, t.io.rx)) =
      some (.ok, 300, false, []) := by decide

/-! ## Small steps -/

theorem test_V10_opcDecode_ping :
    ((onWord 0x1090000000000000000000000000 (State.reset)).map fun t => (t.res.status, t.res.opc, t.res.cls, t.res.kind, t.busy)) =
      some (.ok, 9, true, 1, false) := by decide
theorem test_V10_opcDecode_reserved7 :
    ((onWord 0x1070000000000000000000000000 (State.reset)).map fun t => (t.res.opc, t.res.cls, t.res.kind)) =
      some (7, false, 3) := by decide
theorem test_V11_opcEncode_pong :
    ((onWord 0x2006000000000000000000000000 (State.reset)).map fun t => (t.res.status, t.res.opc)) =
      some (.ok, 10) := by decide
theorem test_V11_opcEncode_bad :
    ((onWord 0x2087000000000000000000000000 ({ State.reset with res := { ResultBank.reset with opc := 5 } })).map fun t => (t.res.status, t.res.opc)) =
      some (.errBadOpcode, 5) := by decide
theorem test_V20_lenfmtForLength_125 :
    ((onWord 0x300000000000000000000000007d (State.reset)).map fun t => (t.res.fmt, t.res.field, t.res.ext)) =
      some (0, 125, 0) := by decide
theorem test_V3_lenfmtForLength_65536 :
    ((onWord 0x3000000000000000000000010000 (State.reset)).map fun t => (t.res.fmt, t.res.field, t.res.ext)) =
      some (2, 127, 8) := by decide
theorem test_V21_lenfmtOfField_high_bits :
    ((onWord 0x400000000000fffffffffffffffe (State.reset)).map fun t => (t.res.fmt, t.res.field, t.res.ext)) =
      some (1, 126, 2) := by decide
theorem test_V21_lenfmtOfField_127 :
    ((onWord 0x400000000000000000000000007f (State.reset)).map fun t => (t.res.fmt, t.res.field, t.res.ext)) =
      some (2, 127, 8) := by decide
theorem test_V20_hdrLen_masked_65535 :
    ((onWord 0x500800000000000000000000ffff (State.reset)).map fun t => (t.res.status, t.res.cnt)) =
      some (.ok, 8) := by decide
theorem test_V20_hdrLen_65536 :
    ((onWord 0x5000000000000000000000010000 (State.reset)).map fun t => (t.res.cnt)) =
      some (10) := by decide
theorem test_V32g_hdrParse :
    ((onWord 0x6000000000000000000000000000 (rxState [0x81, 0xfe, 0x01, 0x00, 0xaa, 0xbb, 0xcc, 0xdd, 0x99] none)).map fun t => ((t.res.status, t.res.fin, t.res.masked), (t.res.key, t.res.len, t.io.rx))) =
      some ((.ok, true, true), (0xaabbccdd, 256, [0x99])) := by decide
theorem test_V37b_hdrParse_truncated_key :
    ((onWord 0x6000000000000000000000000000 (rxState [0x81, 0x85, 0x37, 0xfa, 0x21] (some .eos))).map fun t => (t.res.status, t.busy, t.io.rx, t.io.rxEnd)) =
      some (.errTruncKey, false, [], some .eos) := by decide
theorem test_V30_hdrFormat_H14 :
    ((onWord 0x782837fa213d0000000000010000 (txState (List.replicate 20 .ack))).map fun t => (t.res.status, t.io.tx)) =
      some (.ok, [0x82, 0xff, 0, 0, 0, 0, 0, 1, 0, 0, 0x37, 0xfa, 0x21, 0x3d]) := by decide
theorem test_V31_hdrFormat_failure :
    ((onWord 0x782837fa213d0000000000010000 (txState (List.replicate 9 .ack ++ [.fail 0x11, .ack]))).map fun t => (t.res.status, t.res.errinfo, t.io.tx, t.io.txAnswers)) =
      some (.errIoWr, 0x11, [0x82, 0xff, 0, 0, 0, 0, 0, 1, 0], [.ack]) := by decide
theorem test_V50_applyMask :
    ((onWord 0x8ff737fa213d0000000000000005 (pinState hello 5)).map fun t => (t.res.status, t.io.pin, t.io.pout, t.sq.hold)) =
      some (.ok, [], [0x7f, 0x9f, 0x4d, 0x51, 0x58], none) := by decide
theorem test_V51_applyMask_nothing :
    ((onWord 0x800037fa213d0000000000000000 (pinState hello 5)).map fun t => (t.res.status, t.io.pin, t.io.pout)) =
      some (.ok, hello, []) := by decide
theorem test_P1_frameMessage :
    ((onWord 0x9010000000000000000000000005 (pinState (hello ++ [0x21]) 0)).map fun t => ((t.res.status, t.fr.valid, t.fr.opc, t.fr.masked), t.fr.plen, t.pbuf.map Prod.snd, t.io.pin)) =
      some ((.ok, true, 1, false), 5, hello, [0x21]) := by decide
theorem test_V61_frameMessage_too_long :
    ((onWord 0x9020000000000000000000010001 (frameState 1 false 0 hello [])).map fun t => (t.res.status, t.fr.valid, t.fr.plen, t.pbuf)) =
      some (.errTooLong, true, 5, [(0, 0x48), (1, 0x65), (2, 0x6c), (3, 0x6c), (4, 0x6f)]) := by decide
theorem test_V62_frameSetKey :
    ((onWord 0xa008a1b2c3d40000000000000000 (frameState 1 true 0x37fa213d hello [])).map fun t => (t.res.status, t.fr.masked, t.fr.key)) =
      some (.ok, true, 0xa1b2c3d4) := by decide
theorem test_V62_frameSetKey_none :
    ((onWord 0xa000ffffffff0000000000000000 (frameState 1 true 0x37fa213d hello [])).map fun t => (t.res.status, t.fr.masked, t.fr.valid)) =
      some (.ok, false, true) := by decide
theorem test_V63_frameFormat_masked :
    ((onWord 0xb000000000000000000000000000 (frameState 1 true 0x37fa213d hello (List.replicate 11 .ack))).map fun t => (t.res.status, t.fr.valid, t.io.tx)) =
      some (.ok, false, [0x81, 0x85, 0x37, 0xfa, 0x21, 0x3d, 0x7f, 0x9f, 0x4d, 0x51, 0x58]) := by decide
theorem test_P4_frameFormat_failure :
    ((onWord 0xb000000000000000000000000000 (frameState 2 false 0 [0xde, 0xad, 0xbe, 0xef] (List.replicate 4 .ack ++ [.fail 0x2a]))).map fun t => (t.res.status, t.res.errinfo, t.fr.valid, t.io.tx)) =
      some (.errIoWr, 0x2a, false, [0x82, 0x04, 0xde, 0xad]) := by decide
theorem test_P2_frameLen_masked :
    ((onWord 0xc000000000000000000000000000 (frameState 1 true 0x37fa213d hello [])).map fun t => (t.res.status, t.res.cnt)) =
      some (.ok, 11) := by decide
theorem test_V60_frameLen_65_bits :
    ((onWord 0xc000000000000000000000000000 ({ State.reset with fr := { FrameRegister.reset with valid := true, masked := true, plen := 0xffffffffffffffff } })).map fun t => (t.res.status, t.res.cnt)) =
      some (.ok, 0x1000000000000000d) := by decide
theorem test_V70_reservedOp0 :
    ((onWord 0x0000000000000000000000000000 (State.reset)).map fun t => (t.res.status, t.busy)) =
      some (.errBadCmd, false) := by decide
theorem test_V70_reservedOp13 :
    ((onWord 0xdfffffffffffffffffffffffffff (State.reset)).map fun t => (t.res.status, t.busy)) =
      some (.errBadCmd, false) := by decide
theorem test_V70_reservedOp14 :
    ((onWord 0xe000000000000000000000000000 (State.reset)).map fun t => (t.res.status, t.busy)) =
      some (.errBadCmd, false) := by decide
theorem test_V70_reservedOp15 :
    ((onWord 0xf000000000000000000000000000 (State.reset)).map fun t => (t.res.status, t.busy)) =
      some (.errBadCmd, false) := by decide

/-- A byte that arrives alone at a HDR_PARSE that waits, for each wire opcode (V10): its class and its kind. -/
def takesByte0 (b : Byte) (cls : Bool) (kind : BitVec 2) : Prop :=
  ((after (exec .hdrParse State.reset)).bind fun t =>
    (after (step (rxDelivers [b] t))).map fun u => (u.sq.seq, u.sq.pos, u.res.cls, u.res.kind, u.busy)) =
    some (.pFix1, 1, cls, kind, true)

theorem test_V10_wireContinue : takesByte0 0x0 false 0 := by unfold takesByte0; decide
theorem test_V10_wireText : takesByte0 0x1 false 1 := by unfold takesByte0; decide
theorem test_V10_wireBinary : takesByte0 0x2 false 2 := by unfold takesByte0; decide
theorem test_V10_wireDrsv3 : takesByte0 0x3 false 3 := by unfold takesByte0; decide
theorem test_V10_wireDrsv4 : takesByte0 0x4 false 3 := by unfold takesByte0; decide
theorem test_V10_wireDrsv5 : takesByte0 0x5 false 3 := by unfold takesByte0; decide
theorem test_V10_wireDrsv6 : takesByte0 0x6 false 3 := by unfold takesByte0; decide
theorem test_V10_wireDrsv7 : takesByte0 0x7 false 3 := by unfold takesByte0; decide
theorem test_V10_wireClose : takesByte0 0x8 true 0 := by unfold takesByte0; decide
theorem test_V10_wirePing : takesByte0 0x9 true 1 := by unfold takesByte0; decide
theorem test_V10_wirePong : takesByte0 0xa true 2 := by unfold takesByte0; decide
theorem test_V10_wireCrsv11 : takesByte0 0xb true 3 := by unfold takesByte0; decide
theorem test_V10_wireCrsv12 : takesByte0 0xc true 3 := by unfold takesByte0; decide
theorem test_V10_wireCrsv13 : takesByte0 0xd true 3 := by unfold takesByte0; decide
theorem test_V10_wireCrsv14 : takesByte0 0xe true 3 := by unfold takesByte0; decide
theorem test_V10_wireCrsv15 : takesByte0 0xf true 3 := by unfold takesByte0; decide

/-- What a HDR_PARSE that waits reports when a whole header arrives (V32). -/
def takesHeader (bs : List Byte) (opc : BitVec 4) (masked : Bool) (len : Len) : Prop :=
  ((after (exec .hdrParse State.reset)).bind fun t =>
    (after (step (rxDelivers bs t))).map fun u => ((u.res.status, u.res.opc, u.res.masked), u.res.len, u.busy, u.io.rx)) =
    some ((.ok, opc, masked), len, false, [])

theorem test_V32a_H2 : takesHeader [0x81, 0x05] 1 false 5 := by
  unfold takesHeader; decide
theorem test_V32c_H6 : takesHeader [0x81, 0x85, 0x37, 0xfa, 0x21, 0x3d] 1 true 5 := by
  unfold takesHeader; decide
theorem test_V32d_H4 : takesHeader [0x82, 0x7e, 0x00, 0x7e] 2 false 126 := by
  unfold takesHeader; decide
theorem test_V32g_H8 : takesHeader [0x81, 0xfe, 0x01, 0x00, 0xaa, 0xbb, 0xcc, 0xdd] 1 true 256 := by
  unfold takesHeader; decide
theorem test_V35_H10 : takesHeader [0x81, 0x7f, 0x80, 0, 0, 0, 0, 0, 0, 0] 1 false 0x8000000000000000 := by
  unfold takesHeader; decide
theorem test_V32h_H14 : takesHeader [0x82, 0xff, 0, 0, 0, 0, 0, 1, 0, 0, 0x37, 0xfa, 0x21, 0x3d] 2 true 65536 := by
  unfold takesHeader; decide

/-- V39: the over-cap flag at the cap and one above it. -/
theorem test_V39_overcap : overcapFlag 65535 65535 = false ∧ overcapFlag 65535 65536 = true := by decide

/-- V72: a reset while a HDR_PARSE waits. -/
theorem test_V72_reset_during_parse :
    ((after (exec .hdrParse (rxState [0x81, 0xfe, 0x01] none))).bind fun t =>
      (after (step (hostResets 1 t))).map fun u =>
        ((t.sq.seq, t.sq.rem, t.busy), u.busy, u.res.status, u.fr.valid, u.io.rx)) =
      some ((.pExt, 1, true), false, .reset, false, []) := by decide

/-- V73: registers a command does not write are held. -/
theorem test_V73_hold :
    ((onWord 0x300000000000000000000000012c State.reset).bind fun t =>
      (onWord 0x1010000000000000000000000000 t).map fun u => (u.res.fmt, u.res.field, u.res.ext, u.res.opc)) =
      some (1, 126, 2, 1) := by decide


/-! ## Witnesses: states and operands that meet the hypotheses of the statements, clause by clause -/

/-- The state after a command word is presented at `s` has this property. -/
def leadsTo (i : Instr) (s : State) (p : State → Prop) : Prop := ∃ t, exec i s = .next t ∧ p t

theorem witness_DecodeEncodeRoundTrip :
    wellFormed (.hdrH6 true false false false 1 125 0x37fa213d) = true ∧ wellFormed .frameLen = true := by decide

theorem witness_HeaderLengthIsSetByFixedByte1 :
    (2 + 4 ≤ ([1, 0, 0xaa, 0xbb, 0xcc, 0xdd] : List Byte).length ∧ (0xfe : Byte).toNat % 128 = 126 ∧
      128 ≤ (0xfe : Byte).toNat) ∧
    (([1] : List Byte).length < 2 ∧ (0x7e : Byte).toNat % 128 = 126) ∧
    (2 ≤ ([1, 0, 0xaa] : List Byte).length ∧ ([1, 0, 0xaa] : List Byte).length < 2 + 4) := by decide

/-- The words with each operation code that a statement speaks of. -/
theorem witness_op :
    cmdOp 0x10f0000000000000000000000000 = 1 ∧ cmdOp 0x2fffffffffffffffffffffffffff = 2 ∧
    cmdOp 0x300000000000ffffffffffffffff = 3 ∧ cmdOp 0x4000000000000000000000000000 = 4 ∧
    cmdOp 0x5008000000000000000000000000 = 5 ∧ cmdOp 0x6fffffffffffffffffffffffffff = 6 ∧
    cmdOp 0x7010000000000000000000000000 = 7 ∧ cmdOp 0x800000000000ffffffffffffffff = 8 ∧
    cmdOp 0x9000000000000000000000000000 = 9 ∧ cmdOp 0xa000ffffffff0000000000000000 = 10 ∧
    cmdOp 0xb000000000000000000000000000 = 11 ∧ cmdOp 0xcfffffffffffffffffffffffffff = 12 := by decide

/-- Different words equal in `op` and in the fields R94 lists: op = 1, op = 4 (bits 6 to 0 of `len`), op = 7 and op = 10 with
`masked` = 0 and different keys. -/
theorem witness_EveryCommandWordDecodes :
    (cmdOp 0x1f9fffffffffffffffffffffffff = cmdOp 0x1090000000000000000000000000 ∧
      cmdOpc 0x1f9fffffffffffffffffffffffff = cmdOpc 0x1090000000000000000000000000) ∧
    (cmdOp 0x40000000000000000000000000fe = cmdOp 0x4fffffffffffffffffffffffff7e ∧
      (cmdLen 0x40000000000000000000000000fe).toNat % 128 = (cmdLen 0x4fffffffffffffffffffffffff7e).toNat % 128) ∧
    (cmdOp 0x7810ffffffff0000000000000005 = 7 ∧ cmdMasked 0x7810ffffffff0000000000000005 = false ∧
      cmdLen 0x7810ffffffff0000000000000005 = cmdLen 0x7817000000000000000000000005) ∧
    (cmdOp 0xa000ffffffff0000000000000000 = 10 ∧ cmdMasked 0xa000ffffffff0000000000000000 = false) := by decide

theorem witness_StepRunsThePresentedCommand :
    (hostPresents 0xc000000000000000000000000000 State.reset).rstEdges = 0 ∧
    (hostPresents 0xc000000000000000000000000000 State.reset).busy = false ∧
    (hostPresents 0xc000000000000000000000000000 State.reset).cmds = 0xc000000000000000000000000000 :: [] := by decide

theorem witness_StepRunsTheArrivingHeader :
    leadsTo .hdrParse State.reset fun t =>
      (rxDelivers [0x89, 0x00, 0x48] t).rstEdges = 0 ∧ (rxDelivers [0x89, 0x00, 0x48] t).busy = true ∧
      (rxDelivers [0x89, 0x00, 0x48] t).sq.seq = .pFix0 ∧
      decodeRx (rxDelivers [0x89, 0x00, 0x48] t).io.rx = .ok (.hdrH2 true false false false 9 0, [0x48]) :=
  ⟨_, rfl, by decide⟩

/-- The same for a header of which fixed byte 0 alone is there. -/
theorem witness_StepRunsTheArrivingHeader_byte0 :
    leadsTo .hdrParse State.reset fun t =>
      (rxDelivers [0x89] t).busy = true ∧ (rxDelivers [0x89] t).sq.seq = .pFix0 ∧
      decodeRx (rxDelivers [0x89] t).io.rx = .ok (.wirePing true false false false, []) :=
  ⟨_, rfl, by decide⟩

theorem witness_NothingHappensWithoutACommand :
    State.reset.rstEdges = 0 ∧ State.reset.busy = false ∧ State.reset.cmds = [] ∧
    leadsTo .hdrParse (hostPresents 0 State.reset) fun s => s.busy = true ∧ ∃ t, step s = .next t :=
  ⟨rfl, rfl, rfl, _, rfl, rfl, _, rfl⟩

theorem witness_ResetWinsAndLeavesTheStreams : (hostResets 1 State.reset).rstEdges ≠ 0 := by decide

theorem witness_OpcEncodeAcceptsExactlyTheOpCodes :
    ((OpCode.data (.reserved 4)).kind = 3 → (7 : BitVec 4) = (OpCode.data (.reserved 4)).wire) ∧
    ((OpCode.control .close).kind = 3 → (15 : BitVec 4) = (OpCode.control .close).wire) ∧
    (∀ d : DataOp, (OpCode.data d).kind = 3 → (OpCode.data d).wire ≠ 2) ∧
    (∀ c : ControlOp, (OpCode.control c).kind = 3 → (OpCode.control c).wire ≠ 7) := by
  refine ⟨by decide, by decide, fun d => ?_, fun c => ?_⟩
  · cases d with
    | reserved k => revert k; decide
    | _ => decide
  · cases c with
    | reserved k => revert k; decide
    | _ => decide

theorem witness_OpcodeBijection : ∃ t, exec (.opcDecode 11) State.reset = .next t := ⟨_, rfl⟩

/-- Each shape, at the boundary of its length field. -/
theorem witness_HdrParseReadsACompleteHeader :
    (([] : List Byte).length = 0 ∧ (0x7d : Byte).toNat % 128 < 126 ∧ ¬128 ≤ (0x7d : Byte).toNat) ∧
    (([0, 0] : List Byte).length = 2 ∧ (0xfe : Byte).toNat % 128 = 126 ∧
      ([0xaa, 0xbb, 0xcc, 0xdd] : List Byte).length = 4 ∧ 128 ≤ (0xfe : Byte).toNat) ∧
    (([0, 0, 0, 0, 0, 0, 0, 0] : List Byte).length = 8 ∧ ¬(0x7f : Byte).toNat % 128 < 126 ∧
      ¬(0x7f : Byte).toNat % 128 = 126) ∧
    (rxState [0x81, 0xfe, 0, 0, 0xaa, 0xbb, 0xcc, 0xdd] none).io.rx =
      0x81 :: 0xfe :: ([0, 0] ++ [0xaa, 0xbb, 0xcc, 0xdd] ++ []) := by decide

/-- A clean end and an error item, in the fixed bytes, in the extension and one byte before the end of the key. -/
theorem witness_HdrParseReportsAShortStream :
    (rxState [] (some .eos)).io.rx.length < headerNeed (rxState [] (some .eos)).io.rx ∧
    (rxState [0x81, 0xfe, 1] (some .eos)).io.rx.length < headerNeed (rxState [0x81, 0xfe, 1] (some .eos)).io.rx ∧
    (rxState [0x81, 0x85, 1, 2, 3] (some .eos)).io.rx.length < headerNeed (rxState [0x81, 0x85, 1, 2, 3] none).io.rx ∧
    (rxState [0x81, 0x85, 1, 2, 3] (some .eos)).io.rxEnd = some .eos ∧
    (rxState [0x81, 0x85, 1] (some (.err 0xff))).io.rx.length < headerNeed [0x81, 0x85, 1] ∧
    (rxState [0x81, 0x85, 1] (some (.err 0xff))).io.rxEnd = some (.err 0xff) := by decide

theorem witness_HdrParseWaitsOnAnOpenStream :
    (rxState [0x81, 0xfe, 1] none).io.rx.length < headerNeed (rxState [0x81, 0xfe, 1] none).io.rx ∧
    (rxState [0x81, 0xfe, 1] none).io.rxEnd = none := by decide

/-- A text header with a key. -/
def textHeader : FrameHeader :=
  { isFinal := true, rsv1 := false, rsv2 := false, rsv3 := false, opcode := .data .text, mask := some 0x37fa213d }

theorem witness_FormatThenParseRecoversTheHeader :
    (rxState (textHeader.bytes 5 ++ hello) none).io.rx = textHeader.bytes 5 ++ hello := by decide

/-- The canonical case, and the three others each at a boundary of its length (V33, V34). -/
theorem witness_ParseThenFormatIsCanonical :
    (leadsTo .hdrParse (rxState [0x81, 0x7e, 0, 126] none) fun t =>
      t.busy = false ∧ t.res.status = .ok ∧ t.io.rx = [] ∧ t.res.len = 126) ∧
    (leadsTo .hdrParse (rxState [0x81, 0x7e, 0, 125] none) fun t =>
      t.busy = false ∧ t.res.status = .ok ∧ t.io.rx = [] ∧ t.res.len = 125) ∧
    (leadsTo .hdrParse (rxState [0x81, 0x7f, 0, 0, 0, 0, 0, 0, 0, 125] none) fun t =>
      t.busy = false ∧ t.res.status = .ok ∧ t.io.rx = [] ∧ t.res.len = 125) ∧
    (leadsTo .hdrParse (rxState [0x81, 0x7f, 0, 0, 0, 0, 0, 0, 255, 255] none) fun t =>
      t.busy = false ∧ t.res.status = .ok ∧ t.io.rx = [] ∧ t.res.len = 65535) :=
  ⟨⟨_, rfl, by decide⟩, ⟨_, rfl, by decide⟩, ⟨_, rfl, by decide⟩, ⟨_, rfl, by decide⟩⟩

theorem witness_HdrFormatWritesTheHeaderBytes :
    (txState (List.replicate 14 .ack ++ [.fail 1])).io.txAnswers =
      List.replicate (headerLength true 65536) .ack ++ [.fail 1] := by decide

/-- A failure of the first byte and of the last. -/
theorem witness_HdrFormatStopsAtTheFirstFailure :
    (0 < headerLength true 65536 ∧ (txState [.fail 1]).io.txAnswers = List.replicate 0 .ack ++ .fail 1 :: []) ∧
    (13 < headerLength true 65536 ∧
      (txState (List.replicate 13 .ack ++ [.fail 1])).io.txAnswers = List.replicate 13 .ack ++ .fail 1 :: []) := by
  decide

theorem witness_HeaderRowsRefineTheByteSteps :
    leadsTo .hdrParse State.reset fun t =>
      (rxDelivers [0x89, 0x00] t).sq.seq = .pFix0 ∧
      decodeHeader (rxDelivers [0x89, 0x00] t).io.rx = .ok (.hdrH2 true false false false 9 0, []) ∧
      (rxDelivers [0x89, 0x00] t).io.rx = 0x89 :: [0x00] :=
  ⟨_, rfl, by decide⟩

/-- Five bytes, and none. -/
theorem witness_ApplyMaskXorsTheRollingKey :
    (hello.length < 2 ^ 64 ∧ (pinState (hello ++ [1]) 6).io.pin = hello ++ [1] ∧
      (pinState (hello ++ [1]) 6).io.poutReady = hello.length + 1) ∧
    (([] : List Byte).length < 2 ^ 64 ∧ (pinState [1] 0).io.pin = [] ++ [1] ∧
      (pinState [1] 0).io.poutReady = ([] : List Byte).length + 0) := by decide

theorem witness_MaskingLaws : 4 < 5 := by decide

theorem witness_ApplyMaskWaitsForItsBytes :
    (pinState [1, 2] 2).io.pin.length < (3 : Len).toNat ∧
    (pinState [1, 2] 2).io.pin.length ≤ (pinState [1, 2] 2).io.poutReady := by decide

/-- No byte, and as many as PBUF holds. -/
theorem witness_FrameMessageBuildsTheFrame :
    (([] : List Byte).length ≤ State.reset.params.pbufBytes.toNat ∧ (pinState [7] 0).io.pin = [] ++ [7]) ∧
    hello.length ≤ ({ pinState hello 0 with params := { pbufBytes := 5, maxDeclaredLen := 0 } }).params.pbufBytes.toNat ∧
    (pinState hello 0).io.pin = hello ++ [] := by decide

theorem witness_FrameMessageTooLongChangesNothing :
    State.reset.params.pbufBytes.toNat < (65537 : Len).toNat := by decide

theorem witness_FrameSetKeyGivesOrTakesTheKey :
    (frameState 1 true 0x37fa213d hello []).fr.valid = true ∧ State.reset.fr.valid = false := by decide

theorem witness_FrameOperationsWithoutAFrameAreRefused : State.reset.fr.valid = false := by decide

theorem witness_FrameLenCountsHeaderAndPayload :
    (frameState 1 false 0 [] []).fr.valid = true ∧ State.reset.fr.valid = false := by decide

/-- A masked frame, and one without payload. -/
theorem witness_FrameFormatEmitsTheFrameOnce :
    (let s := frameState 1 true 0x37fa213d hello (List.replicate 11 .ack ++ [.fail 1])
     s.fr.valid = true ∧ s.fr.plen.toNat ≤ s.params.pbufBytes.toNat ∧
      s.io.txAnswers = List.replicate (headerLength s.fr.masked s.fr.plen + s.fr.plen.toNat) .ack ++ [.fail 1]) ∧
    (let s := frameState 1 false 0 [] (List.replicate 2 .ack)
     s.fr.valid = true ∧ s.fr.plen.toNat ≤ s.params.pbufBytes.toNat ∧
      s.io.txAnswers = List.replicate (headerLength s.fr.masked s.fr.plen + s.fr.plen.toNat) .ack ++ []) := by decide

/-- A failure of the first header byte and of the last payload byte. -/
theorem witness_FrameFormatFailureConsumesTheFrame :
    (let s := frameState 1 true 0x37fa213d hello [.fail 1]
     s.fr.valid = true ∧ s.fr.plen.toNat ≤ s.params.pbufBytes.toNat ∧
      0 < headerLength s.fr.masked s.fr.plen + s.fr.plen.toNat ∧
      s.io.txAnswers = List.replicate 0 .ack ++ .fail 1 :: []) ∧
    (let s := frameState 1 true 0x37fa213d hello (List.replicate 10 .ack ++ [.fail 1])
     s.fr.valid = true ∧ s.fr.plen.toNat ≤ s.params.pbufBytes.toNat ∧
      10 < headerLength s.fr.masked s.fr.plen + s.fr.plen.toNat ∧
      s.io.txAnswers = List.replicate 10 .ack ++ .fail 1 :: []) := by decide

theorem witness_AFrameIsEmittedAtMostOnce :
    (leadsTo .frameFormat (frameState 1 false 0 hello (List.replicate 7 .ack)) fun t => t.busy = false) ∧
    State.reset.fr.valid = false ∧ isCommand (.frameMessage 1 5) = true ∧
    leadsTo (.frameMessage 1 5) (pinState hello 0) fun u => u.fr.valid = true :=
  ⟨⟨_, rfl, by decide⟩, rfl, rfl, _, rfl, by decide⟩

theorem witness_FrameLenAgreesWithFrameFormat :
    leadsTo .frameLen (frameState 1 true 0x37fa213d hello (List.replicate 11 .ack)) fun t =>
      t.res.status = .ok ∧ leadsTo .frameFormat t fun u => u.busy = false ∧ u.res.status = .ok :=
  ⟨_, rfl, by decide, _, rfl, by decide⟩

theorem witness_FrameRoundTrip :
    (frameState 1 true 0x37fa213d hello (List.replicate 11 .ack)).fr.valid = true ∧
    (leadsTo .frameFormat (frameState 1 true 0x37fa213d hello (List.replicate 11 .ack)) fun t =>
      t.busy = false ∧ t.res.status = .ok ∧
      t.io.tx = [] ++ [0x81, 0x85, 0x37, 0xfa, 0x21, 0x3d, 0x7f, 0x9f, 0x4d, 0x51, 0x58]) ∧
    (rxState ([0x81, 0x85, 0x37, 0xfa, 0x21, 0x3d, 0x7f, 0x9f, 0x4d, 0x51, 0x58] ++ [1]) none).io.rx =
      [0x81, 0x85, 0x37, 0xfa, 0x21, 0x3d, 0x7f, 0x9f, 0x4d, 0x51, 0x58] ++ [1] :=
  ⟨by decide, ⟨_, rfl, by decide⟩, by decide⟩

theorem witness_ReservedCodesEndBadCmd :
    cmdOp 0x0fffffffffffffffffffffffffff = 0 ∧ cmdOp 0xdfffffffffffffffffffffffffff = 13 ∧
    cmdOp 0xe000000000000000000000000000 = 14 ∧ cmdOp 0xf000000000000000000000000000 = 15 := by decide

/-- A HDR_PARSE in its key, one byte short. -/
def inKey : State :=
  { rxState [] none with
    busy := true
    res := { ResultBank.reset with masked := true }
    sq := { Sequencer.reset with seq := .pKey, pos := 5, rem := 1, cmd := 0x6000000000000000000000000000 } }

/-- A FRAME_FORMAT at its last payload byte. -/
def inPayload : State :=
  { frameState 1 true 0x37fa213d hello [.ack] with
    busy := true
    sq := { Sequencer.reset with seq := .fPay, pos := 6, pidx := 4, cmd := 0xb000000000000000000000000000 } }

/-- A HDR_FORMAT at its first byte. -/
def inHeader : State :=
  { txState [.ack, .ack] with
    busy := true
    sq := { Sequencer.reset with seq := .sHdr, cmd := 0x7820000000000000000000000000 } }

/-- An APPLY_MASK that holds its last byte. -/
def inMask : State :=
  { pinState [] 1 with
    busy := true
    sq := { Sequencer.reset with
      seq := .mRun, pidx := 2, cmd := 0x800037fa213d0000000000000003, hold := some 0x48 } }

/-- A FRAME_MESSAGE with two of its three bytes loaded. -/
def inLoad : State :=
  { pinState [0x6c] 0 with
    busy := true
    pbuf := [(0, 0x48), (1, 0x65)]
    sq := { Sequencer.reset with seq := .lRun, pidx := 2, cmd := 0x9010000000000000000000000003 } }

theorem witness_inv_reset : StateInv State.reset :=
  ⟨by decide, by decide, by decide, by unfold frameInv; decide, trivial⟩
theorem witness_inv_frame : StateInv (frameState 1 true 0x37fa213d hello []) :=
  ⟨by decide, by decide, by decide, by unfold frameInv; decide, trivial⟩
theorem witness_inv_inKey : StateInv inKey :=
  ⟨by decide, by decide, by decide, by unfold frameInv; decide, by unfold seqInv; simp only [inKey]; decide⟩
theorem witness_inv_inHeader : StateInv inHeader :=
  ⟨by decide, by decide, by decide, by unfold frameInv; decide, by unfold seqInv; simp only [inHeader]; decide⟩
theorem witness_inv_inPayload : StateInv inPayload :=
  ⟨by decide, by decide, by decide, by unfold frameInv; decide, by unfold seqInv; simp only [inPayload]; decide⟩
theorem witness_inv_inMask : StateInv inMask :=
  ⟨by decide, by decide, by decide, by unfold frameInv; decide, by unfold seqInv; simp only [inMask]; decide⟩
theorem witness_inv_inLoad : StateInv inLoad :=
  ⟨by decide, by decide, by decide, by unfold frameInv; decide, by unfold seqInv; simp only [inLoad]; decide⟩

theorem witness_EveryStepKeepsTheInvariant : StateInv inPayload ∧ ∃ t, step inPayload = .next t :=
  ⟨witness_inv_inPayload, _, rfl⟩

theorem witness_EveryStepKeepsFramesFinal : frameHostBuilt inPayload ∧ ∃ t, step inPayload = .next t :=
  ⟨by unfold frameHostBuilt; decide, _, rfl⟩

theorem witness_TheMachineNeverStops : StateInv inKey ∧ environmentKeepsRules inKey :=
  ⟨witness_inv_inKey, by unfold environmentKeepsRules; decide⟩

theorem witness_OperationsEndOnlyWithTheirCodes :
    isCommand .hdrParse = true ∧ leadsTo .hdrParse (rxState [0x81] (some .eos)) fun t => t.busy = false :=
  ⟨rfl, _, rfl, rfl⟩

theorem witness_EachOperationTouchesOnlyItsOwn :
    isCommand .frameFormat = true ∧ ∃ t, exec .frameFormat (frameState 1 false 0 hello [.ack]) = .next t :=
  ⟨rfl, _, rfl⟩

theorem witness_StreamsOnlyMoveForward : ∃ t, step inLoad = .next t := ⟨_, rfl⟩

theorem witness_TransfersHappenOnlyUnderTheirHandshake :
    (∃ t, byteStep inHeader = .moved t) ∧ (∃ t, byteStep inPayload = .moved t) ∧ (∃ t, byteStep inMask = .moved t) ∧
    (∃ t, byteStep inLoad = .moved t) ∧ ∃ t, byteStep (rxDelivers [1] inKey) = .moved t :=
  ⟨⟨_, rfl⟩, ⟨_, rfl⟩, ⟨_, rfl⟩, ⟨_, rfl⟩, _, rfl⟩

/-- Two states with the same RX items, or the same TX answers, ahead. -/
theorem witness_TheHeaderCodecReadsNoEarlierState :
    ((rxState [0x82, 0x00] none).io.rx = (rxDelivers [0x82, 0x00] (frameState 1 false 0 hello [])).io.rx ∧
      (rxState [0x82, 0x00] none).io.rxEnd = (rxDelivers [0x82, 0x00] (frameState 1 false 0 hello [])).io.rxEnd ∧
      (rxState [0x82, 0x00] none).params = (rxDelivers [0x82, 0x00] (frameState 1 false 0 hello [])).params ∧
      (∃ t, exec .hdrParse (rxState [0x82, 0x00] none) = .next t) ∧
      ∃ t, exec .hdrParse (rxDelivers [0x82, 0x00] (frameState 1 false 0 hello [])) = .next t) ∧
    ((txState [.ack, .fail 3]).io.txAnswers = (frameState 1 false 0 hello [.ack, .fail 3]).io.txAnswers ∧
      (∃ t, exec (.hdrFormat true false false false 1 false 0 5) (txState [.ack, .fail 3]) = .next t) ∧
      ∃ t, exec (.hdrFormat true false false false 1 false 0 5) (frameState 1 false 0 hello [.ack, .fail 3]) = .next t) :=
  ⟨⟨rfl, rfl, rfl, ⟨_, rfl⟩, _, rfl⟩, rfl, ⟨_, rfl⟩, _, rfl⟩

theorem witness_SupplyingInPiecesDoesNotMatter : inKey.io.rxEnd = none ∧ ∃ t, proceed inKey = .next t := ⟨rfl, _, rfl⟩

theorem witness_ResultRegistersAreHeldUnlessWritten :
    isCommand (.hdrFormat true false false false 1 false 0 5) = true ∧
    leadsTo (.hdrFormat true false false false 1 false 0 5) (txState [.fail 3]) fun t => t.busy = false :=
  ⟨rfl, _, rfl, rfl⟩

/-- One that has ended, and one that is on its way. -/
theorem witness_HiddenRegistersAfterACommand :
    isCommand (.applyMask 0x37fa213d 3) = true ∧
    (leadsTo (.applyMask 0x37fa213d 3) (pinState [1, 2, 3] 3) fun t => t.busy = false) ∧
    leadsTo (.applyMask 0x37fa213d 3) (pinState [1, 2] 3) fun t => t.busy = true :=
  ⟨rfl, ⟨_, rfl, rfl⟩, _, rfl, rfl⟩

/-- An operation in progress in each kind of state, with just what it is still owed. -/
def answered (s : State) : Prop :=
  StateInv s ∧ environmentKeepsRules s ∧ s.busy = true ∧ s.rstEdges = 0 ∧ (rxReady s = true → s.io.rxEnd ≠ none) ∧
  (s.sq.seq = .sHdr → (headerBytes s).length + (if sendsFrame s then s.fr.plen.toNat else 0) ≤
    s.sq.pos.toNat + s.io.txAnswers.length) ∧
  (s.sq.seq = .fPay → s.fr.plen.toNat ≤ s.sq.pidx.toNat + s.io.txAnswers.length) ∧
  (s.sq.seq = .lRun → (cmdLen s.sq.cmd).toNat ≤ s.sq.pidx.toNat + s.io.pin.length) ∧
  (s.sq.seq = .mRun → (cmdLen s.sq.cmd).toNat ≤
    s.sq.pidx.toNat + s.io.pin.length + (if s.sq.hold.isSome then 1 else 0)) ∧
  (s.sq.seq = .mRun → (cmdLen s.sq.cmd).toNat ≤ s.sq.pidx.toNat + s.io.poutReady)

theorem witness_OperationsEndWhenTheEnvironmentAnswers_rx : answered (rxEnds .eos inKey) :=
  ⟨witness_inv_inKey, by unfold environmentKeepsRules; decide, by decide⟩
theorem witness_OperationsEndWhenTheEnvironmentAnswers_tx : answered inHeader ∧ answered inPayload :=
  ⟨⟨witness_inv_inHeader, by unfold environmentKeepsRules; decide, by decide⟩,
   witness_inv_inPayload, by unfold environmentKeepsRules; decide, by decide⟩
theorem witness_OperationsEndWhenTheEnvironmentAnswers_host : answered inMask ∧ answered inLoad :=
  ⟨⟨witness_inv_inMask, by unfold environmentKeepsRules; decide, by decide⟩,
   witness_inv_inLoad, by unfold environmentKeepsRules; decide, by decide⟩

end Sys2Proof.Tests
end

section
/-! PROOF. The header rows against the byte steps (O26), and supplying in pieces (O51). -/

namespace Sys2Proof.Machine

/-! ## The header rows refine the byte steps -/

/-- A whole header on RX, run at once as its row, is what its byte steps come to. -/
theorem exec_wholeHeader_eq_proceed {s : State} {i : Instr} {rest : List Byte} (hq : s.sq.seq = .pFix0)
    (h : decodeHeader s.io.rx = .ok (i, rest)) : exec i { s with io := { s.io with rx := rest } } = proceed s := by
  obtain ⟨b0, b1, ext, key, hrx, hext, hkey, hexec⟩ := exec_wholeHeader h
  rw [hexec, proceed_header hq hext hkey hrx]

/-- The byte step that takes fixed byte 0. -/
theorem byteStep_fixedByte0 {s : State} {b : Byte} {rest : List Byte} (hq : s.sq.seq = .pFix0)
    (hrx : s.io.rx = b :: rest) :
    byteStep s = .moved (takeFixedByte0 (byte0Fin b) (byte0Rsv1 b) (byte0Rsv2 b) (byte0Rsv3 b) (byte0Opc b)
      (classOf (byte0Opc b)) (kindOf (byte0Opc b)) { s with io := { s.io with rx := rest } }) := by
  rw [byteStep_parsing (by simp [hq, parsing]), parseStep, hrx]
  simp only [parseByte, hq]

/-- Settles O26: a whole header by the parser's run on it, fixed byte 0 by the parser's first byte step. -/
theorem headerRowsRefineTheByteSteps : Obligations.HeaderRowsRefineTheByteSteps := by
  intro s hq
  refine ⟨fun i rest h => exec_wholeHeader_eq_proceed hq h, fun b rest hrx => ?_⟩
  exact ⟨_, byteStep_fixedByte0 hq hrx, exec_fixedByte0 b _⟩

/-! ## A byte step does not see what is supplied behind the next item -/

/-- What the environment may supply while an operation runs: RX bytes, what ends them, answers of the TX sink, PIN bytes and
room on POUT (R52, R54, R55). -/
structure Supply where
  rx : List Byte := []
  rxEnd : Option RxEnd := none
  txAnswers : List TxAnswer := []
  pin : List Byte := []
  poutReady : Nat := 0

/-- The streams with a supply behind what they hold; an end of RX that is settled stays. -/
def Supply.onto (e : Supply) (io : Streams) : Streams :=
  { io with
    rx := io.rx ++ e.rx, rxEnd := io.rxEnd.or e.rxEnd, txAnswers := io.txAnswers ++ e.txAnswers, pin := io.pin ++ e.pin,
    poutReady := io.poutReady + e.poutReady }

/-- The state once the environment has supplied `e`. -/
def Supply.to (e : Supply) (s : State) : State := withIo (e.onto s.io) s

theorem rxDelivers_eq_supply (bs : List Byte) (s : State) : rxDelivers bs s = Supply.to { rx := bs } s := by
  simp [rxDelivers, Supply.to, Supply.onto, withIo]

theorem rxEnds_eq_supply (e : RxEnd) {s : State} (h : s.io.rxEnd = none) :
    rxEnds e s = Supply.to { rxEnd := some e } s := by
  simp [rxEnds, Supply.to, Supply.onto, withIo, h]

theorem txWillAnswer_eq_supply (as : List TxAnswer) (s : State) :
    txWillAnswer as s = Supply.to { txAnswers := as } s := by
  simp [txWillAnswer, Supply.to, Supply.onto, withIo]

theorem hostSupplies_eq_supply (bs : List Byte) (s : State) : hostSupplies bs s = Supply.to { pin := bs } s := by
  simp [hostSupplies, Supply.to, Supply.onto, withIo]

theorem hostTakes_eq_supply (n : Nat) (s : State) : hostTakes n s = Supply.to { poutReady := n } s := by
  simp [hostTakes, Supply.to, Supply.onto, withIo]

/-- RX bytes may come only while its end is open. -/
def Supply.allowed (e : Supply) (s : State) : Prop := s.io.rxEnd = none ∨ e.rx = []

/-- A byte step takes its item from the front and a supply stands behind it, so the two commute. -/
theorem byteStep_supply (e : Supply) {s u : State} (hs : e.allowed s) (h : byteStep s = .moved u) :
    byteStep (e.to s) = .moved (e.to u) :=
  byteStep_withIo e.onto e.allowed
    (rx := fun _ _ _ _ hrx => by simp [Supply.onto, hrx])
    (ends := fun s hs hrx hend => by
      have hnone : e.rx = [] := hs.resolve_left hend
      obtain ⟨x, hx⟩ := Option.ne_none_iff_exists'.mp hend
      simp [Supply.onto, hrx, hnone, hx])
    (tx := fun _ _ _ _ ha => by simp [Supply.onto, ha])
    (txa := fun _ _ _ _ _ _ => rfl)
    (txf := fun _ _ _ _ _ => rfl)
    (pin := fun _ _ _ _ hp => by simp [Supply.onto, hp])
    (pout := fun _ n _ _ hn => ⟨n + e.poutReady, by simp only [Supply.onto, hn]; omega, rfl⟩) s u hs h

/-- No byte step settles what ends RX, so a supply that was allowed still is. -/
theorem byteStep_keeps_allowed (e : Supply) {s u : State} (hs : e.allowed s) (h : byteStep s = .moved u) :
    e.allowed u := by
  obtain ⟨_, _, _, _, hend, _⟩ := byteStep_movedOn h
  exact hs.imp_left hend.trans

/-- A supply may come before an operation has gone as far as it can, or after. -/
theorem proceed_supply (e : Supply) {s t : State} (hs : e.allowed s) (h : proceed s = .next t) :
    proceed (e.to t) = proceed (e.to s) :=
  proceed_pieces e.allowed e.to (fun _ _ => byteStep_keeps_allowed e) (fun _ _ => byteStep_supply e) hs h

/-- Settles O51: each of the five ways to supply is a `Supply`, and those commute with the byte steps. -/
theorem supplyingInPiecesDoesNotMatter : Obligations.SupplyingInPiecesDoesNotMatter := by
  intro s t h
  refine ⟨fun bs hopen => ?_, fun e hopen => ?_, fun as => ?_, fun bs => ?_, fun n => ?_⟩
  · simpa only [rxDelivers_eq_supply] using proceed_supply { rx := bs } (.inl hopen) h
  · obtain ⟨_, _, _, _, hend, _⟩ := proceed_movedOn h
    rw [rxEnds_eq_supply e hopen, rxEnds_eq_supply e (hend.trans hopen)]
    exact proceed_supply { rxEnd := some e } (.inl hopen) h
  · simpa only [txWillAnswer_eq_supply] using proceed_supply { txAnswers := as } (.inr rfl) h
  · simpa only [hostSupplies_eq_supply] using proceed_supply { pin := bs } (.inr rfl) h
  · simpa only [hostTakes_eq_supply] using proceed_supply { poutReady := n } (.inr rfl) h

end Sys2Proof.Machine
end

section
/-! PROOF. What a command that answers a next state has done (EndsAtOnce, Starts), and from it the statements about the
state: the invariants (O42 to O44), the state after reset (O10), and what belongs to which command (O47, O52, O53). -/

namespace Sys2Proof.Machine

/-! ## One command, inverted -/

/-- `EndsAtOnce s i t`: the command `i`, accepted in `s`, ends in `t` without a byte step. One case per outcome;
`refused` is every outcome that changes no register but R_STATUS and CMD. -/
inductive EndsAtOnce (s : State) : Instr → State → Prop
  | refused {i : Instr} {c : Status} (hc : mayEndWith i c = true) : EndsAtOnce s i (raise c none (accept i s))
  | decoded (n : BitVec 4) :
      EndsAtOnce s (.opcDecode n) (finishOk (writeOpcode n (classOf n) (kindOf n) (accept (.opcDecode n) s)))
  | encoded {cls : Bool} {kind : BitVec 2} {opc r : BitVec 4} (hr : encodeView cls kind opc = some r) :
      EndsAtOnce s (.opcEncode cls kind opc) (finishOk (writeOpcode r cls kind (accept (.opcEncode cls kind opc) s)))
  | formatForLength (len : Len) :
      EndsAtOnce s (.lenfmtForLength len)
        (finishOk (writeFormat (formatOf len) (fieldOf len) (accept (.lenfmtForLength len) s)))
  | formatOfField (field : BitVec 7) :
      EndsAtOnce s (.lenfmtOfField field)
        (finishOk (writeFormat (formatOfField field) field (accept (.lenfmtOfField field) s)))
  | headerCounted (masked : Bool) (len : Len) :
      EndsAtOnce s (.hdrLen masked len)
        (finishOk (writeCount (headerLength masked len) (accept (.hdrLen masked len) s)))
  | frameCounted (hv : s.fr.valid = true) :
      EndsAtOnce s .frameLen
        (finishOk (writeCount (headerLength s.fr.masked s.fr.plen + s.fr.plen.toNat) (accept .frameLen s)))
  | keySet (key : Key) (hv : s.fr.valid = true) :
      EndsAtOnce s (.frameSetKey true key)
        (finishOk { accept (.frameSetKey true key) s with fr := { s.fr with masked := true, key := key } })
  | keyCleared (key : Key) (hv : s.fr.valid = true) :
      EndsAtOnce s (.frameSetKey false key)
        (finishOk (forgetFrameKey { accept (.frameSetKey false key) s with fr := { s.fr with masked := false } }))
  | maskedNothing (key : Key) : EndsAtOnce s (.applyMask key 0) (finishOk (maskStart key 0 s))
  | loadedNothing (opc : BitVec 4) : EndsAtOnce s (.frameMessage opc 0) (frameLoaded (loadStart opc 0 s))

/-- `Starts s i u`: the command `i`, accepted in `s`, runs byte steps from `u`. -/
inductive Starts (s : State) : Instr → State → Prop
  | parse : Starts s .hdrParse (parseStart s)
  | header (fin rsv1 rsv2 rsv3 : Bool) (opc : BitVec 4) (masked : Bool) (key : Key) (len : Len) :
      Starts s (.hdrFormat fin rsv1 rsv2 rsv3 opc masked key len)
        (sendStart (.hdrFormat fin rsv1 rsv2 rsv3 opc masked key len) s)
  | frame (hv : s.fr.valid = true) : Starts s .frameFormat (sendStart .frameFormat s)
  | mask {key : Key} {len : Len} (hl : len ≠ 0) : Starts s (.applyMask key len) (maskStart key len s)
  | load {opc : BitVec 4} {len : Len} (hl : len ≠ 0) (hfit : len.toNat ≤ s.params.pbufBytes.toNat) :
      Starts s (.frameMessage opc len) (loadStart opc len s)

/-- A command that answers a next state has ended at once, or run byte steps from its start. -/
theorem exec_command_next {i : Instr} {s t : State} (hi : isCommand i = true) (h : exec i s = .next t) :
    EndsAtOnce s i t ∨ ∃ u, Starts s i u ∧ proceed u = .next t := by
  cases i with
  | hdrParse => exact .inr ⟨_, .parse, h⟩
  | hdrFormat => exact .inr ⟨_, .header .., h⟩
  | frameFormat =>
    cases hv : s.fr.valid with
    | true => exact .inr ⟨_, .frame hv, (exec_frameFormat hv).symm.trans h⟩
    | false => rw [exec_noFrame hv (.inl rfl)] at h; cases h; exact .inl (.refused rfl)
  | applyMask key len =>
    rw [exec_applyMask] at h
    split at h
    · next hl => subst hl; cases h; exact .inl (.maskedNothing key)
    · next hl => exact .inr ⟨_, .mask hl, h⟩
  | frameMessage opc len =>
    rw [exec_frameMessage] at h
    split at h
    · cases h; exact .inl (.refused rfl)
    · next hfit =>
      split at h
      · next hl => subst hl; cases h; exact .inl (.loadedNothing opc)
      · next hl => exact .inr ⟨_, .load hl (by simpa [tooLong] using hfit), h⟩
  | frameSetKey masked key =>
    cases hv : s.fr.valid with
    | true =>
      cases masked with
      | true => rw [exec_frameSetKey_key hv] at h; cases h; exact .inl (.keySet key hv)
      | false => rw [exec_frameSetKey_none hv] at h; cases h; exact .inl (.keyCleared key hv)
    | false => rw [exec_noFrame hv (.inr (.inr ⟨_, _, rfl⟩))] at h; cases h; exact .inl (.refused rfl)
  | frameLen =>
    cases hv : s.fr.valid with
    | true => rw [exec_frameLen hv] at h; cases h; exact .inl (.frameCounted hv)
    | false => rw [exec_noFrame hv (.inr (.inl rfl))] at h; cases h; exact .inl (.refused rfl)
  | opcEncode cls kind opc =>
    simp only [exec, execOpcEncode] at h
    split at h
    · next r hr => cases h; exact .inl (.encoded hr)
    · cases h; exact .inl (.refused rfl)
  | opcDecode n => cases h; exact .inl (.decoded n)
  | lenfmtForLength len => cases h; exact .inl (.formatForLength len)
  | lenfmtOfField field => cases h; exact .inl (.formatOfField field)
  | hdrLen masked len => cases h; exact .inl (.headerCounted masked len)
  | reservedOp0 | reservedOp13 | reservedOp14 | reservedOp15 => cases h; exact .inl (.refused rfl)
  | _ => cases hi

/-! ## The invariants (O42 to O44) -/

/-- What a reset edge establishes, and an accepted command and every byte step keep, every step keeps. -/
theorem step_keeps {P : State → Prop} (reset : ∀ s, P (resetEdge s))
    (command : ∀ s w rest t, P s → s.busy = false →
      exec (decodeCommand w) { s with cmds := rest, sq := { s.sq with cmd := w } } = .next t → P t)
    (byte : ∀ s t, P s → byteStep s = .moved t → P t) {s t : State} (hs : P s) (h : step s = .next t) : P t := by
  rcases step_cases s with ⟨_, e⟩ | ⟨_, _, _, e⟩ | ⟨w, rest, _, hb, _, e⟩ | ⟨_, _, e⟩ |
    ⟨_, _, _, _, _, _, _, _, hm, e⟩ <;> rw [e] at h
  · cases h; exact reset s
  · cases h; exact hs
  · exact command s w rest t hs hb h
  · exact proceed_keeps byte hs h
  · cases h; exact byte _ _ hs hm

/-- A command that ends at once keeps FR and PBUF in agreement. -/
theorem EndsAtOnce.frameRest {i : Instr} {s t : State} (h : EndsAtOnce s i t) (hs : frameRest s) : frameRest t := by
  cases h with
  | loadedNothing opc =>
    obtain ⟨_, hw, _, _, hlen⟩ := latch_frameMessage opc 0 s.sq.cmd
    have hplen : (frameLoaded (loadStart opc 0 s)).fr.plen = 0 := (congrArg cmdLen hw).trans hlen
    rw [Machine.frameRest, if_pos (frameLoaded_fr_valid _), hplen]
    exact ⟨Nat.zero_le _, rfl⟩
  | _ => exact hs

/-- A command that ends at once, from a state in which it may be accepted, ends within the invariant. -/
theorem EndsAtOnce.inv {i : Instr} {s t : State} (h : EndsAtOnce s i t) (hs : Quiet s) : StateInv t := by
  have hf := h.frameRest hs.2.2
  obtain ⟨hhold, hwf, _⟩ := hs
  cases h with
  | maskedNothing key => exact inv_of_idle rfl rfl hwf rfl hf
  | loadedNothing opc => exact inv_of_idle rfl rfl Memory.wf_nil hhold hf
  | _ => exact inv_of_idle rfl rfl hwf hhold hf

/-- A command that runs byte steps starts within the invariant. -/
theorem Starts.inv {i : Instr} {s u : State} (h : Starts s i u) (hs : Quiet s) : StateInv u := by
  cases h with
  | parse => exact inv_parseStart hs
  | header fin rsv1 rsv2 rsv3 opc masked key len =>
    obtain ⟨_, hw, hop, _⟩ := latch_hdrFormat fin rsv1 rsv2 rsv3 opc masked key len s.sq.cmd
    exact inv_sendStart hs (.inl (hw ▸ hop))
  | frame hv => exact inv_sendStart hs (.inr ⟨latch_frameFormat _, hv⟩)
  | mask hl => exact inv_maskStart hs hl
  | load hl hfit => exact inv_loadStart hs hl hfit

/-- A command accepted in a quiet state leads to one that meets the invariant. -/
theorem exec_command_inv {i : Instr} {s t : State} (hi : isCommand i = true) (hs : Quiet s) (h : exec i s = .next t) :
    StateInv t := by
  rcases exec_command_next hi h with h | ⟨u, hu, h⟩
  · exact h.inv hs
  · exact proceed_keeps_inv (hu.inv hs) h

/-- A reset edge leads to a state that meets the invariant, whatever it finds (R36). -/
theorem inv_resetEdge (s : State) : StateInv (resetEdge s) := inv_of_idle rfl rfl Memory.wf_nil rfl rfl

/-- Settles O43: a command by how it ends or starts, byte steps by the lemma about one. -/
theorem everyStepKeepsTheInvariant : Obligations.EveryStepKeepsTheInvariant := fun _ _ =>
  step_keeps inv_resetEdge
    (fun _ w rest _ hs hb => exec_command_inv (isCommand_decodeCommand w) (quiet_of_inv hs hb w rest))
    (fun _ _ => byteStep_keeps_inv)

/-- Settles O42: SEQ is IDLE, nothing is held, and FR and PBUF are empty. -/
theorem invariantHoldsAtReset : Obligations.InvariantHoldsAtReset :=
  ⟨inv_of_idle rfl rfl Memory.wf_nil rfl rfl, nofun⟩

/-- A command that ends at once keeps frames host-built: a FRAME_MESSAGE builds one so, a FRAME_SET_KEY writes neither
FR_FIN nor a reserved bit. -/
theorem EndsAtOnce.hostBuilt {i : Instr} {s t : State} (h : EndsAtOnce s i t) (hs : frameHostBuilt s) :
    frameHostBuilt t := by
  cases h with
  | loadedNothing opc => exact fun _ => ⟨rfl, rfl, rfl, rfl⟩
  | _ => exact hs

/-- A command that runs byte steps starts with the frame it found, or with none. -/
theorem Starts.hostBuilt {i : Instr} {s u : State} (h : Starts s i u) (hs : frameHostBuilt s) : frameHostBuilt u := by
  cases h with
  | load hl hfit => exact nofun
  | _ => exact hs

/-- A command keeps frames host-built. -/
theorem exec_command_hostBuilt {i : Instr} {s t : State} (hi : isCommand i = true) (hs : frameHostBuilt s)
    (h : exec i s = .next t) : frameHostBuilt t := by
  rcases exec_command_next hi h with h | ⟨u, hu, h⟩
  · exact h.hostBuilt hs
  · exact proceed_keeps (P := frameHostBuilt) (fun _ _ => byteStep_keeps_hostBuilt) (hu.hostBuilt hs) h

/-- Settles O44: after a reset edge there is no frame; a command and a byte step keep the frame final. -/
theorem everyStepKeepsFramesFinal : Obligations.EveryStepKeepsFramesFinal := fun _ _ =>
  step_keeps (fun _ => nofun)
    (fun s w rest _ hs _ => exec_command_hostBuilt (s := { s with cmds := rest, sq := { s.sq with cmd := w } })
      (isCommand_decodeCommand w) hs)
    (fun _ _ => byteStep_keeps_hostBuilt)

/-! ## The state after reset (O10) -/

/-- Settles O10: every clause is a field of the reset state, or a port that reads one. -/
theorem resetStateIsIdleWithNoFrame : Obligations.ResetStateIsIdleWithNoFrame :=
  ⟨rfl, rfl, rfl, rfl, rfl, rfl, rfl, rfl, rfl, rfl⟩

/-! ## What belongs to which command (O47) -/

/-- A command that ends at once touches no stream and nothing of the host's. -/
theorem EndsAtOnce.io {i : Instr} {s t : State} (h : EndsAtOnce s i t) : t.io = s.io := by cases h <;> rfl

theorem EndsAtOnce.sameHost {i : Instr} {s t : State} (h : EndsAtOnce s i t) : sameHost s t := by
  cases h <;> exact ⟨rfl, rfl, rfl⟩

/-- Of the commands that end at once, FRAME_MESSAGE and FRAME_SET_KEY alone write FR. -/
theorem EndsAtOnce.fr {i : Instr} {s t : State} (h : EndsAtOnce s i t) :
    t.fr = s.fr ∨ (∃ o l, i = .frameMessage o l) ∨ ∃ m k, i = .frameSetKey m k := by
  cases h with
  | loadedNothing opc => exact .inr (.inl ⟨_, _, rfl⟩)
  | keySet key hv | keyCleared key hv => exact .inr (.inr ⟨_, _, rfl⟩)
  | _ => exact .inl rfl

/-- Of the commands that end at once, FRAME_MESSAGE alone writes PBUF. -/
theorem EndsAtOnce.pbuf {i : Instr} {s t : State} (h : EndsAtOnce s i t) :
    t.pbuf = s.pbuf ∨ ∃ o l, i = .frameMessage o l := by
  cases h with
  | loadedNothing opc => exact .inr ⟨_, _, rfl⟩
  | _ => exact .inl rfl

/-! What a command that runs byte steps may touch: it holds at the start, and every byte step keeps it. -/

theorem parsing_parseStart (s : State) : Parsing s (parseStart s) :=
  ⟨.inl ⟨rfl, rfl⟩, rfl, rfl, rfl, rfl, rfl, rfl⟩

theorem formatting_sendStart (fin rsv1 rsv2 rsv3 : Bool) (opc : BitVec 4) (masked : Bool) (key : Key) (len : Len)
    (s : State) : Formatting s (sendStart (.hdrFormat fin rsv1 rsv2 rsv3 opc masked key len) s) := by
  have hnoframe : sendsFrame (sendStart (.hdrFormat fin rsv1 rsv2 rsv3 opc masked key len) s) = false :=
    (headerBytes_hdrFormat (w := s.sq.cmd) rfl).1
  exact ⟨.inl ⟨rfl, hnoframe, rfl⟩, rfl, rfl, rfl, rfl, rfl, rfl⟩

theorem emitting_sendStart (s : State) : Emitting s (sendStart .frameFormat s) := by
  have hop : cmdOp (sendStart .frameFormat s).sq.cmd = 11 := latch_frameFormat s.sq.cmd
  have hframe : sendsFrame (sendStart .frameFormat s) = true := (headerBytes_frame hop).1
  exact ⟨.inl ⟨.inl rfl, hframe, rfl⟩, rfl, rfl, rfl, rfl⟩

theorem masking_maskStart (key : Key) (len : Len) (s : State) : Masking s (maskStart key len s) :=
  ⟨.inl ⟨rfl, rfl⟩, rfl, rfl, rfl, rfl, rfl, rfl⟩

theorem loading_loadStart (opc : BitVec 4) (len : Len) (s : State) : Loading s (loadStart opc len s) :=
  ⟨.inl ⟨rfl, rfl⟩, rfl, rfl, rfl, rfl⟩

theorem Parsing.run {s u t : State} (hu : Parsing s u) (h : proceed u = .next t) : Parsing s t :=
  proceed_keeps (fun _ _ => Parsing.step) hu h

theorem Formatting.run {s u t : State} (hu : Formatting s u) (h : proceed u = .next t) : Formatting s t :=
  proceed_keeps (fun _ _ => Formatting.step) hu h

theorem Emitting.run {s u t : State} (hu : Emitting s u) (h : proceed u = .next t) : Emitting s t :=
  proceed_keeps (fun _ _ => Emitting.step) hu h

theorem Masking.run {s u t : State} (hu : Masking s u) (h : proceed u = .next t) : Masking s t :=
  proceed_keeps (fun _ _ => Masking.step) hu h

theorem Loading.run {s u t : State} (hu : Loading s u) (h : proceed u = .next t) : Loading s t :=
  proceed_keeps (fun _ _ => Loading.step) hu h

/-- Settles O47: a command that ends at once touches no stream, and one that runs byte steps keeps to its own. -/
theorem eachOperationTouchesOnlyItsOwn : Obligations.EachOperationTouchesOnlyItsOwn := by
  intro i s t h hi
  rcases exec_command_next hi h with h | ⟨u, hu, h⟩
  · have hio := h.io
    refine ⟨fun _ => by simp [hio], fun _ _ => by simp [hio], fun _ _ => by simp [hio], fun _ => by simp [hio],
      fun hm hk _ => ?_, fun hm _ => ?_, h.sameHost⟩
    · rcases h.fr with e | ⟨o, l, e⟩ | ⟨m, k, e⟩
      · exact e
      · exact absurd e (hm o l)
      · exact absurd e (hk m k)
    · rcases h.pbuf with e | ⟨o, l, e⟩
      · simp [e]
      · exact absurd e (hm o l)
  · cases hu with
    | parse =>
      obtain ⟨_, hio, hfr, hpbuf, hhost⟩ := (parsing_parseStart s).run h
      rw [hio, hfr, hpbuf]
      exact ⟨fun hne => absurd rfl hne, fun _ _ => ⟨rfl, rfl⟩, fun _ _ => rfl, fun _ => ⟨rfl, rfl⟩, fun _ _ _ => rfl,
        fun _ _ _ => rfl, hhost⟩
    | header =>
      obtain ⟨_, hio, hfr, hpbuf, hhost⟩ := (formatting_sendStart ..).run h
      rw [hio, hfr, hpbuf]
      exact ⟨fun _ => ⟨rfl, rfl⟩, fun hne => (hne _ _ _ _ _ _ _ _ rfl).elim, fun _ _ => rfl, fun _ => ⟨rfl, rfl⟩,
        fun _ _ _ => rfl, fun _ _ _ => rfl, hhost⟩
    | frame hv =>
      obtain ⟨_, hio, hhost⟩ := (emitting_sendStart s).run h
      rw [hio]
      exact ⟨fun _ => ⟨rfl, rfl⟩, fun _ hne => absurd rfl hne, fun _ _ => rfl, fun _ => ⟨rfl, rfl⟩,
        fun _ _ hne => absurd rfl hne, fun _ hne => absurd rfl hne, hhost⟩
    | mask hl =>
      obtain ⟨_, hio, hfr, hpbuf, hhost⟩ := (masking_maskStart ..).run h
      rw [hio, hfr, hpbuf]
      exact ⟨fun _ => ⟨rfl, rfl⟩, fun _ _ => ⟨rfl, rfl⟩, fun hne => (hne _ _ rfl).elim, fun hne => (hne _ _ rfl).elim,
        fun _ _ _ => rfl, fun _ _ _ => rfl, hhost⟩
    | load hl hfit =>
      obtain ⟨_, hio, hhost⟩ := (loading_loadStart ..).run h
      rw [hio]
      exact ⟨fun _ => ⟨rfl, rfl⟩, fun _ _ => ⟨rfl, rfl⟩, fun _ hne => (hne _ _ rfl).elim, fun _ => ⟨rfl, rfl⟩,
        fun hne => (hne _ _ rfl).elim, fun hne => (hne _ _ rfl).elim, hhost⟩

/-! ## Which command writes which result register (O52) -/

theorem parseKept_parseStart (s : State) : ParseKept s (parseStart s) :=
  ⟨s.res.status, s.res.errinfo, rfl, nofun, fun _ => rfl, .inl rfl⟩

/-- Outside the parser a command starts with the result bank it found. -/
theorem Starts.kept {i : Instr} {s u : State} (h : Starts s i u) (hi : i ≠ .hdrParse) : Kept s u := by
  cases h with
  | parse => exact absurd rfl hi
  | header | frame | mask | load => exact ⟨s.res.status, s.res.errinfo, rfl, nofun, fun _ => rfl, rfl⟩

/-- R_ERRINFO is as before, or what a HDR_PARSE that failed to read has put there. -/
theorem ParseKept.errinfo {s t : State} (h : ParseKept s t) :
    t.res.errinfo = s.res.errinfo ∨ t.res.status = .errIoRd := by
  obtain ⟨c, e, hr, hidle, hbusy, _⟩ := h
  obtain ⟨rfl, rfl⟩ : t.res.status = c ∧ t.res.errinfo = e :=
    ⟨congrArg ResultBank.status hr, congrArg ResultBank.errinfo hr⟩
  by_cases hq : t.sq.seq = .idle
  · exact hidle hq
  · exact .inl (hbusy hq)

theorem ParseKept.sameFormatRegisters {s t : State} (h : ParseKept s t) : sameFormatRegisters s t := by
  obtain ⟨c, e, hr, _⟩ := h
  refine ⟨?_, ?_, ?_, ?_⟩
  · exact congrArg (fun r => r.fmt) hr
  · exact congrArg (fun r => r.field) hr
  · exact congrArg (fun r => r.ext) hr
  · exact congrArg (fun r => r.cnt) hr

/-- The opcode registers are as before. -/
def sameOpcodeRegisters (s t : State) : Prop :=
  t.res.opc = s.res.opc ∧ t.res.cls = s.res.cls ∧ t.res.kind = s.res.kind

/-- The header registers but for the opcode are as before. -/
def sameHeaderRegisters (s t : State) : Prop :=
  t.res.fin = s.res.fin ∧ t.res.rsv1 = s.res.rsv1 ∧ t.res.rsv2 = s.res.rsv2 ∧ t.res.rsv3 = s.res.rsv3 ∧
    t.res.masked = s.res.masked ∧ t.res.key = s.res.key ∧ t.res.len = s.res.len ∧ t.res.overcap = s.res.overcap

/-- Outside the parser R_ERRINFO is as before, or what a failed write has put there, and nothing else but the status has
moved. -/
theorem Kept.registers {s t : State} (h : Kept s t) :
    (t.res.errinfo = s.res.errinfo ∨ t.res.status = .errIoWr) ∧ sameOpcodeRegisters s t ∧ sameFormatRegisters s t ∧
      sameHeaderRegisters s t := by
  obtain ⟨c, e, hr, hidle, hbusy, _⟩ := h
  rw [sameOpcodeRegisters, Machine.sameFormatRegisters, sameHeaderRegisters, hr]
  refine ⟨?_, ⟨rfl, rfl, rfl⟩, ⟨rfl, rfl, rfl, rfl⟩, rfl, rfl, rfl, rfl, rfl, rfl, rfl, rfl⟩
  by_cases hq : t.sq.seq = .idle
  · exact hidle hq
  · exact .inl (hbusy hq)

/-- R_ERRINFO is written by I/O failures alone, which need a byte step. -/
theorem EndsAtOnce.errinfo {i : Instr} {s t : State} (h : EndsAtOnce s i t) : t.res.errinfo = s.res.errinfo := by
  cases h <;> rfl

/-- The header registers are written by byte steps of HDR_PARSE alone. -/
theorem EndsAtOnce.sameHeaderRegisters {i : Instr} {s t : State} (h : EndsAtOnce s i t) :
    sameHeaderRegisters s t := by
  cases h <;> exact ⟨rfl, rfl, rfl, rfl, rfl, rfl, rfl, rfl⟩

/-- OPC_DECODE and a successful OPC_ENCODE alone write the opcode registers without a byte step. -/
theorem EndsAtOnce.opcodeRegisters {i : Instr} {s t : State} (h : EndsAtOnce s i t) :
    sameOpcodeRegisters s t ∨ (∃ n, i = .opcDecode n) ∨
      (∃ cls kind n, i = .opcEncode cls kind n) ∧ t.res.status = .ok := by
  cases h with
  | decoded n => exact .inr (.inl ⟨n, rfl⟩)
  | encoded hr => exact .inr (.inr ⟨⟨_, _, _, rfl⟩, rfl⟩)
  | _ => exact .inl ⟨rfl, rfl, rfl⟩

/-- LENFMT_FOR_LENGTH and LENFMT_OF_FIELD alone write R_FMT, R_FIELD and R_EXT. -/
theorem EndsAtOnce.formatRegisters {i : Instr} {s t : State} (h : EndsAtOnce s i t) :
    (t.res.fmt = s.res.fmt ∧ t.res.field = s.res.field ∧ t.res.ext = s.res.ext) ∨
      (∃ len, i = .lenfmtForLength len) ∨ ∃ f, i = .lenfmtOfField f := by
  cases h with
  | formatForLength len => exact .inr (.inl ⟨len, rfl⟩)
  | formatOfField f => exact .inr (.inr ⟨f, rfl⟩)
  | _ => exact .inl ⟨rfl, rfl, rfl⟩

/-- HDR_LEN and a successful FRAME_LEN alone write R_CNT. -/
theorem EndsAtOnce.count {i : Instr} {s t : State} (h : EndsAtOnce s i t) :
    t.res.cnt = s.res.cnt ∨ (∃ m len, i = .hdrLen m len) ∨ i = .frameLen ∧ t.res.status = .ok := by
  cases h with
  | headerCounted m len => exact .inr (.inl ⟨m, len, rfl⟩)
  | frameCounted hv => exact .inr (.inr ⟨rfl, rfl⟩)
  | _ => exact .inl rfl

/-- Of the commands that run byte steps outside the parser, those that send alone can end ST_ERR_IO_WR. -/
theorem Starts.sends_of_writeFailed {i : Instr} {s u t : State} (hu : Starts s i u) (hi : i ≠ .hdrParse)
    (h : proceed u = .next t) (hb : t.busy = false) (hc : t.res.status = .errIoWr) :
    i = .frameFormat ∨ ∃ f a b c o m k l, i = .hdrFormat f a b c o m k l := by
  cases hu with
  | parse => exact absurd rfl hi
  | header => exact .inr ⟨_, _, _, _, _, _, _, _, rfl⟩
  | frame hv => exact .inl rfl
  | mask hl =>
    obtain ⟨⟨_, hbusy⟩ | ⟨_, hok⟩, _⟩ := (masking_maskStart ..).run h
    · cases hb.symm.trans hbusy
    · cases hc.symm.trans hok
  | load hl hfit =>
    obtain ⟨⟨_, hbusy⟩ | ⟨_, hok⟩, _⟩ := (loading_loadStart ..).run h
    · cases hb.symm.trans hbusy
    · cases hc.symm.trans hok

/-- Settles O52: a command that ends at once by its outcome, a HDR_PARSE by ParseKept, any other by Kept. -/
theorem resultRegistersAreHeldUnlessWritten : Obligations.ResultRegistersAreHeldUnlessWritten := by
  intro i s t h hi hb
  rcases exec_command_next hi h with h | ⟨u, hu, h⟩
  · exact ⟨.inl h.errinfo, h.opcodeRegisters.imp_right .inr, h.formatRegisters, h.count, fun _ => h.sameHeaderRegisters⟩
  · by_cases hp : i = .hdrParse
    · subst hp
      cases hu
      have hkept := proceed_keeps (P := ParseKept s) (fun _ _ => ParseKept.step) (parseKept_parseStart s) h
      obtain ⟨hfmt, hfield, hext, hcnt⟩ := hkept.sameFormatRegisters
      exact ⟨hkept.errinfo.imp_right fun hc => .inl ⟨rfl, hc⟩, .inr (.inl rfl), .inl ⟨hfmt, hfield, hext⟩, .inl hcnt,
        fun hne => absurd rfl hne⟩
    · have hkept := proceed_keeps (P := Kept s) (fun _ _ => Kept.step) (hu.kept hp) h
      obtain ⟨herr, hopc, ⟨hfmt, hfield, hext, hcnt⟩, hhdr⟩ := hkept.registers
      exact ⟨herr.imp_right fun hc => .inr ⟨hu.sends_of_writeFailed hp h hb hc, hc⟩, .inl hopc,
        .inl ⟨hfmt, hfield, hext⟩, .inl hcnt, fun _ => hhdr⟩

/-! ## The hidden registers (O53) -/

/-- A value that no byte step moves while `P` holds is at the end what it was. -/
theorem proceed_holds {α : Type} {P : State → Prop} {f : State → α}
    (step : ∀ u v, P u → byteStep u = .moved v → P v) (holds : ∀ u v, P u → byteStep u = .moved v → f v = f u)
    {u t : State} (hu : P u) (h : proceed u = .next t) : f t = f u :=
  (proceed_keeps (P := fun v => P v ∧ f v = f u)
    (fun v w hv hm => ⟨step v w hv.1 hm, (holds v w hv.1 hm).trans hv.2⟩) ⟨hu, rfl⟩ h).2

/-- The parser moves POS and REM alone. -/
theorem Parsing.pidx_hold {s u v : State} (h : Parsing s u) (hm : byteStep u = .moved v) :
    (v.sq.pidx, v.sq.hold) = (u.sq.pidx, u.sq.hold) := by
  obtain ⟨_, _, _, hpidx, hhold, _⟩ := byteStep_hidden hm
  obtain ⟨⟨hq, _⟩ | ⟨hq, _⟩, _⟩ := h
  all_goals grind [parsing]

/-- A HDR_FORMAT moves POS alone. -/
theorem Formatting.rem_pidx_hold {s u v : State} (h : Formatting s u) (hm : byteStep u = .moved v) :
    (v.sq.rem, v.sq.pidx, v.sq.hold) = (u.sq.rem, u.sq.pidx, u.sq.hold) := by
  obtain ⟨_, _, hrem, hpidx, hhold, _⟩ := byteStep_hidden hm
  obtain ⟨⟨hq, hnoframe, _⟩ | ⟨hq, _⟩, _⟩ := h
  all_goals grind [parsing]

/-- A FRAME_FORMAT moves POS and PIDX alone. -/
theorem Emitting.rem_hold {s u v : State} (h : Emitting s u) (hm : byteStep u = .moved v) :
    (v.sq.rem, v.sq.hold) = (u.sq.rem, u.sq.hold) := by
  obtain ⟨_, _, hrem, _, hhold, _⟩ := byteStep_hidden hm
  obtain ⟨⟨hq | hq, _⟩ | ⟨hq, _⟩, _⟩ := h
  all_goals grind [parsing]

/-- An APPLY_MASK moves PIDX and the masker's byte alone. -/
theorem Masking.pos_rem {s u v : State} (h : Masking s u) (hm : byteStep u = .moved v) :
    (v.sq.pos, v.sq.rem) = (u.sq.pos, u.sq.rem) := by
  obtain ⟨_, hpos, hrem, _⟩ := byteStep_hidden hm
  obtain ⟨⟨hq, _⟩ | ⟨hq, _⟩, _⟩ := h
  all_goals grind [parsing]

/-- A FRAME_MESSAGE moves PIDX alone. -/
theorem Loading.pos_rem_hold {s u v : State} (h : Loading s u) (hm : byteStep u = .moved v) :
    (v.sq.pos, v.sq.rem, v.sq.hold) = (u.sq.pos, u.sq.rem, u.sq.hold) := by
  obtain ⟨_, hpos, hrem, _, hhold, _⟩ := byteStep_hidden hm
  obtain ⟨⟨hq, _⟩ | ⟨hq, _⟩, _⟩ := h
  all_goals grind [parsing]

/-- Without a byte step POS and REM stay, and so do PIDX and the masker's byte, but for the two commands that set them
before they find their length 0. -/
theorem EndsAtOnce.hidden {i : Instr} {s t : State} (h : EndsAtOnce s i t) :
    t.sq.pos = s.sq.pos ∧ t.sq.rem = s.sq.rem ∧
    (t.sq.pidx = s.sq.pidx ∧ t.sq.hold = s.sq.hold ∨ (∃ k, i = .applyMask k 0) ∨
      (∃ o, i = .frameMessage o 0) ∧ t.sq.hold = s.sq.hold) := by
  cases h with
  | maskedNothing key => exact ⟨rfl, rfl, .inr (.inl ⟨key, rfl⟩)⟩
  | loadedNothing opc => exact ⟨rfl, rfl, .inr (.inr ⟨⟨opc, rfl⟩, rfl⟩)⟩
  | _ => exact ⟨rfl, rfl, .inl ⟨rfl, rfl⟩⟩

/-- Settles O53: CMD by the latched word, the other registers by what the byte steps of each command move. -/
theorem hiddenRegistersAfterACommand : Obligations.HiddenRegistersAfterACommand := by
  intro i s t h hi
  refine ⟨by rw [exec_command_cmd hi h, decodeCommand_latchWord _ hi], ?_⟩
  rcases exec_command_next hi h with h | ⟨u, hu, h⟩
  · obtain ⟨hpos, hrem, ⟨hpidx, hhold⟩ | ⟨k, rfl⟩ | ⟨⟨o, rfl⟩, hhold⟩⟩ := h.hidden
    · exact ⟨.inl hpos, .inl hrem, .inl hpidx, .inl hhold⟩
    · exact ⟨.inl hpos, .inl hrem, .inr (.inl ⟨k, 0, rfl⟩), .inr ⟨k, 0, rfl⟩⟩
    · exact ⟨.inl hpos, .inl hrem, .inr (.inr (.inr ⟨o, 0, rfl, Nat.zero_le _⟩)), .inl hhold⟩
  · cases hu with
    | parse =>
      have hkept := proceed_holds (f := fun u => (u.sq.pidx, u.sq.hold)) (fun _ _ => Parsing.step)
        (fun _ _ => Parsing.pidx_hold) (parsing_parseStart s) h
      obtain ⟨hpidx, hhold⟩ := Prod.mk.inj hkept
      exact ⟨.inr (.inl rfl), .inr rfl, .inl hpidx, .inl hhold⟩
    | header =>
      have hkept := proceed_holds (f := fun u => (u.sq.rem, u.sq.pidx, u.sq.hold)) (fun _ _ => Formatting.step)
        (fun _ _ => Formatting.rem_pidx_hold) (formatting_sendStart ..) h
      obtain ⟨hrem, hkept⟩ := Prod.mk.inj hkept
      obtain ⟨hpidx, hhold⟩ := Prod.mk.inj hkept
      exact ⟨.inr (.inr (.inl ⟨_, _, _, _, _, _, _, _, rfl⟩)), .inl hrem, .inl hpidx, .inl hhold⟩
    | frame hv =>
      have hkept := proceed_holds (f := fun u => (u.sq.rem, u.sq.hold)) (fun _ _ => Emitting.step)
        (fun _ _ => Emitting.rem_hold) (emitting_sendStart s) h
      obtain ⟨hrem, hhold⟩ := Prod.mk.inj hkept
      exact ⟨.inr (.inr (.inr ⟨rfl, hv⟩)), .inl hrem, .inr (.inr (.inl ⟨rfl, hv⟩)), .inl hhold⟩
    | mask hl =>
      have hkept := proceed_holds (f := fun u => (u.sq.pos, u.sq.rem)) (fun _ _ => Masking.step)
        (fun _ _ => Masking.pos_rem) (masking_maskStart ..) h
      obtain ⟨hpos, hrem⟩ := Prod.mk.inj hkept
      exact ⟨.inl hpos, .inl hrem, .inr (.inl ⟨_, _, rfl⟩), .inr ⟨_, _, rfl⟩⟩
    | load hl hfit =>
      have hkept := proceed_holds (f := fun u => (u.sq.pos, u.sq.rem, u.sq.hold)) (fun _ _ => Loading.step)
        (fun _ _ => Loading.pos_rem_hold) (loading_loadStart ..) h
      obtain ⟨hpos, hkept⟩ := Prod.mk.inj hkept
      obtain ⟨hrem, hhold⟩ := Prod.mk.inj hkept
      exact ⟨.inl hpos, .inl hrem, .inr (.inr (.inr ⟨_, _, rfl, hfit⟩)), .inl hhold⟩
end Sys2Proof.Machine
end

section
/-! PROOF. The streams under one byte step and under one step: a byte crosses a port group only under its handshake (O49),
and what has crossed stays crossed (O48). -/

namespace Sys2Proof.Machine

/-! ## One byte step is at most one transfer (O49) -/

/-- `Transfer s io`: the byte step of `s` has left the streams at `io`. One case per port group with the ports that assert
it, and one for each step that no byte crosses: an end of RX is seen, a push is answered FAIL (R50, R52 to R55). -/
inductive Transfer (s : State) : Streams → Prop
  | rxEnded (hready : rxReady s = true) (hrx : s.io.rx = []) : Transfer s s.io
  | rxPulled {b : Byte} {rest : List Byte} (hready : rxReady s = true) (hrx : s.io.rx = b :: rest) :
      Transfer s { s.io with rx := rest }
  | txTaken {b : Byte} {rest : List TxAnswer} (hvalid : txValid s = true) (hdata : txData s = some b)
      (hack : s.io.txAnswers = .ack :: rest) :
      Transfer s { s.io with tx := s.io.tx ++ [b], txAnswers := rest }
  | txFailed {e : Byte} {rest : List TxAnswer} (hvalid : txValid s = true) (hfail : s.io.txAnswers = .fail e :: rest) :
      Transfer s { s.io with txAnswers := rest }
  | pinPulled {b : Byte} {rest : List Byte} (hready : pinReady s = true) (hpin : s.io.pin = b :: rest) :
      Transfer s { s.io with pin := rest }
  | poutTaken {b : Byte} {n : Nat} (hvalid : poutValid s = true) (hdata : poutData s = some b)
      (hready : s.io.poutReady = n + 1) :
      Transfer s { s.io with pout := s.io.pout ++ [b], poutReady := n }

theorem parseStep_transfer {s t : State} (hq : parsing s.sq.seq = true) (h : parseStep s = .moved t) :
    Transfer s t.io := by
  rcases parseStep_moved h with ⟨b, rest, hrx, rfl⟩ | ⟨hrx, _, rfl⟩ | ⟨e, hrx, _, rfl⟩
  · rw [parseByte_io]; exact .rxPulled hq hrx
  · exact .rxEnded hq hrx
  · exact .rxEnded hq hrx

/-- A push of the byte on `tx_data`: it crosses when acknowledged, and not when answered FAIL. -/
theorem txPush_transfer {b : Byte} {acked : State → State} {s t : State} (hacked : ∀ u, (acked u).io = u.io)
    (hvalid : txValid s = true) (hdata : txData s = some b) (h : txPush b acked s = .moved t) : Transfer s t.io := by
  rcases txPush_moved h with ⟨rest, hack, rfl⟩ | ⟨e, rest, hfail, rfl⟩
  · rw [hacked]; exact .txTaken hvalid hdata hack
  · rw [sendFailed_io]; exact .txFailed hvalid hfail

theorem headerStep_transfer {s t : State} (hq : s.sq.seq = .sHdr) (h : headerStep s = .moved t) : Transfer s t.io := by
  obtain ⟨b, hb, hpush⟩ := headerStep_moved h
  exact txPush_transfer headerAcked_io (by simp [txValid, hq]) (by simp [txData, hq, hb]) hpush

theorem payloadStep_transfer {s t : State} (hq : s.sq.seq = .fPay) (h : payloadStep s = .moved t) :
    Transfer s t.io := by
  obtain ⟨hhas, hpush⟩ := payloadStep_moved h
  exact txPush_transfer payloadAcked_io (by simp [txValid, hq]) (by simp [txData, hq, hhas]) hpush

theorem maskStep_transfer {s t : State} (hq : s.sq.seq = .mRun) (h : maskStep s = .moved t) : Transfer s t.io := by
  rcases maskStep_moved h with ⟨b, rest, hhold, hpin, rfl⟩ | ⟨b, n, u, hhold, hready, rfl, rfl⟩
  · exact .pinPulled (by simp [pinReady, hq, hhold]) hpin
  · have hout : Transfer s { s.io with
        pout := s.io.pout ++ [b ^^^ keyByte (cmdKey s.sq.cmd) s.sq.pidx.toNat], poutReady := n } :=
      .poutTaken (by simp [poutValid, hq, hhold]) (by simp [poutData, hq, hhold]) hready
    split <;> exact hout

theorem loadStep_transfer {s t : State} (hq : s.sq.seq = .lRun) (h : loadStep s = .moved t) : Transfer s t.io := by
  obtain ⟨_, b, rest, u, hpin, rfl, rfl⟩ := loadStep_moved h
  have hin : Transfer s { s.io with pin := rest } := .pinPulled (by simp [pinReady, hq]) hpin
  split <;> exact hin

/-- A byte step is at most one transfer, on the port group its phase asserts. -/
theorem byteStep_transfer {s t : State} (h : byteStep s = .moved t) : Transfer s t.io := by
  rcases byteStep_cases s with ⟨_, e⟩ | ⟨hq, e⟩ | ⟨hq, e⟩ | ⟨hq, e⟩ | ⟨hq, e⟩ | ⟨hq, e⟩ <;> rw [e] at h
  · cases h
  · exact parseStep_transfer hq h
  · exact headerStep_transfer hq h
  · exact payloadStep_transfer hq h
  · exact maskStep_transfer hq h
  · exact loadStep_transfer hq h

/-- Settles O49: the one transfer a byte step makes has its handshake, and the other streams are as before. -/
theorem transfersHappenOnlyUnderTheirHandshake : Obligations.TransfersHappenOnlyUnderTheirHandshake := by
  intro s t h
  have ht := byteStep_transfer h
  generalize t.io = io at ht
  cases ht with
  | rxEnded | txFailed => exact ⟨.inl rfl, .inl rfl, .inl rfl, .inl rfl⟩
  | rxPulled hready hrx => exact ⟨.inr ⟨hready, _, hrx⟩, .inl rfl, .inl rfl, .inl rfl⟩
  | txTaken hvalid hdata => exact ⟨.inl rfl, .inr ⟨hvalid, _, hdata, rfl⟩, .inl rfl, .inl rfl⟩
  | pinPulled hready hpin => exact ⟨.inl rfl, .inl rfl, .inr ⟨hready, _, hpin⟩, .inl rfl⟩
  | poutTaken hvalid hdata => exact ⟨.inl rfl, .inl rfl, .inl rfl, .inr ⟨hvalid, _, hdata, rfl⟩⟩

/-! ## Every step only moves the streams on (O48) -/

/-- A command that runs byte steps starts with the streams it found. -/
theorem Starts.io {i : Instr} {s u : State} (h : Starts s i u) : u.io = s.io := by cases h <;> rfl

/-- A command moves the streams on from where it found them. Here `u` is the state its byte steps start from, or the
one it has ended in at once: accepting a command touches no stream. -/
theorem exec_command_movedOn {i : Instr} {s t : State} (hi : isCommand i = true) (h : exec i s = .next t) :
    ∃ u, u.io = s.io ∧ MovedOn u t := by
  rcases exec_command_next hi h with hend | ⟨u, hu, hrun⟩
  · exact ⟨t, hend.io, .refl t⟩
  · exact ⟨u, hu.io, proceed_movedOn hrun⟩

/-- Every step moves the streams on from where it found them, a reset edge included (R212). -/
theorem step_movedOn {s t : State} (h : step s = .next t) : ∃ u, u.io = s.io ∧ MovedOn u t := by
  rcases step_cases s with ⟨_, e⟩ | ⟨_, _, _, e⟩ | ⟨w, rest, _, _, _, e⟩ | ⟨_, _, e⟩ |
    ⟨_, _, _, _, _, _, _, _, hm, e⟩ <;> rw [e] at h
  · cases h; exact ⟨resetEdge s, rfl, .refl _⟩
  · cases h; exact ⟨s, rfl, .refl s⟩
  · exact exec_command_movedOn (s := { s with cmds := rest, sq := { s.sq with cmd := w } }) (isCommand_decodeCommand w) h
  · exact ⟨s, rfl, proceed_movedOn h⟩
  · cases h; exact ⟨s, rfl, byteStep_movedOn hm⟩

/-- Settles O48: the clauses on the streams of `MovedOn`, which speak of the state only by its streams. -/
theorem streamsOnlyMoveForward : Obligations.StreamsOnlyMoveForward := by
  intro s t h
  obtain ⟨u, hio, hrx, hpin, htx, hpout, hend, _⟩ := step_movedOn h
  rw [← hio]
  exact ⟨hrx, hpin, htx, hpout, hend⟩

end Sys2Proof.Machine
end

section
/-! PROOF. The encoding: the encoder's words decode to what was encoded (O1, O2), every command word is a command (O3), and
the length of a header is known from fixed byte 1 (O4). -/

namespace Sys2Proof

open Machine

/-! ## Words that encode a command -/

/-- A command's words are its one command word. -/
theorem encode_of_isCommand {i : Instr} (h : isCommand i = true) : encode i = .command (commandWord i) := by
  unfold isCommand at h
  unfold commandWord
  split at h
  · next w hw => rw [hw]
  · cases h

/-! ## Bytes that encode a header -/

theorem decode_singleByte (b : Byte) : decode (.rx [b]) = .ok (decodeFixedByte0 b) := rfl

theorem decode_of_decodeHeader {bs : List Byte} {i : Instr} (h : decodeHeader bs = .ok (i, [])) :
    decode (.rx bs) = .ok i := by
  simp only [decode, decodeRx, h]

/-! Fixed byte 1 selects the shape (R85). -/

theorem decodeHeader_u8 {b1 : Byte} (h : (byte1Field b1).toNat < 126) (b0 : Byte) (rest : List Byte) :
    decodeHeader (b0 :: b1 :: rest) = decodeU8 b0 (byte1Mask b1) (byte1Field b1) rest := by
  simp only [decodeHeader, h, if_true]

theorem decodeHeader_u16 {b1 : Byte} (h : (byte1Field b1).toNat = 126) (b0 : Byte) (rest : List Byte) :
    decodeHeader (b0 :: b1 :: rest) = decodeU16 b0 (byte1Mask b1) rest := by
  simp [decodeHeader, h]

theorem decodeHeader_u64 {b1 : Byte} (h : (byte1Field b1).toNat = 127) (b0 : Byte) (rest : List Byte) :
    decodeHeader (b0 :: b1 :: rest) = decodeU64 b0 (byte1Mask b1) rest := by
  simp [decodeHeader, h]

section
variable (b0 : Byte) (key : Key)

/-! What stands behind the fixed bytes, put together again from the bytes the encoder took it apart into. -/

theorem decodeU8_keyBytes (f : BitVec 7) : decodeU8 b0 true f (keyBytes key) = .ok (.hdrH6 (byte0Fin b0) (byte0Rsv1 b0)
    (byte0Rsv2 b0) (byte0Rsv3 b0) (byte0Opc b0) f key, []) := by
  simp only [decodeU8, keyBytes, key_of_bytes, if_true]

theorem decodeU16_be2 (len : BitVec 16) : decodeU16 b0 false (be2 len) = .ok (.hdrH4 (byte0Fin b0) (byte0Rsv1 b0)
    (byte0Rsv2 b0) (byte0Rsv3 b0) (byte0Opc b0) len, []) := by
  simp [decodeU16, be2, be2_append]

theorem decodeU16_be2_keyBytes (len : BitVec 16) : decodeU16 b0 true (be2 len ++ keyBytes key) = .ok (.hdrH8
    (byte0Fin b0) (byte0Rsv1 b0) (byte0Rsv2 b0) (byte0Rsv3 b0) (byte0Opc b0) len key, []) := by
  simp [decodeU16, be2, keyBytes, be2_append, key_of_bytes]

theorem decodeU64_be8 (len : BitVec 64) : decodeU64 b0 false (be8 len) = .ok (.hdrH10 (byte0Fin b0) (byte0Rsv1 b0)
    (byte0Rsv2 b0) (byte0Rsv3 b0) (byte0Opc b0) len, []) := by
  simp [decodeU64, be8, be8_append]

theorem decodeU64_be8_keyBytes (len : BitVec 64) : decodeU64 b0 true (be8 len ++ keyBytes key) = .ok (.hdrH14
    (byte0Fin b0) (byte0Rsv1 b0) (byte0Rsv2 b0) (byte0Rsv3 b0) (byte0Opc b0) len key, []) := by
  simp [decodeU64, be8, keyBytes, be8_append, key_of_bytes]

end

/-- Settles O2: a command by its word, a fixed byte 0 by its opcode, a header by the shape its fixed byte 1 selects. -/
theorem decodeEncodeRoundTrip : Obligations.DecodeEncodeRoundTrip := by
  intro i hwf
  cases hi : isCommand i with
  | true => rw [encode_of_isCommand hi, decode, decodeCommand_commandWord hi]
  | false =>
    cases i with
    | wireContinue | wireText | wireBinary | wireDrsv3 | wireDrsv4 | wireDrsv5 | wireDrsv6 | wireDrsv7
    | wireClose | wirePing | wirePong | wireCrsv11 | wireCrsv12 | wireCrsv13 | wireCrsv14 | wireCrsv15 =>
      simp [encode, decode_singleByte, decodeFixedByte0]
    | hdrH2 fin rsv1 rsv2 rsv3 opc len =>
      have hlen : len.toNat < 126 := of_decide_eq_true hwf
      refine decode_of_decodeHeader ((decodeHeader_u8 (by simpa using hlen) ..).trans ?_)
      simp [decodeU8]
    | hdrH6 fin rsv1 rsv2 rsv3 opc len key =>
      have hlen : len.toNat < 126 := of_decide_eq_true hwf
      refine decode_of_decodeHeader ((decodeHeader_u8 (by simpa using hlen) ..).trans ?_)
      simp [decodeU8_keyBytes]
    | hdrH4 =>
      refine decode_of_decodeHeader ((decodeHeader_u16 rfl ..).trans ?_)
      simp [decodeU16_be2]
    | hdrH8 =>
      refine decode_of_decodeHeader ((decodeHeader_u16 rfl ..).trans ?_)
      simp [decodeU16_be2_keyBytes]
    | hdrH10 =>
      refine decode_of_decodeHeader ((decodeHeader_u64 rfl ..).trans ?_)
      simp [decodeU64_be8]
    | hdrH14 =>
      refine decode_of_decodeHeader ((decodeHeader_u64 rfl ..).trans ?_)
      simp [decodeU64_be8_keyBytes]
    | _ => cases hi

/-! ## Every word is a command (O3) -/

/-- The operation code is one of sixteen. -/
theorem op_cases (op : BitVec 4) : op = 0 ∨ op = 1 ∨ op = 2 ∨ op = 3 ∨ op = 4 ∨ op = 5 ∨ op = 6 ∨ op = 7 ∨ op = 8 ∨
    op = 9 ∨ op = 10 ∨ op = 11 ∨ op = 12 ∨ op = 13 ∨ op = 14 ∨ op = 15 := by
  revert op; decide

/-! What a word decodes to, by its operation code (R94, R95). -/

section
variable {w : CmdWord}

theorem decodeCommand_op0 (h : cmdOp w = 0) : decodeCommand w = .reservedOp0 := by simp [decodeCommand, h]

theorem decodeCommand_op1 (h : cmdOp w = 1) : decodeCommand w = .opcDecode (cmdOpc w) := by simp [decodeCommand, h]

theorem decodeCommand_op2 (h : cmdOp w = 2) :
    decodeCommand w = .opcEncode (cmdClass w) (cmdKind w) (cmdOpc w) := by simp [decodeCommand, h]

theorem decodeCommand_op3 (h : cmdOp w = 3) : decodeCommand w = .lenfmtForLength (cmdLen w) := by
  simp [decodeCommand, h]

theorem decodeCommand_op4 (h : cmdOp w = 4) : decodeCommand w = .lenfmtOfField ((cmdLen w).extractLsb' 0 7) := by
  simp [decodeCommand, h]

theorem decodeCommand_op5 (h : cmdOp w = 5) : decodeCommand w = .hdrLen (cmdMasked w) (cmdLen w) := by
  simp [decodeCommand, h]

theorem decodeCommand_op6 (h : cmdOp w = 6) : decodeCommand w = .hdrParse := by simp [decodeCommand, h]

theorem decodeCommand_op7 (h : cmdOp w = 7) : decodeCommand w = .hdrFormat (cmdFin w) (cmdRsv1 w) (cmdRsv2 w)
    (cmdRsv3 w) (cmdOpc w) (cmdMasked w) (cmdKey w) (cmdLen w) := by simp [decodeCommand, h]

theorem decodeCommand_op8 (h : cmdOp w = 8) : decodeCommand w = .applyMask (cmdKey w) (cmdLen w) := by
  simp [decodeCommand, h]

theorem decodeCommand_op9 (h : cmdOp w = 9) : decodeCommand w = .frameMessage (cmdOpc w) (cmdLen w) := by
  simp [decodeCommand, h]

theorem decodeCommand_op10 (h : cmdOp w = 10) : decodeCommand w = .frameSetKey (cmdMasked w) (cmdKey w) := by
  simp [decodeCommand, h]

theorem decodeCommand_op11 (h : cmdOp w = 11) : decodeCommand w = .frameFormat := by simp [decodeCommand, h]

theorem decodeCommand_op12 (h : cmdOp w = 12) : decodeCommand w = .frameLen := by simp [decodeCommand, h]

theorem decodeCommand_op13 (h : cmdOp w = 13) : decodeCommand w = .reservedOp13 := by simp [decodeCommand, h]

theorem decodeCommand_op14 (h : cmdOp w = 14) : decodeCommand w = .reservedOp14 := by simp [decodeCommand, h]

theorem decodeCommand_op15 (h : cmdOp w = 15) : decodeCommand w = .reservedOp15 := by simp [decodeCommand, h]

end

/-- The word a command word is encoded to again has its operation code. -/
theorem cmdOp_commandWord_decodeCommand (w : CmdWord) : cmdOp (commandWord (decodeCommand w)) = cmdOp w := by
  rcases op_cases (cmdOp w) with h | h | h | h | h | h | h | h | h | h | h | h | h | h | h | h <;>
    simp [decodeCommand, h, commandWord, encode, cmdBare]

/-- The reserved codes decode to the reserved rows, and no other code does (R95). -/
theorem decodeCommand_reserved_iff (w : CmdWord) :
    (decodeCommand w = .reservedOp0 ∨ decodeCommand w = .reservedOp13 ∨ decodeCommand w = .reservedOp14 ∨
      decodeCommand w = .reservedOp15) ↔ (cmdOp w).toNat = 0 ∨ 13 ≤ (cmdOp w).toNat := by
  constructor
  · have hop := cmdOp_commandWord_decodeCommand w
    rintro (h | h | h | h) <;> rw [← hop, h] <;> simp [commandWord, encode, cmdBare]
  · intro h
    have hop : cmdOp w = 0 ∨ cmdOp w = 13 ∨ cmdOp w = 14 ∨ cmdOp w = 15 := by
      revert h; generalize cmdOp w = op; revert op; decide
    exact hop.imp decodeCommand_op0 (.imp decodeCommand_op13 (.imp decodeCommand_op14 decodeCommand_op15))

/-- `v` has the operation code of `w` and holds the same in the fields that operation reads (R94). -/
structure SameReadFields (v w : CmdWord) : Prop where
  op : cmdOp v = cmdOp w
  opcDecode : cmdOp w = 1 → cmdOpc v = cmdOpc w
  opcEncode : cmdOp w = 2 → cmdClass v = cmdClass w ∧ cmdKind v = cmdKind w ∧ cmdOpc v = cmdOpc w
  lenfmtForLength : cmdOp w = 3 → cmdLen v = cmdLen w
  lenfmtOfField : cmdOp w = 4 → (cmdLen v).toNat % 128 = (cmdLen w).toNat % 128
  hdrLen : cmdOp w = 5 → cmdMasked v = cmdMasked w ∧ cmdLen v = cmdLen w
  hdrFormat : cmdOp w = 7 → cmdFin v = cmdFin w ∧ cmdRsv1 v = cmdRsv1 w ∧ cmdRsv2 v = cmdRsv2 w ∧
    cmdRsv3 v = cmdRsv3 w ∧ cmdOpc v = cmdOpc w ∧ cmdMasked v = cmdMasked w ∧
    (cmdMasked w = true → cmdKey v = cmdKey w) ∧ cmdLen v = cmdLen w
  applyMask : cmdOp w = 8 → cmdKey v = cmdKey w ∧ cmdLen v = cmdLen w
  frameMessage : cmdOp w = 9 → cmdOpc v = cmdOpc w ∧ cmdLen v = cmdLen w
  frameSetKey : cmdOp w = 10 → cmdMasked v = cmdMasked w ∧ (cmdMasked w = true → cmdKey v = cmdKey w)

/-- The length field LENFMT_OF_FIELD reads is `len` modulo 128. -/
theorem extractField_congr {l m : Len} (h : l.toNat % 128 = m.toNat % 128) : l.extractLsb' 0 7 = m.extractLsb' 0 7 := by
  apply BitVec.eq_of_toNat_eq
  simpa using h

theorem withoutUnreadKey_hdrFormat_congr (fin rsv1 rsv2 rsv3 : Bool) (opc : BitVec 4) {masked : Bool} {k k' : Key}
    (len : Len) (h : masked = true → k = k') :
    withoutUnreadKey (.hdrFormat fin rsv1 rsv2 rsv3 opc masked k len) =
      withoutUnreadKey (.hdrFormat fin rsv1 rsv2 rsv3 opc masked k' len) := by
  cases masked with
  | false => rfl
  | true => rw [h rfl]

theorem withoutUnreadKey_frameSetKey_congr {masked : Bool} {k k' : Key} (h : masked = true → k = k') :
    withoutUnreadKey (.frameSetKey masked k) = withoutUnreadKey (.frameSetKey masked k') := by
  cases masked with
  | false => rfl
  | true => rw [h rfl]

/-- A command reads no field of its word but those R94 lists for its operation. -/
theorem SameReadFields.decodeAlike {v w : CmdWord} (h : SameReadFields v w) :
    withoutUnreadKey (decodeCommand v) = withoutUnreadKey (decodeCommand w) := by
  have hv := h.op
  rcases op_cases (cmdOp w) with hw | hw | hw | hw | hw | hw | hw | hw | hw | hw | hw | hw | hw | hw | hw | hw <;>
    rw [hw] at hv
  · rw [decodeCommand_op0 hv, decodeCommand_op0 hw]
  · rw [decodeCommand_op1 hv, decodeCommand_op1 hw, h.opcDecode hw]
  · obtain ⟨hcls, hkind, hopc⟩ := h.opcEncode hw
    rw [decodeCommand_op2 hv, decodeCommand_op2 hw, hcls, hkind, hopc]
  · rw [decodeCommand_op3 hv, decodeCommand_op3 hw, h.lenfmtForLength hw]
  · rw [decodeCommand_op4 hv, decodeCommand_op4 hw, extractField_congr (h.lenfmtOfField hw)]
  · obtain ⟨hmasked, hlen⟩ := h.hdrLen hw
    rw [decodeCommand_op5 hv, decodeCommand_op5 hw, hmasked, hlen]
  · rw [decodeCommand_op6 hv, decodeCommand_op6 hw]
  · obtain ⟨hfin, h1, h2, h3, hopc, hmasked, hkey, hlen⟩ := h.hdrFormat hw
    rw [decodeCommand_op7 hv, decodeCommand_op7 hw, hfin, h1, h2, h3, hopc, hmasked, hlen]
    exact withoutUnreadKey_hdrFormat_congr _ _ _ _ _ _ hkey
  · obtain ⟨hkey, hlen⟩ := h.applyMask hw
    rw [decodeCommand_op8 hv, decodeCommand_op8 hw, hkey, hlen]
  · obtain ⟨hopc, hlen⟩ := h.frameMessage hw
    rw [decodeCommand_op9 hv, decodeCommand_op9 hw, hopc, hlen]
  · obtain ⟨hmasked, hkey⟩ := h.frameSetKey hw
    rw [decodeCommand_op10 hv, decodeCommand_op10 hw, hmasked]
    exact withoutUnreadKey_frameSetKey_congr hkey
  · rw [decodeCommand_op11 hv, decodeCommand_op11 hw]
  · rw [decodeCommand_op12 hv, decodeCommand_op12 hw]
  · rw [decodeCommand_op13 hv, decodeCommand_op13 hw]
  · rw [decodeCommand_op14 hv, decodeCommand_op14 hw]
  · rw [decodeCommand_op15 hv, decodeCommand_op15 hw]

/-- Settles O3: the word encoded again decodes to the same command, and the fields an operation reads are all of it. -/
theorem everyCommandWordDecodes : Obligations.EveryCommandWordDecodes := fun w =>
  ⟨isCommand_decodeCommand w, cmdOp_commandWord_decodeCommand w, decodeCommand_commandWord (isCommand_decodeCommand w),
    decodeCommand_reserved_iff w, fun _ hop h1 h2 h3 h4 h5 h7 h8 h9 h10 =>
      SameReadFields.decodeAlike ⟨hop, h1, h2, h3, h4, h5, h7, h8, h9, h10⟩⟩

/-! ## How many bytes a header takes (O4) -/

/-- `TakesExactly e m bs r`: `r` reads `bs`, an extension of `e` bytes and a key of `m`, leaves the bytes behind them, and
says which of the two is short where there are fewer (R86). -/
structure TakesExactly (e m : Nat) (bs : List Byte) (r : Except DecodeError (Instr × List Byte)) : Prop where
  complete : e + m ≤ bs.length → ∃ i, r = .ok (i, bs.drop (e + m))
  extensionShort : bs.length < e → r = .error .extensionShort
  keyShort : e ≤ bs.length → bs.length < e + m → r = .error .keyShort

/-- An extension that is whole stands before what else is read. -/
theorem TakesExactly.afterExtension {m : Nat} {bs : List Byte} {r : Except DecodeError (Instr × List Byte)}
    (h : TakesExactly 0 m bs r) (ext : List Byte) : TakesExactly ext.length m (ext ++ bs) r where
  complete hl := by
    obtain ⟨i, hi⟩ := h.complete (by simpa using hl)
    exact ⟨i, by simpa using hi⟩
  extensionShort hl := by simp at hl
  keyShort _ hl := h.keyShort (Nat.zero_le _) (by simpa using hl)

theorem TakesExactly.of_extensionShort {e m : Nat} {bs : List Byte} (h : bs.length < e) :
    TakesExactly e m bs (.error .extensionShort) where
  complete hl := by omega
  extensionShort _ := rfl
  keyShort hl := by omega

theorem TakesExactly.of_noKey (i : Instr) (bs : List Byte) : TakesExactly 0 0 bs (.ok (i, bs)) where
  complete _ := ⟨i, rfl⟩
  extensionShort hl := by simp at hl
  keyShort _ hl := by simp at hl

/-- A reader that takes four bytes where they are, and calls the key short where they are not. -/
theorem TakesExactly.of_key {read : List Byte → Except DecodeError (Instr × List Byte)}
    (whole : ∀ k0 k1 k2 k3 rest, ∃ i, read (k0 :: k1 :: k2 :: k3 :: rest) = .ok (i, rest))
    (short0 : read [] = .error .keyShort) (short1 : ∀ k0, read [k0] = .error .keyShort)
    (short2 : ∀ k0 k1, read [k0, k1] = .error .keyShort) (short3 : ∀ k0 k1 k2, read [k0, k1, k2] = .error .keyShort)
    (bs : List Byte) : TakesExactly 0 4 bs (read bs) where
  complete hl := by
    rcases bs with _ | ⟨k0, _ | ⟨k1, _ | ⟨k2, _ | ⟨k3, rest⟩⟩⟩⟩
    case cons.cons.cons.cons => exact whole k0 k1 k2 k3 rest
    all_goals simp at hl
  extensionShort hl := by simp at hl
  keyShort _ hl :=
    match bs, hl with
    | [], _ => short0
    | [k0], _ => short1 k0
    | [k0, k1], _ => short2 k0 k1
    | [k0, k1, k2], _ => short3 k0 k1 k2

theorem decodeU8_takes (b0 : Byte) (masked : Bool) (f : BitVec 7) (bs : List Byte) :
    TakesExactly 0 (if masked then 4 else 0) bs (decodeU8 b0 masked f bs) := by
  cases masked with
  | false => exact .of_noKey _ bs
  | true =>
    exact .of_key (read := decodeU8 b0 true f) (fun _ _ _ _ _ => ⟨_, rfl⟩) rfl (fun _ => rfl) (fun _ _ => rfl)
      (fun _ _ _ => rfl) bs

theorem decodeU16_takes (b0 : Byte) (masked : Bool) (bs : List Byte) :
    TakesExactly 2 (if masked then 4 else 0) bs (decodeU16 b0 masked bs) := by
  rcases bs with _ | ⟨l0, _ | ⟨l1, bs⟩⟩
  · exact .of_extensionShort (by simp)
  · exact .of_extensionShort (by simp)
  · refine .afterExtension ?_ [l0, l1]
    cases masked with
    | false => exact .of_noKey _ bs
    | true =>
      exact .of_key (read := fun bs => decodeU16 b0 true (l0 :: l1 :: bs)) (fun _ _ _ _ _ => ⟨_, rfl⟩) rfl
        (fun _ => rfl) (fun _ _ => rfl) (fun _ _ _ => rfl) bs

theorem decodeU64_takes (b0 : Byte) (masked : Bool) (bs : List Byte) :
    TakesExactly 8 (if masked then 4 else 0) bs (decodeU64 b0 masked bs) := by
  rcases bs with _ | ⟨l0, _ | ⟨l1, _ | ⟨l2, _ | ⟨l3, _ | ⟨l4, _ | ⟨l5, _ | ⟨l6, _ | ⟨l7, bs⟩⟩⟩⟩⟩⟩⟩⟩
  case cons.cons.cons.cons.cons.cons.cons.cons =>
    refine .afterExtension ?_ [l0, l1, l2, l3, l4, l5, l6, l7]
    cases masked with
    | false => exact .of_noKey _ bs
    | true =>
      exact .of_key (read := fun bs => decodeU64 b0 true (l0 :: l1 :: l2 :: l3 :: l4 :: l5 :: l6 :: l7 :: bs))
        (fun _ _ _ _ _ => ⟨_, rfl⟩) rfl (fun _ => rfl) (fun _ _ => rfl) (fun _ _ _ => rfl) bs
  all_goals exact .of_extensionShort (by simp)

/-- A header takes the extension its length field announces and the key its MASK bit announces (R86). -/
theorem decodeHeader_takes (b0 b1 : Byte) (bs : List Byte) :
    TakesExactly (formatOfField (byte1Field b1)).extBytes (if byte1Mask b1 then 4 else 0) bs
      (decodeHeader (b0 :: b1 :: bs)) := by
  rcases formatOfField_cases (byte1Field b1) with ⟨hf, hfmt⟩ | ⟨hf, hfmt⟩ | ⟨hf, hfmt⟩ <;> rw [hfmt]
  · rw [decodeHeader_u8 hf]; exact decodeU8_takes ..
  · rw [decodeHeader_u16 hf]; exact decodeU16_takes ..
  · rw [decodeHeader_u64 hf]; exact decodeU64_takes ..

/-- The extension bytes a length field announces, by its number (R83, R86). -/
theorem formatOfField_extBytes (f : BitVec 7) :
    (formatOfField f).extBytes = if f.toNat < 126 then 0 else if f.toNat = 126 then 2 else 8 := by
  rcases formatOfField_cases f with ⟨hf, hfmt⟩ | ⟨hf, hfmt⟩ | ⟨hf, hfmt⟩ <;> simp [hfmt, hf, LengthFormat.extBytes]

/-- Settles O4: `E` and `M` by fixed byte 1 as a number, and each clause by the one reading of a header. -/
theorem headerLengthIsSetByFixedByte1 : Obligations.HeaderLengthIsSetByFixedByte1 := by
  intro b0 b1 bs e m
  have he : (formatOfField (byte1Field b1)).extBytes = e := by
    rw [formatOfField_extBytes, byte1Field_toNat]
  have hm : (if byte1Mask b1 then 4 else 0) = m := by
    simp only [byte1Mask_eq, decide_eq_true_eq, m]
  have h := decodeHeader_takes b0 b1 bs
  rw [he, hm] at h
  exact ⟨h.complete, h.extensionShort, h.keyShort⟩

/-! ## Sample words (O1) -/

/-- Settles O1: the words are closed terms, and the decoder computes. -/
theorem sampleWordsDecode : Obligations.SampleWordsDecode := by
  unfold Obligations.SampleWordsDecode
  decide

end Sys2Proof
end

section
/-! PROOF. The step that runs a presented command (O6), and what the rows that arrive on RX leave behind: fixed byte 0 with
its class and kind (O24), and a whole header of each shape (O25). -/

namespace Sys2Proof.Machine

/-! ## A presented command -/

/-- A word presented while BUSY = 0 and no reset is applied is what the next step takes. -/
theorem fetch_presented {s : State} {w : CmdWord} {rest : List CmdWord} (hr : s.rstEdges = 0) (hb : s.busy = false)
    (hc : s.cmds = w :: rest) :
    fetch s = .instr (decodeCommand w) { s with cmds := rest, sq := { s.sq with cmd := w } } := by
  simp [fetch, fetchCommand, hr, hb, hc]

/-- Settles O6: the step runs what it takes from the command port. -/
theorem stepRunsThePresentedCommand : Obligations.StepRunsThePresentedCommand := by
  intro s w rest hr hb hc
  rw [step, fetch_presented hr hb hc]

/-! ## Fixed byte 0 -/

/-- Settles O24: each row is `takeFixedByte0` with the row's opcode, class and kind, which writes nothing else. -/
theorem fixedByte0IsTakenWithItsClass : Obligations.FixedByte0IsTakenWithItsClass := by
  intro fin rsv1 rsv2 rsv3 s taken
  have row {n : BitVec 4} {cls : Bool} {kind : BitVec 2} {i : Instr}
      (hi : exec i s = .next (takeFixedByte0 fin rsv1 rsv2 rsv3 n cls kind s)) : taken n cls kind i :=
    ⟨_, hi, rfl, rfl, rfl, rfl, ⟨rfl, fun _ => rfl⟩, rfl, rfl, rfl⟩
  exact ⟨row rfl, row rfl, row rfl, row rfl, row rfl, row rfl, row rfl, row rfl, row rfl, row rfl, row rfl, row rfl,
    row rfl, row rfl, row rfl, row rfl⟩

/-! ## A whole header -/

/-- The header in the result bank is the one that was taken, its key included where it has one (R132). -/
theorem parsedHeader_takeHeader (fin rsv1 rsv2 rsv3 : Bool) (opc : BitVec 4) (mask : Option Key) (len : Len)
    (count rem : BitVec 4) (s : State) :
    parsedHeader (takeHeader fin rsv1 rsv2 rsv3 opc mask len count rem s) =
      { isFinal := fin, rsv1 := rsv1, rsv2 := rsv2, rsv3 := rsv3, opcode := OpCode.ofWire opc, mask := mask } := by
  cases mask with
  | none => simp [parsedHeader, takeHeader]
  | some key => simp [parsedHeader, takeHeader, finishParse_res_key]

/-- Settles O25: each row is `takeHeader` with the row's key, length and byte count, whose registers are those of
`finishParse`. -/
theorem headerShapesAreTakenWhole : Obligations.HeaderShapesAreTakenWhole := by
  intro fin rsv1 rsv2 rsv3 opc l7 l16 l64 key s taken
  have row {count rem : BitVec 4} {mask : Option Key} {len : Len} {i : Instr}
      (hi : exec i s = .next (takeHeader fin rsv1 rsv2 rsv3 opc mask len count rem s)) : taken count mask len i := by
    refine ⟨_, hi, ?_⟩
    rw [parsedHeader_takeHeader]
    simp [takeHeader, ofWire_cls, ofWire_kind, overcapFlag, sameFormatRegisters, sameFrame, sameHost]
  simp only [BitVec.ofNat_toNat]
  exact ⟨row rfl, row rfl, row rfl, row rfl, row rfl, row rfl⟩

end Sys2Proof.Machine
end

section
/-! PROOF. The opcode taxonomy: OPC_DECODE classifies every wire opcode (O11), OPC_ENCODE encodes the sixteen OpCodes and
nothing else (O12), and the two are inverse (O13). -/

namespace Sys2Proof.Machine

/-! ## Class and kind of a wire opcode as numbers (R110) -/

theorem classOf_eq_decide (n : BitVec 4) : classOf n = decide (8 ≤ n.toNat) := BitVec.msb_eq_decide n

theorem kindOf_eq_ite (n : BitVec 4) :
    kindOf n = if n.toNat % 8 < 3 then BitVec.ofNat 2 (n.toNat % 8) else 3 := by
  have low : n.extractLsb' 0 2 = BitVec.ofNat 2 (n.toNat % 8) := by
    apply BitVec.eq_of_toNat_eq
    simp only [BitVec.extractLsb'_toNat, Nat.shiftRight_zero, BitVec.toNat_ofNat]
    omega
  simp only [kindOf, BitVec.extractLsb'_toNat, Nat.shiftRight_zero, low]

/-! ## Views (R111) -/

/-- The view of an OpCode encodes to its wire value; only that of a `Reserved` needs `n` for it. -/
theorem encodeView_of_opCode {c : OpCode} {n : BitVec 4} (hn : c.kind = 3 → n = c.wire) :
    encodeView c.cls c.kind n = some c.wire := by
  rcases c with (_ | _ | _ | k) | (_ | _ | _ | k)
  case data.reserved => rw [hn rfl]; clear hn; revert k; decide
  case control.reserved => rw [hn rfl]; clear hn; revert k; decide
  all_goals rfl

/-- A well-formed `Reserved(n)` view is the view of the OpCode that `n` stands for. -/
theorem ofWire_of_reservedViewOk {cls : Bool} {n : BitVec 4} (h : reservedViewOk cls n = true) :
    (OpCode.ofWire n).cls = cls ∧ (OpCode.ofWire n).kind = 3 := by
  obtain ⟨hcls, hn⟩ : n.getLsbD 3 = cls ∧ 3 ≤ (n.extractLsb' 0 3).toNat := by
    simpa only [reservedViewOk, Bool.and_eq_true, beq_iff_eq, decide_eq_true_eq] using h
  rw [ofWire_cls, ofWire_kind]
  exact ⟨hcls, if_neg (Nat.not_lt.mpr hn)⟩

/-- A `Reserved(n)` view that is the view of no OpCode has no wire value. -/
theorem encodeView_of_noOpCode {cls : Bool} {n : BitVec 4}
    (hn : ∀ c : OpCode, c.cls = cls → c.kind = 3 → c.wire ≠ n) : encodeView cls 3 n = none := by
  have hbad : ¬reservedViewOk cls n = true := fun h =>
    have ⟨hcls, hkind⟩ := ofWire_of_reservedViewOk h
    hn (OpCode.ofWire n) hcls hkind (wire_ofWire n)
  exact if_neg hbad

/-! ## The two operations (R110, R111) -/

theorem exec_opcDecode (n : BitVec 4) (s : State) : exec (.opcDecode n) s =
    .next (finishOk (writeOpcode n (classOf n) (kindOf n) (accept (.opcDecode n) s))) := rfl

theorem exec_opcEncode_some {cls : Bool} {kind : BitVec 2} {n r : BitVec 4} (hr : encodeView cls kind n = some r)
    (s : State) : exec (.opcEncode cls kind n) s =
      .next (finishOk (writeOpcode r cls kind (accept (.opcEncode cls kind n) s))) := by
  simp only [exec, execOpcEncode, hr]

theorem exec_opcEncode_none {cls : Bool} {kind : BitVec 2} {n : BitVec 4} (hr : encodeView cls kind n = none)
    (s : State) : exec (.opcEncode cls kind n) s = .next (raise .errBadOpcode none (accept (.opcEncode cls kind n) s)) := by
  simp only [exec, execOpcEncode, hr]

/-- An outcome raised right after a command was accepted touches nothing but the result bank. -/
theorem touchesOnlyResults_raise (c : Status) (e : Option Byte) (i : Instr) (s : State) :
    touchesOnlyResults s (raise c e (accept i s)) := ⟨⟨rfl, rfl⟩, ⟨rfl, fun _ => rfl⟩, rfl, rfl, rfl, rfl⟩

/-- Nor does a command that ends ST_OK with the three opcode registers written. -/
theorem touchesOnlyResults_writeOpcode (opc : BitVec 4) (cls : Bool) (kind : BitVec 2) (i : Instr) (s : State) :
    touchesOnlyResults s (finishOk (writeOpcode opc cls kind (accept i s))) :=
  ⟨⟨rfl, rfl⟩, ⟨rfl, fun _ => rfl⟩, rfl, rfl, rfl, rfl⟩

/-! ## The statements -/

/-- Settles O11: class and kind read as numbers are those of the OpCode, and only the opcode registers are written. -/
theorem opcDecodeClassifiesEveryWireOpcode : Obligations.OpcDecodeClassifiesEveryWireOpcode := by
  refine ⟨fun _ => decodeCommand_op1, fun n s => ⟨_, exec_opcDecode n s, ?_, wire_ofWire n, ofWire_cls n,
    ofWire_kind n, touchesOnlyResults_writeOpcode ..⟩⟩
  rw [← classOf_eq_decide, ← kindOf_eq_ite]
  rfl

/-- Settles O12: the view of an OpCode has its wire value, and a `Reserved(n)` view of none has no value. -/
theorem opcEncodeAcceptsExactlyTheOpCodes : Obligations.OpcEncodeAcceptsExactlyTheOpCodes :=
  ⟨fun _ => decodeCommand_op2,
    fun _ _ s hn => ⟨_, exec_opcEncode_some (encodeView_of_opCode hn) s, rfl, touchesOnlyResults_writeOpcode ..⟩,
    fun _ _ s hn => ⟨_, exec_opcEncode_none (encodeView_of_noOpCode hn) s, rfl, touchesOnlyResults_raise ..⟩⟩

/-- Settles O13: OPC_DECODE leaves the view of the OpCode that `n` stands for (O11), which OPC_ENCODE encodes (O12). -/
theorem opcodeBijection : Obligations.OpcodeBijection := by
  refine ⟨wire_ofWire, ofWire_wire, fun n s t h => ?_⟩
  obtain ⟨t', ht, hres, hwire, hcls, hkind, _⟩ := opcDecodeClassifiesEveryWireOpcode.2 n s
  obtain rfl : t' = t := Host.Outcome.next.inj (ht.symm.trans h)
  have hopc : t'.res.opc = n := by rw [hres]
  obtain ⟨u, hu, hures, _⟩ := opcEncodeAcceptsExactlyTheOpCodes.2.1 (OpCode.ofWire n) n t' (fun _ => hwire.symm)
  rw [← hcls, ← hkind, hopc]
  exact ⟨u, hu, by rw [hures], by rw [hures, hwire]⟩

end Sys2Proof.Machine
end

section
/-! PROOF. The length formats: the canonical encoding of a length decodes back to it (O5), and what LENFMT_FOR_LENGTH,
LENFMT_OF_FIELD and HDR_LEN write (O14 to O16). -/

namespace Sys2Proof.Machine

/-! ## The low bits of a length -/

/-- A length that fits in `w` bits is its low `w` bits. -/
theorem setWidth_extractLsb'_of_lt {w : Nat} {len : Len} (h : len.toNat < 2 ^ w) :
    (len.extractLsb' 0 w).setWidth 64 = len := by
  apply BitVec.eq_of_toNat_eq
  rw [BitVec.toNat_setWidth, BitVec.extractLsb'_toNat, Nat.shiftRight_zero, Nat.mod_eq_of_lt h,
    Nat.mod_eq_of_lt len.isLt]

/-- `len[6:0]` as a number. -/
theorem extractField_eq_mod (len : Len) : len.extractLsb' 0 7 = BitVec.ofNat 7 (len.toNat % 128) := by
  apply BitVec.eq_of_toNat_eq
  simp only [BitVec.extractLsb'_toNat, Nat.shiftRight_zero, BitVec.toNat_ofNat]
  omega

/-! ## The canonical encoding of a length (R120) -/

section
variable {len : Len}

theorem fieldOf_u8 (h : formatOf len = .u8) : fieldOf len = len.extractLsb' 0 7 := by simp only [fieldOf, h]

theorem fieldOf_u16 (h : formatOf len = .u16) : fieldOf len = 126 := by simp only [fieldOf, h]

theorem fieldOf_u64 (h : formatOf len = .u64) : fieldOf len = 127 := by simp only [fieldOf, h]

theorem extensionOf_u8 (h : formatOf len = .u8) : extensionOf len = [] := by simp only [extensionOf, h]

theorem extensionOf_u16 (h : formatOf len = .u16) : extensionOf len = be2 (len.extractLsb' 0 16) := by
  simp only [extensionOf, h]

theorem extensionOf_u64 (h : formatOf len = .u64) : extensionOf len = be8 len := by simp only [extensionOf, h]

end

/-- What depends on the format of a length alone, by the length as a number. -/
theorem apply_formatOf {α : Type} (g : LengthFormat → α) (len : Len) :
    g (formatOf len) = if len.toNat < 126 then g .u8 else if len.toNat < 65536 then g .u16 else g .u64 := by
  rw [formatOf, apply_ite g, apply_ite g]

/-- What depends on the format a length field announces, by the field as a number. -/
theorem apply_formatOfField {α : Type} (g : LengthFormat → α) (f : BitVec 7) :
    g (formatOfField f) = if f.toNat < 126 then g .u8 else if f.toNat = 126 then g .u16 else g .u64 := by
  rw [formatOfField, apply_ite g, apply_ite g]

theorem fieldOf_eq_ite (len : Len) : fieldOf len =
    if len.toNat < 126 then BitVec.ofNat 7 len.toNat else if len.toNat < 65536 then 126 else 127 := by
  rcases formatOf_cases len with ⟨h, e⟩ | ⟨h, h', e⟩ | ⟨h, e⟩
  · rw [fieldOf_u8 e, if_pos h]; rfl
  · rw [fieldOf_u16 e, if_neg (by omega), if_pos h']
  · rw [fieldOf_u64 e, if_neg (by omega), if_neg (by omega)]

theorem extensionOf_eq_ite (len : Len) : extensionOf len =
    if len.toNat < 126 then [] else if len.toNat < 65536 then be2 (len.extractLsb' 0 16) else be8 len := by
  rcases formatOf_cases len with ⟨h, e⟩ | ⟨h, h', e⟩ | ⟨h, e⟩
  · rw [extensionOf_u8 e, if_pos h]
  · rw [extensionOf_u16 e, if_neg (by omega), if_pos h']
  · rw [extensionOf_u64 e, if_neg (by omega), if_neg (by omega)]

theorem headerLength_eq (masked : Bool) (len : Len) : headerLength masked len =
    2 + (if len.toNat < 126 then 0 else if len.toNat < 65536 then 2 else 8) + if masked then 4 else 0 := by
  rw [headerLength, apply_formatOf LengthFormat.extBytes]; rfl

/-! ## Decoding it (R123) -/

/-- The field of the canonical encoding announces its format. -/
theorem formatOfField_fieldOf (len : Len) : formatOfField (fieldOf len) = formatOf len := by
  rcases formatOf_cases len with ⟨h, e⟩ | ⟨_, _, e⟩ | ⟨_, e⟩
  · have hfield : (len.extractLsb' 0 7).toNat < 126 := by
      rw [BitVec.extractLsb'_toNat, Nat.shiftRight_zero]; omega
    rw [fieldOf_u8 e, e, formatOfField, if_pos hfield]
  · rw [fieldOf_u16 e, e]; rfl
  · rw [fieldOf_u64 e, e]; rfl

/-- Settles O5: below 126 the field holds the length's seven bits, below 65536 the extension its sixteen, from there on
all of them. -/
theorem canonicalLengthDecodesBack : Obligations.CanonicalLengthDecodesBack := by
  refine fun len => ⟨formatOfField_fieldOf len, extensionOf_length len, ?_⟩
  rcases formatOf_cases len with ⟨h, e⟩ | ⟨_, h, e⟩ | ⟨_, e⟩
  · have hext : LengthFormat.u8.extBytes = 0 := rfl
    rw [e, if_pos hext, fieldOf_u8 e, setWidth_extractLsb'_of_lt (by omega)]
  · rw [e, if_neg (by decide), extensionOf_u16 e, fromBe_be2, setWidth_extractLsb'_of_lt h]
  · rw [e, if_neg (by decide), extensionOf_u64 e, fromBe_be8]

/-! ## The three operations (R120 to R122, R125) -/

theorem exec_lenfmtForLength (len : Len) (s : State) : exec (.lenfmtForLength len) s =
    .next (finishOk (writeFormat (formatOf len) (fieldOf len) (accept (.lenfmtForLength len) s))) := rfl

theorem exec_lenfmtOfField (f : BitVec 7) (s : State) : exec (.lenfmtOfField f) s =
    .next (finishOk (writeFormat (formatOfField f) f (accept (.lenfmtOfField f) s))) := rfl

theorem exec_hdrLen (masked : Bool) (len : Len) (s : State) : exec (.hdrLen masked len) s =
    .next (finishOk (writeCount (headerLength masked len) (accept (.hdrLen masked len) s))) := rfl

/-- The result bank of a command that ends ST_OK with the three format registers written. -/
theorem finishOk_writeFormat_res (f : LengthFormat) (field : BitVec 7) (i : Instr) (s : State) :
    (finishOk (writeFormat f field (accept i s))).res =
      { s.res with status := .ok, fmt := f.code, field := field, ext := BitVec.ofNat 4 f.extBytes } := rfl

/-- The result bank of a command that ends ST_OK with a count written. -/
theorem finishOk_writeCount_res (n : Nat) (i : Instr) (s : State) :
    (finishOk (writeCount n (accept i s))).res = { s.res with status := .ok, cnt := BitVec.ofNat 65 n } := rfl

/-- A command that ends ST_OK with the format registers written touches nothing but the result bank. -/
theorem touchesOnlyResults_writeFormat (f : LengthFormat) (field : BitVec 7) (i : Instr) (s : State) :
    touchesOnlyResults s (finishOk (writeFormat f field (accept i s))) :=
  ⟨⟨rfl, rfl⟩, ⟨rfl, fun _ => rfl⟩, rfl, rfl, rfl, rfl⟩

/-- Nor does one that ends ST_OK with a count written. -/
theorem touchesOnlyResults_writeCount (n : Nat) (i : Instr) (s : State) :
    touchesOnlyResults s (finishOk (writeCount n (accept i s))) :=
  ⟨⟨rfl, rfl⟩, ⟨rfl, fun _ => rfl⟩, rfl, rfl, rfl, rfl⟩

/-- `R_EXT` is wide enough for the extension bytes of every format. -/
theorem extBytes_toNat (f : LengthFormat) : (BitVec.ofNat 4 f.extBytes).toNat = f.extBytes := by cases f <;> rfl

/-- `R_CNT` is wide enough for the length of every header. -/
theorem headerLength_toNat (masked : Bool) (len : Len) :
    (BitVec.ofNat 65 (headerLength masked len)).toNat = headerLength masked len := by
  have := headerLength_bounds masked len
  rw [BitVec.toNat_ofNat]
  omega

/-! ## The statements -/

/-- Settles O16: HDR_LEN writes `headerLength`, which is the number of bytes of `hdrBytes`. -/
theorem hdrLenCountsTheHeaderBytes : Obligations.HdrLenCountsTheHeaderBytes := by
  refine ⟨fun _ => decodeCommand_op5, fun masked len s => ⟨_, exec_hdrLen masked len s, ?_,
    fun fin rsv1 rsv2 rsv3 opc key => ?_, touchesOnlyResults_writeCount ..⟩⟩
  · rw [finishOk_writeCount_res, headerLength_eq]
  · rw [finishOk_writeCount_res, headerLength_toNat, hdrBytes_length]

/-- Settles O14: the three registers hold format, field and extension count of the canonical encoding. -/
theorem lenfmtForLengthSelectsTheCanonicalFormat : Obligations.LenfmtForLengthSelectsTheCanonicalFormat := by
  refine ⟨fun _ => decodeCommand_op3, fun len s => ⟨_, exec_lenfmtForLength len s, ?_, ?_, extensionOf_eq_ite len,
    touchesOnlyResults_writeFormat ..⟩⟩
  · rw [finishOk_writeFormat_res, apply_formatOf LengthFormat.code, fieldOf_eq_ite,
      apply_formatOf fun f => BitVec.ofNat 4 f.extBytes]
    rfl
  · rw [finishOk_writeFormat_res, extBytes_toNat, extensionOf_length]

/-- Settles O15: the registers hold the field and what it announces, and the field is `len` modulo 128. -/
theorem lenfmtOfFieldReadsTheField : Obligations.LenfmtOfFieldReadsTheField := by
  refine ⟨fun f s => ⟨_, exec_lenfmtOfField f s, ?_, touchesOnlyResults_writeFormat ..⟩, fun w hw => ?_⟩
  · rw [finishOk_writeFormat_res, apply_formatOfField LengthFormat.code,
      apply_formatOfField fun f => BitVec.ofNat 4 f.extBytes]
    rfl
  · rw [decodeCommand_op4 hw, extractField_eq_mod]

end Sys2Proof.Machine
end

section
/-! PROOF. HDR_PARSE on a whole header (O17), and the two round trips: format then parse (O20), parse then
format (O21). -/

namespace Sys2Proof.Machine

/-! ## HDR_PARSE on a whole header (R130 to R133) -/

/-- The length that fixed byte 1 and the extension declare (R83). -/
def declaredLength (b1 : Byte) (ext : List Byte) : Len := if ext = [] then (byte1Field b1).setWidth 64 else fromBe ext

/-- The state in which a HDR_PARSE started in `s` ends once it has taken this header. -/
def headerParsed (b0 b1 : Byte) (ext key rest : List Byte) (s : State) : State :=
  finishParse (headerTaken b0 b1 ext key rest (parseStart s))

/-- `ext` and `key` are as long as fixed byte 1 announces (R86). -/
structure CompletesHeader (b1 : Byte) (ext key : List Byte) : Prop where
  ext : ext.length = (formatOfField (byte1Field b1)).extBytes
  key : key.length = if byte1Mask b1 then 4 else 0

/-- A HDR_PARSE that finds a whole header on RX takes it, whatever follows. -/
theorem exec_hdrParse_header {b0 b1 : Byte} {ext key rest : List Byte} {s : State} (h : CompletesHeader b1 ext key)
    (hrx : s.io.rx = b0 :: b1 :: (ext ++ key ++ rest)) :
    exec .hdrParse s = .next (headerParsed b0 b1 ext key rest s) :=
  proceed_header (s := parseStart s) rfl h.ext h.key hrx

/-- `finish OK` of a HDR_PARSE writes three result registers. -/
theorem finishParse_res (s : State) : (finishParse s).res =
    { s.res with
      status := .ok, key := (finishParse s).res.key, overcap := overcapFlag s.params.maxDeclaredLen s.res.len } := by
  unfold finishParse
  simp only []
  split <;> rfl

section
variable (b0 b1 : Byte) (ext key rest : List Byte) (s : State)

/-- The result bank after a whole header: the registers of R132 and R133, R_KEY aside. -/
theorem headerParsed_res : (headerParsed b0 b1 ext key rest s).res =
    { s.res with
      status := .ok, fin := byte0Fin b0, rsv1 := byte0Rsv1 b0, rsv2 := byte0Rsv2 b0, rsv3 := byte0Rsv3 b0
      opc := byte0Opc b0, cls := classOf (byte0Opc b0), kind := kindOf (byte0Opc b0), masked := byte1Mask b1
      key := (headerParsed b0 b1 ext key rest s).res.key, len := declaredLength b1 ext
      overcap := overcapFlag s.params.maxDeclaredLen (declaredLength b1 ext) } :=
  finishParse_res _

@[simp] theorem headerParsed_res_status : (headerParsed b0 b1 ext key rest s).res.status = .ok :=
  finishParse_res_status _

@[simp] theorem headerParsed_res_cls : (headerParsed b0 b1 ext key rest s).res.cls = classOf (byte0Opc b0) :=
  finishParse_res_cls _

@[simp] theorem headerParsed_res_kind : (headerParsed b0 b1 ext key rest s).res.kind = kindOf (byte0Opc b0) :=
  finishParse_res_kind _

@[simp] theorem headerParsed_res_len : (headerParsed b0 b1 ext key rest s).res.len = declaredLength b1 ext :=
  finishParse_res_len _

@[simp] theorem headerParsed_res_overcap : (headerParsed b0 b1 ext key rest s).res.overcap =
    overcapFlag s.params.maxDeclaredLen (declaredLength b1 ext) := finishParse_res_overcap _

theorem headerParsed_res_key {b1 : Byte} (hm : byte1Mask b1 = true) :
    (headerParsed b0 b1 ext key rest s).res.key = keyFrom s.res.key key := finishParse_res_key _ hm

@[simp] theorem headerParsed_io : (headerParsed b0 b1 ext key rest s).io = { s.io with rx := rest } := finishParse_io _

theorem headerParsed_over : commandOver (headerParsed b0 b1 ext key rest s) :=
  ⟨finishParse_busy _, finishParse_sq_seq _⟩

theorem headerParsed_sameFrame : sameFrame s (headerParsed b0 b1 ext key rest s) :=
  ⟨finishParse_fr _, fun a => congrArg (Memory.read · a) (finishParse_pbuf _)⟩

theorem headerParsed_sameHost : sameHost s (headerParsed b0 b1 ext key rest s) :=
  ⟨finishParse_cmds _, finishParse_rstEdges _, finishParse_params _⟩

end

/-- The bytes of the key that was read are the bytes read. -/
theorem keyBytes_keyFrom (before : Key) {key : List Byte} (h : key.length = 4) :
    keyBytes (keyFrom before key) = key := by
  obtain ⟨k0, k1, k2, k3, rfl⟩ := List.length_eq_four.mp h
  exact keyBytes_append k0 k1 k2 k3

/-- Reading the bytes of a key gives it back. -/
theorem keyFrom_keyBytes (before k : Key) : keyFrom before (keyBytes k) = k := key_of_bytes k

/-- What stood in R_KEY before does not matter. -/
theorem keyFrom_congr (before before' : Key) {key : List Byte} (h : key.length = 4) :
    keyFrom before key = keyFrom before' key := by
  obtain ⟨k0, k1, k2, k3, rfl⟩ := List.length_eq_four.mp h
  rfl

/-- The header that is reported, its key included where it has one (R132). -/
theorem parsedHeader_headerParsed (b0 : Byte) {b1 : Byte} {ext key : List Byte} (h : CompletesHeader b1 ext key)
    (rest : List Byte) (s : State) : parsedHeader (headerParsed b0 b1 ext key rest s) =
    { isFinal := byte0Fin b0, rsv1 := byte0Rsv1 b0, rsv2 := byte0Rsv2 b0, rsv3 := byte0Rsv3 b0
      opcode := OpCode.ofWire (byte0Opc b0), mask := if byte1Mask b1 then some (keyFrom 0 key) else none } := by
  have hlen := h.key
  cases hm : byte1Mask b1 <;> rw [hm] at hlen
  · simp [parsedHeader, headerParsed, headerTaken, hm]
  · simp [parsedHeader, headerParsed, headerTaken, hm, finishParse_res_key, keyFrom_congr _ 0 hlen]

/-- Fixed byte 1 alone says whether an extension follows. -/
theorem ext_eq_nil_iff {b1 : Byte} {ext key : List Byte} (h : CompletesHeader b1 ext key) :
    ext = [] ↔ b1.toNat % 128 < 126 := by
  rw [← List.length_eq_zero_iff, h.ext, formatOfField_extBytes, byte1Field_toNat]
  split
  · simp [*]
  · split <;> simp [*]

/-- The declared length by fixed byte 1 as a number. -/
theorem declaredLength_eq_ite {b1 : Byte} {ext key : List Byte} (h : CompletesHeader b1 ext key) :
    declaredLength b1 ext = if b1.toNat % 128 < 126 then BitVec.ofNat 64 (b1.toNat % 128) else fromBe ext := by
  simp only [declaredLength, ext_eq_nil_iff h, ← byte1Field_toNat, BitVec.ofNat_toNat]

/-- The wire opcode as a number. -/
theorem byte0Opc_eq_ofNat (b : Byte) : byte0Opc b = BitVec.ofNat 4 b.toNat := by
  revert b; decide

/-- Settles O17: the lengths as numbers say `CompletesHeader`, and `headerParsed` has the registers of R132. -/
theorem hdrParseReadsACompleteHeader : Obligations.HdrParseReadsACompleteHeader := by
  refine ⟨fun _ => decodeCommand_op6, ?_⟩
  intro s b0 b1 ext key rest hext hkey hrx len
  have h : CompletesHeader b1 ext key :=
    ⟨by rw [hext, formatOfField_extBytes, byte1Field_toNat], by simp only [hkey, byte1Mask_eq, decide_eq_true_eq]⟩
  have hlen : declaredLength b1 ext = len := declaredLength_eq_ite h
  refine ⟨_, exec_hdrParse_header h hrx, headerParsed_over .., ?_, fun hm => ?_, headerParsed_io ..,
    headerParsed_sameFrame .., headerParsed_sameHost ..⟩
  · rw [← byte0Opc_eq_ofNat, ofWire_cls, ofWire_kind, ← byte1Mask_eq, ← hlen]
    exact headerParsed_res ..
  · have hmask : byte1Mask b1 = true := by rw [byte1Mask_eq, decide_eq_true hm]
    have hfour : key.length = 4 := by rw [hkey, if_pos hm]
    rw [headerParsed_res_key _ _ _ _ _ hmask, keyBytes_keyFrom _ hfour]

/-! ## Format then parse (R136) -/

/-- Header bytes are the two fixed bytes, the extension and the key. -/
theorem bytes_eq_cons (h : FrameHeader) (len : Len) (rest : List Byte) : h.bytes len ++ rest =
    fixedByte0 h.isFinal h.rsv1 h.rsv2 h.rsv3 h.opcode.wire :: fixedByte1 h.mask.isSome (fieldOf len) ::
      (extensionOf len ++ (h.mask.elim [] keyBytes) ++ rest) := by
  cases hm : h.mask <;> simp [FrameHeader.bytes, hdrBytes, hm]

/-- They are a whole header, and declare the length they were made for. -/
theorem bytes_completesHeader (h : FrameHeader) (len : Len) :
    CompletesHeader (fixedByte1 h.mask.isSome (fieldOf len)) (extensionOf len) (h.mask.elim [] keyBytes) where
  ext := by rw [byte1Field_fixedByte1, formatOfField_fieldOf, extensionOf_length]
  key := by cases hm : h.mask <;> simp [keyBytes_length]

theorem declaredLength_canonical (masked : Bool) (len : Len) :
    declaredLength (fixedByte1 masked (fieldOf len)) (extensionOf len) = len := by
  obtain ⟨_, hext, hlen⟩ := canonicalLengthDecodesBack len
  rw [declaredLength, byte1Field_fixedByte1]
  simpa only [← List.length_eq_zero_iff, hext] using hlen

theorem length_bytes (h : FrameHeader) (len : Len) : (h.bytes len).length = headerLength h.mask.isSome len :=
  hdrBytes_length ..

/-- Settles O20: `hdr_bytes(H, L)` is a whole header, it has the fields of `H`, and it declares `L`. -/
theorem formatThenParseRecoversTheHeader : Obligations.FormatThenParseRecoversTheHeader := by
  intro h len s rest hrx
  have hwhole := bytes_completesHeader h len
  refine ⟨_, exec_hdrParse_header hwhole (hrx.trans (bytes_eq_cons h len rest)), (headerParsed_over ..).1,
    headerParsed_res_status .., ?_, ?_, ?_, ?_⟩
  · rw [parsedHeader_headerParsed _ hwhole]
    obtain ⟨fin, rsv1, rsv2, rsv3, opcode, mask⟩ := h
    cases mask <;> simp [ofWire_wire, keyFrom_keyBytes]
  · rw [headerParsed_res_len, declaredLength_canonical]
  · rw [headerParsed_io]
  · rw [headerParsed_io, hrx, List.length_append, length_bytes]

/-! ## Parse then format (R137) -/

/-- What a parsed header serializes to: its own bytes, but for the length field and the extension. -/
theorem bytes_headerParsed {b0 b1 : Byte} {ext key : List Byte} (h : CompletesHeader b1 ext key) (rest : List Byte)
    (s : State) (len : Len) : (parsedHeader (headerParsed b0 b1 ext key rest s)).bytes len =
      b0 :: fixedByte1 (byte1Mask b1) (fieldOf len) :: (extensionOf len ++ key) := by
  have hkey := h.key
  rw [parsedHeader_headerParsed _ h, ← List.append_nil (FrameHeader.bytes ..), bytes_eq_cons, wire_ofWire,
    fixedByte0_fields]
  cases hm : byte1Mask b1 <;> rw [hm] at hkey
  · simp [List.eq_nil_of_length_eq_zero hkey]
  · simp [keyBytes_keyFrom _ hkey]

/-- A length that is encoded longer than need be has another length field in its canonical encoding (R91). -/
theorem fieldOf_ne_of_not_canonical {f : BitVec 7} {len : Len}
    (h : f.toNat = 126 ∧ len.toNat < 126 ∨ f.toNat = 127 ∧ len.toNat < 65536) : fieldOf len ≠ f := by
  rintro rfl
  rw [fieldOf_eq_ite] at h
  split at h
  · simp only [BitVec.toNat_ofNat] at h
    omega
  · split at h <;> simp at h <;> omega

/-- Settles O21: behind byte 0 the parsed header and the bytes consumed differ at most in the length field and the
extension, which `canonical_or_shorter` compares. -/
theorem parseThenFormatIsCanonical : Obligations.ParseThenFormatIsCanonical := by
  intro s t w hexec hbusy hstatus hrx f n
  obtain ⟨b0, b1, ext, key, rest, hs, hext, hkey, ht⟩ := parse_ok_header hexec hbusy hstatus
  have h : CompletesHeader b1 ext key := ⟨hext, hkey⟩
  change t = headerParsed b0 b1 ext key rest s at ht
  have hw : w = b0 :: b1 :: (ext ++ key) := by
    rw [ht, headerParsed_io, hs] at hrx
    exact (List.append_cancel_right (as := b0 :: b1 :: (ext ++ key)) hrx).symm
  have hlen : declaredLength b1 ext = t.res.len := by rw [ht, headerParsed_res_len]
  have hbytes : (parsedHeader t).bytes t.res.len =
      b0 :: fixedByte1 (byte1Mask b1) (fieldOf t.res.len) :: (extensionOf t.res.len ++ key) := by
    rw [ht]; exact bytes_headerParsed h ..
  have hf : (byte1Field b1).toNat = f := by simp [f, hw, byte1Field_toNat]
  obtain ⟨hcanon, shorter2, shorter8, shorter6⟩ := canonical_or_shorter hext hlen
  have shorter {k : Nat} (hk : (extensionOf t.res.len).length + k = ext.length) :
      ((parsedHeader t).bytes t.res.len).length + k = w.length := by
    simp only [hbytes, hw, List.length_cons, List.length_append]
    omega
  rw [hf] at hcanon shorter2 shorter8 shorter6
  refine ⟨?_, fun hnot => ?_, (shorter <| shorter2 ·), (shorter <| shorter8 ·), (shorter <| shorter6 ·)⟩ <;>
    rw [hbytes, hw]
  · rw [← hcanon, List.cons_eq_cons, List.cons_eq_cons, fixedByte1_eq_iff, List.append_left_inj]
    exact and_iff_right rfl
  · refine ⟨rfl, fun he => ?_⟩
    exact fieldOf_ne_of_not_canonical (hf ▸ hnot) ((fixedByte1_eq_iff b1 _).mp (Option.some.inj he))

end Sys2Proof.Machine
end

section
/-! PROOF. HDR_PARSE on too few bytes (O18, O19), and a header that arrives at a waiting HDR_PARSE (O7). -/

namespace Sys2Proof.Machine

/-! ## HDR_PARSE on too few bytes (R130, R138, R52) -/

/-- `u` is a HDR_PARSE started in `s` that has taken every byte of RX and needs more: what the parser leaves alone is as
before, POS counts the bytes, and the key is next exactly when the length is complete. -/
structure OutOfBytes (s u : State) : Prop where
  goesOn : ParserGoesOn (parseStart s) u
  io : u.io = { s.io with rx := [] }
  pos : u.sq.pos = BitVec.ofNat 4 s.io.rx.length
  inKey : u.sq.seq = .pKey ↔ lengthNeed s.io.rx ≤ s.io.rx.length

/-- A HDR_PARSE whose header is not all there runs out of bytes. -/
theorem exec_hdrParse_short {s : State} (h : s.io.rx.length < headerNeed s.io.rx) :
    ∃ u, exec .hdrParse s = proceed u ∧ OutOfBytes s u := by
  have hstart : parserInBounds (parseStart s) := ⟨fun _ => rfl, nofun, nofun⟩
  obtain ⟨u, hrun, hgoes, hio, hpos, hkey⟩ := proceed_short (s := parseStart s) rfl hstart h
  exact ⟨u, hrun, hgoes, hio, hpos.trans (BitVec.zero_add _), hkey⟩

theorem headerNeed_le (bs : List Byte) : headerNeed bs ≤ 14 := by
  rcases bs with _ | ⟨b0, _ | ⟨b1, bs⟩⟩
  · decide
  · exact (by decide : 2 ≤ 14)
  · rw [headerNeed_two]
    cases formatOfField (byte1Field b1) <;> cases byte1Mask b1 <;> decide

namespace OutOfBytes

variable {s u : State} (h : OutOfBytes s u)
include h

theorem rx_eq_nil : u.io.rx = [] := by rw [h.io]

theorem rxEnd_eq : u.io.rxEnd = s.io.rxEnd := by rw [h.io]

theorem byteStep_eq : byteStep u = parseStep u := byteStep_parsing h.goesOn.parsing

theorem sameFrame : sameFrame s u := ⟨h.goesOn.fr, fun a => congrArg (Memory.read · a) h.goesOn.pbuf⟩

theorem sameHost : sameHost s u := ⟨h.goesOn.cmds, h.goesOn.rstEdges, h.goesOn.params⟩

/-- A clean end: R_ERRINFO is held and the status is that of the phase (R182, R183). -/
theorem proceed_eos (hend : s.io.rxEnd = some .eos) :
    proceed u = .next (raise (eosOutcome u.sq.seq) none (forgetHeader u)) := by
  have hstep : byteStep u = .moved (raise (eosOutcome u.sq.seq) none (forgetHeader u)) := by
    rw [h.byteStep_eq, parseStep, h.rx_eq_nil, h.rxEnd_eq, hend]
  rw [proceed_moved hstep, proceed_idle rfl]

/-- An error item: its identity is in R_ERRINFO (R184). -/
theorem proceed_err {e : Byte} (hend : s.io.rxEnd = some (.err e)) :
    proceed u = .next (raise .errIoRd (some e) (forgetHeader u)) := by
  have hstep : byteStep u = .moved (raise .errIoRd (some e) (forgetHeader u)) := by
    rw [h.byteStep_eq, parseStep, h.rx_eq_nil, h.rxEnd_eq, hend]
  rw [proceed_moved hstep, proceed_idle rfl]

/-- An open stream: the parser waits where it is (R231). -/
theorem waits (hend : s.io.rxEnd = none) : byteStep u = .waits :=
  h.byteStep_eq.trans (parseStep_waits.mpr ⟨h.rx_eq_nil, h.rxEnd_eq.trans hend⟩)

theorem proceed_kind3 (hend : s.io.rxEnd = some .kind3) : proceed u = .fault .rxKindNotAllowed := by
  apply proceed_stuck
  rw [h.byteStep_eq, parseStep, h.rx_eq_nil, h.rxEnd_eq, hend]

/-- The status of a clean end, by the number of bytes (R138). -/
theorem eosOutcome_eq :
    eosOutcome u.sq.seq = if s.io.rx.length < lengthNeed s.io.rx then .none else .errTruncKey := by
  rw [eosOutcome, ← ite_not]
  simp only [h.inKey, not_le]

end OutOfBytes

/-- Settles O18: the parser runs out of bytes, and the item after them ends it. -/
theorem hdrParseReportsAShortStream : Obligations.HdrParseReportsAShortStream := by
  intro s hshort
  obtain ⟨u, hrun, hu⟩ := exec_hdrParse_short hshort
  refine ⟨fun hend => ?_, fun e hend => ?_⟩
  · exact ⟨_, hrun.trans (hu.proceed_eos hend), ⟨rfl, rfl⟩, hu.eosOutcome_eq, hu.goesOn.errinfo, hu.io,
      hu.goesOn.formats, hu.sameFrame, hu.sameHost⟩
  · exact ⟨_, hrun.trans (hu.proceed_err hend), ⟨rfl, rfl⟩, rfl, rfl, hu.io, hu.goesOn.formats, hu.sameFrame,
      hu.sameHost⟩

/-- A step in which an operation in progress waits, with no reset applied, answers the same state. -/
theorem step_of_waits {s : State} (hr : s.rstEdges = 0) (hb : s.busy = true) (hw : byteStep s = .waits) :
    step s = .next s := by
  rcases step_cases s with ⟨hr', _⟩ | ⟨_, hb', _⟩ | ⟨_, _, _, hb', _⟩ | ⟨_, _, hstep⟩ | ⟨_, _, _, _, _, _, _, _, hm, _⟩
  · exact absurd hr hr'
  · cases hb.symm.trans hb'
  · cases hb.symm.trans hb'
  · rw [hstep, proceed_waits hw]
  · cases hw.symm.trans hm

/-- Settles O19: the parser runs out of bytes and waits. -/
theorem hdrParseWaitsOnAnOpenStream : Obligations.HdrParseWaitsOnAnOpenStream := by
  intro s hshort hopen
  obtain ⟨u, hrun, hu⟩ := exec_hdrParse_short hshort
  have hwaits := hu.waits hopen
  have hpos : u.sq.pos.toNat = s.io.rx.length := by
    have := headerNeed_le s.io.rx
    rw [hu.pos, BitVec.toNat_ofNat]
    omega
  exact ⟨u, hrun.trans (proceed_waits hwaits), hu.goesOn.busy, hu.goesOn.parsing, hpos, hu.goesOn.status,
    hu.goesOn.errinfo, hu.io, hu.goesOn.formats, hu.sameFrame, hu.sameHost,
    fun hr => step_of_waits hr hu.goesOn.busy hwaits⟩

/-! ## A header that arrives at a waiting HDR_PARSE (R131, R53) -/

/-- Settles O7: with BUSY = 1 and SEQ = P_FIX0 the next step reads RX. -/
theorem stepRunsTheArrivingHeader : Obligations.StepRunsTheArrivingHeader := by
  intro s i rest hr hb hq hrx
  have hfetch : fetch s = .instr i { s with io := { s.io with rx := rest } } := by
    rw [fetch, if_neg (not_not_intro hr), if_pos hb, if_pos hq, fetchHeader, hrx]
  rw [step, hfetch]

end Sys2Proof.Machine
end

section
/-! PROOF. HDR_FORMAT (O22, O23), and that the header codec keeps no memory of earlier calls (O50). -/

namespace Sys2Proof.Machine

/-! ## HDR_FORMAT (R134, R135) -/

/-- A HDR_FORMAT whose last byte was acknowledged is done (R135). -/
theorem headerDone_hdrFormat {s : State} (h : sendsFrame s = false) : headerDone s = finishOk s := by
  simp only [headerDone, h, Bool.false_eq_true, if_false]

/-- A HDR_FORMAT whose byte was refused leaves FR and PBUF alone (R185). -/
theorem sendFailed_hdrFormat (e : Byte) {s : State} (h : sendsFrame s = false) :
    sendFailed e s = raise .errIoWr (some e) s := by
  simp only [sendFailed, h, Bool.false_eq_true, if_false]

/-- `u` is a HDR_FORMAT about to offer the first of `bytes`. -/
structure OffersHeader (bytes : List Byte) (u : State) : Prop where
  seq : u.sq.seq = .sHdr
  pos : u.sq.pos = 0
  noFrame : sendsFrame u = false
  bytes : headerBytes u = bytes

theorem offersHeader_hdrFormat (fin rsv1 rsv2 rsv3 : Bool) (opc : BitVec 4) (masked : Bool) (key : Key) (len : Len)
    (s : State) : OffersHeader (hdrBytes fin rsv1 rsv2 rsv3 opc masked key len)
      (sendStart (.hdrFormat fin rsv1 rsv2 rsv3 opc masked key len) s) :=
  have ⟨hframe, hbytes⟩ := headerBytes_hdrFormat (w := s.sq.cmd) rfl
  ⟨rfl, rfl, hframe, hbytes⟩

namespace OffersHeader

variable {bytes : List Byte} {u : State} (h : OffersHeader bytes u)
include h

/-- Every byte acknowledged: ST_OK (R135). -/
theorem proceed_acks {rest : List TxAnswer} (ha : u.io.txAnswers = List.replicate bytes.length .ack ++ rest) :
    proceed u = .next (finishOk (sendingHeader u (u.io.tx ++ bytes) rest (BitVec.ofNat 4 bytes.length))) := by
  obtain ⟨hseq, hpos, hframe, rfl⟩ := h
  rw [proceed_headerAll hseq hpos ha, headerDone_hdrFormat (by exact hframe), proceed_idle rfl]

variable {k : Nat} (hk : k < bytes.length)
include hk

/-- With `k` bytes acknowledged and the rest of the header still to come, the run stands at byte `k`. -/
theorem proceed_someAcks {tail : List TxAnswer} (ha : u.io.txAnswers = List.replicate k .ack ++ tail) :
    proceed u = proceed (sendingHeader u (u.io.tx ++ bytes.take k) tail (BitVec.ofNat 4 k)) := by
  obtain ⟨hseq, hpos, _, rfl⟩ := h
  have h0 : u.sq.pos.toNat = 0 := congrArg BitVec.toNat hpos
  have hk0 : 0 + BitVec.ofNat 4 k = BitVec.ofNat 4 k := BitVec.zero_add _
  rw [proceed_headerAcks hseq (by rwa [h0, Nat.zero_add]) ha, h0, List.drop_zero, hpos, hk0]

/-- There the byte step offers byte `k`, and what follows is the sink's next answer. -/
theorem byteStep_someAcks (tx : List Byte) (tail : List TxAnswer) :
    byteStep (sendingHeader u tx tail (BitVec.ofNat 4 k)) =
      txPush bytes[k] headerAcked (sendingHeader u tx tail (BitVec.ofNat 4 k)) := by
  obtain ⟨hseq, _, _, rfl⟩ := h
  have hpos : (BitVec.ofNat 4 k).toNat = k := by
    have := (headerBytes_bounds u).2
    rw [BitVec.toNat_ofNat]
    omega
  have hbyte : (headerBytes u)[(BitVec.ofNat 4 k).toNat]? = some (headerBytes u)[k] := by
    rw [hpos, List.getElem?_eq_getElem hk]
  rw [byteStep_sHdr (by exact hseq), headerStep, headerBytes_sendingHeader]
  simp only [sendingHeader, hbyte]

/-- The sink has not answered yet: the run waits (R231). -/
theorem proceed_waits (ha : u.io.txAnswers = List.replicate k .ack) :
    proceed u = .next (sendingHeader u (u.io.tx ++ bytes.take k) [] (BitVec.ofNat 4 k)) := by
  rw [h.proceed_someAcks hk (ha.trans (List.append_nil _).symm)]
  exact Machine.proceed_waits ((h.byteStep_someAcks hk _ _).trans (txPush_waits.mpr rfl))

/-- A byte is refused: ST_ERR_IO_WR, and the run is over (R54, R185). -/
theorem proceed_fail {e : Byte} {rest : List TxAnswer}
    (ha : u.io.txAnswers = List.replicate k .ack ++ .fail e :: rest) : proceed u = .next (raise .errIoWr (some e)
      (sendingHeader u (u.io.tx ++ bytes.take k) rest (BitVec.ofNat 4 k))) := by
  rw [h.proceed_someAcks hk ha, proceed_moved (h.byteStep_someAcks hk _ _), proceed_idle rfl,
    sendFailed_hdrFormat e (by exact h.noFrame)]
  rfl

/-- ACK and FAIL at once: no rule applies (U5). -/
theorem proceed_both {rest : List TxAnswer} (ha : u.io.txAnswers = List.replicate k .ack ++ .both :: rest) :
    proceed u = .fault .txAckAndFail := by
  rw [h.proceed_someAcks hk ha]
  exact proceed_stuck (h.byteStep_someAcks hk _ _)

end OffersHeader

/-- Settles O22: the sink acknowledges every byte. -/
theorem hdrFormatWritesTheHeaderBytes : Obligations.HdrFormatWritesTheHeaderBytes := by
  refine ⟨fun _ => decodeCommand_op7, ?_⟩
  intro fin rsv1 rsv2 rsv3 opc masked key len s rest ha
  rw [← hdrBytes_length fin rsv1 rsv2 rsv3 opc masked key len] at ha
  exact ⟨_, (offersHeader_hdrFormat ..).proceed_acks ha, ⟨rfl, rfl⟩, rfl, rfl, ⟨rfl, fun _ => rfl⟩, rfl, rfl, rfl⟩

/-- Settles O23: the sink refuses byte `k`. -/
theorem hdrFormatStopsAtTheFirstFailure : Obligations.HdrFormatStopsAtTheFirstFailure := by
  intro fin rsv1 rsv2 rsv3 opc masked key len s k e rest hk ha
  rw [← hdrBytes_length fin rsv1 rsv2 rsv3 opc masked key len] at hk
  exact ⟨_, (offersHeader_hdrFormat ..).proceed_fail hk ha, ⟨rfl, rfl⟩, rfl, rfl, ⟨rfl, fun _ => rfl⟩, rfl, rfl, rfl⟩

/-! ## No memory of earlier calls (R139) -/

/-- Where a HDR_PARSE that has taken these bytes, too few for a header, waits. -/
def waitingSeq : List Byte → Seq
  | [] => .pFix0
  | [_] => .pFix1
  | bs => if lengthNeed bs ≤ bs.length then .pKey else .pExt

theorem waitingSeq_two (b0 b1 : Byte) (bs : List Byte) : waitingSeq (b0 :: b1 :: bs) =
    if lengthNeed (b0 :: b1 :: bs) ≤ (b0 :: b1 :: bs).length then .pKey else .pExt := rfl

/-- Both fixed bytes are behind the parser. -/
def pastFixedBytes (s : State) : Prop := s.sq.seq = .pExt ∨ s.sq.seq = .pKey ∨ s.sq.seq = .idle

theorem afterLength_pastFixedBytes (s : State) : pastFixedBytes (afterLength s) := by
  unfold afterLength
  split
  · exact .inr (.inl rfl)
  · exact .inr (.inr (finishParse_sq_seq _))

theorem takeFixedByte1_pastFixedBytes (b : Byte) (s : State) : pastFixedBytes (takeFixedByte1 b s) := by
  unfold takeFixedByte1
  simp only []
  split
  · exact afterLength_pastFixedBytes _
  · exact .inl rfl
  · exact .inl rfl

theorem parseByte_pastFixedBytes (b : Byte) {s : State} (h : pastFixedBytes s) : pastFixedBytes (parseByte b s) := by
  rcases h with hq | hq | hq
  · simp only [parseByte, hq, takeExtByte]
    split
    · exact afterLength_pastFixedBytes _
    · exact .inl rfl
  · simp only [parseByte, hq, takeKeyByte]
    split
    · exact .inr (.inr (finishParse_sq_seq _))
    · exact .inr (.inl rfl)
  · simp only [parseByte, hq]
    exact .inr (.inr hq)

/-- The parser never comes back to a fixed byte. -/
theorem byteStep_pastFixedBytes {s t : State} (h : pastFixedBytes s) (hm : byteStep s = .moved t) :
    pastFixedBytes t := by
  have hparse : byteStep s = .waits ∨ byteStep s = parseStep s := by
    rcases h with hq | hq | hq
    · exact .inr (byteStep_parsing (by rw [hq]; rfl))
    · exact .inr (byteStep_parsing (by rw [hq]; rfl))
    · exact .inl (byteStep_idle hq)
  rcases hparse with hw | hp
  · cases hw.symm.trans hm
  · rcases parseStep_moved (hp.symm.trans hm) with ⟨b, rest, _, rfl⟩ | ⟨_, _, rfl⟩ | ⟨_, _, _, rfl⟩
    · exact parseByte_pastFixedBytes b h
    · exact .inr (.inr rfl)
    · exact .inr (.inr rfl)

/-- A waiting HDR_PARSE stands where the bytes it was given put it. -/
theorem seq_of_waiting {s t : State} (hshort : s.io.rx.length < headerNeed s.io.rx) (hopen : s.io.rxEnd = none)
    (h : exec .hdrParse s = .next t) : t.sq.seq = waitingSeq s.io.rx := by
  obtain ⟨u, hrun, hu⟩ := exec_hdrParse_short hshort
  obtain rfl : u = t := Host.Outcome.next.inj ((hrun.trans (proceed_waits (hu.waits hopen))).symm.trans h)
  rw [exec_hdrParse] at h
  have hkey := hu.inKey
  have hparsing := hu.goesOn.parsing
  rcases hrx : s.io.rx with _ | ⟨b0, _ | ⟨b1, bs⟩⟩
  · have hw : byteStep (parseStart s) = .waits := parseStep_waits.mpr ⟨hrx, hopen⟩
    cases h.symm.trans (proceed_waits hw)
    rfl
  · rw [proceed_parseByte (s := parseStart s) rfl hrx] at h
    have hw : byteStep (parseByte b0 { parseStart s with io := { s.io with rx := [] } }) = .waits := by
      rw [byteStep_parsing rfl]
      exact parseStep_waits.mpr ⟨rfl, hopen⟩
    cases h.symm.trans (proceed_waits hw)
    rfl
  · rw [proceed_parseByte (s := parseStart s) rfl hrx, proceed_parseByte (rest := bs) rfl rfl] at h
    have hpast : pastFixedBytes u :=
      proceed_keeps (fun _ _ => byteStep_pastFixedBytes) (takeFixedByte1_pastFixedBytes b1 _) h
    rw [hrx] at hkey
    rw [waitingSeq_two]
    rcases hpast with hq | hq | hq
    · rw [if_neg (hkey.not.mp (by rw [hq]; decide)), hq]
    · rw [if_pos (hkey.mp hq), hq]
    · rw [hq] at hparsing
      cases hparsing

/-- The answers of the sink to `n` bytes: all of them ACK, or fewer and then something else or nothing yet. -/
theorem txAnswers_cases (n : Nat) (answers : List TxAnswer) :
    (∃ rest, answers = List.replicate n .ack ++ rest) ∨
      ∃ k < n, ∃ tail, answers = List.replicate k .ack ++ tail ∧ tail.head? ≠ some .ack := by
  induction n generalizing answers with
  | zero => exact .inl ⟨answers, rfl⟩
  | succ n ih =>
    rcases answers with _ | ⟨_ | e | _, rest⟩
    · exact .inr ⟨0, n.succ_pos, [], rfl, nofun⟩
    · rcases ih rest with ⟨rest', rfl⟩ | ⟨k, hk, tail, rfl, htail⟩
      · exact .inl ⟨rest', rfl⟩
      · exact .inr ⟨k + 1, Nat.succ_lt_succ hk, tail, rfl, htail⟩
    · exact .inr ⟨0, n.succ_pos, .fail e :: rest, rfl, nofun⟩
    · exact .inr ⟨0, n.succ_pos, .both :: rest, rfl, nofun⟩

/-- Two HDR_PARSE came equally far, and if they are over they have the same outcome and report the same. -/
def SameParse (t t' : State) : Prop :=
  t.io.rx = t'.io.rx ∧ t.busy = t'.busy ∧ t.sq.seq = t'.sq.seq ∧
    (t.busy = false → t.res.status = t'.res.status ∧
      (t.res.status = .errIoRd → t.res.errinfo = t'.res.errinfo) ∧
      (t.res.status = .ok → parsedHeader t = parsedHeader t' ∧ t.res.cls = t'.res.cls ∧ t.res.kind = t'.res.kind ∧
        t.res.len = t'.res.len ∧ t.res.overcap = t'.res.overcap))

/-- A whole header decides all that is reported. -/
theorem sameParse_of_header (b0 : Byte) {b1 : Byte} {ext key : List Byte} (h : CompletesHeader b1 ext key)
    (rest : List Byte) {s s' : State} (hp : s.params = s'.params) :
    SameParse (headerParsed b0 b1 ext key rest s) (headerParsed b0 b1 ext key rest s') := by
  obtain ⟨hbusy, hseq⟩ := headerParsed_over b0 b1 ext key rest s
  obtain ⟨hbusy', hseq'⟩ := headerParsed_over b0 b1 ext key rest s'
  refine ⟨?_, hbusy.trans hbusy'.symm, hseq.trans hseq'.symm, fun _ => ⟨?_, ?_, fun _ => ?_⟩⟩
  · simp
  · simp
  · simp
  · simp [parsedHeader_headerParsed _ h, hp]

theorem eosOutcome_ne (q : Seq) : eosOutcome q ≠ .errIoRd ∧ eosOutcome q ≠ .ok := by cases q <;> decide

/-- Too few bytes and what ends them decide how far the parser comes and its outcome. -/
theorem sameParse_of_short {s s' t t' : State} (hrx : s.io.rx = s'.io.rx) (hend : s.io.rxEnd = s'.io.rxEnd)
    (hshort : s.io.rx.length < headerNeed s.io.rx) (h : exec .hdrParse s = .next t)
    (h' : exec .hdrParse s' = .next t') : SameParse t t' := by
  have hshort' : s'.io.rx.length < headerNeed s'.io.rx := hrx ▸ hshort
  obtain ⟨u, hrun, hu⟩ := exec_hdrParse_short hshort
  obtain ⟨u', hrun', hu'⟩ := exec_hdrParse_short hshort'
  have run := hrun.symm.trans h
  have run' := hrun'.symm.trans h'
  have hnil : u.io.rx = u'.io.rx := hu.rx_eq_nil.trans hu'.rx_eq_nil.symm
  rcases he : s.io.rxEnd with _ | _ | e | _ <;> have he' := hend.symm.trans he
  · have hseq : t.sq.seq = t'.sq.seq := by rw [seq_of_waiting hshort he h, seq_of_waiting hshort' he' h', hrx]
    cases run.symm.trans (proceed_waits (hu.waits he))
    cases run'.symm.trans (proceed_waits (hu'.waits he'))
    have hbusy : t.busy = true := hu.goesOn.busy
    exact ⟨hnil, hbusy.trans hu'.goesOn.busy.symm, hseq, fun hb => absurd (hbusy.symm.trans hb) nofun⟩
  · cases run.symm.trans (hu.proceed_eos he)
    cases run'.symm.trans (hu'.proceed_eos he')
    have hstatus : eosOutcome u.sq.seq = eosOutcome u'.sq.seq := by rw [hu.eosOutcome_eq, hu'.eosOutcome_eq, hrx]
    obtain ⟨hrd, hok⟩ := eosOutcome_ne u.sq.seq
    exact ⟨hnil, rfl, rfl, fun _ => ⟨hstatus, (absurd · hrd), (absurd · hok)⟩⟩
  · cases run.symm.trans (hu.proceed_err he)
    cases run'.symm.trans (hu'.proceed_err he')
    exact ⟨hnil, rfl, rfl, fun _ => ⟨rfl, fun _ => rfl, nofun⟩⟩
  · cases run.symm.trans (hu.proceed_kind3 he)

/-- Settles O50: either stream is taken as far as it decides the outcome, and from there on both runs are explicit. -/
theorem theHeaderCodecReadsNoEarlierState : Obligations.TheHeaderCodecReadsNoEarlierState := by
  intro s s' t t'
  refine ⟨fun hrx hend hparams h h' => ?_, fun fin rsv1 rsv2 rsv3 opc masked key len ha h h' => ?_⟩
  · by_cases hshort : s.io.rx.length < headerNeed s.io.rx
    · exact sameParse_of_short hrx hend hshort h h'
    · obtain ⟨b0, b1, ext, key, rest, hbytes, hext, hkey⟩ := split_header (Nat.le_of_not_lt hshort)
      have hwhole : CompletesHeader b1 ext key := ⟨hext, hkey⟩
      cases h.symm.trans (exec_hdrParse_header hwhole hbytes)
      cases h'.symm.trans (exec_hdrParse_header hwhole (hrx.symm.trans hbytes))
      exact sameParse_of_header b0 hwhole rest hparams
  · have hu := offersHeader_hdrFormat fin rsv1 rsv2 rsv3 opc masked key len s
    have hu' := offersHeader_hdrFormat fin rsv1 rsv2 rsv3 opc masked key len s'
    rw [exec_hdrFormat] at h h'
    rcases txAnswers_cases (hdrBytes fin rsv1 rsv2 rsv3 opc masked key len).length s.io.txAnswers with
      ⟨rest, he⟩ | ⟨k, hk, _ | ⟨_ | e | _, rest⟩, he, htail⟩
    · cases h.symm.trans (hu.proceed_acks he)
      cases h'.symm.trans (hu'.proceed_acks (ha.symm.trans he))
      exact ⟨⟨_, rfl, rfl⟩, rfl, rfl, fun _ => ⟨rfl, nofun⟩⟩
    · rw [List.append_nil] at he
      cases h.symm.trans (hu.proceed_waits hk he)
      cases h'.symm.trans (hu'.proceed_waits hk (ha.symm.trans he))
      exact ⟨⟨_, rfl, rfl⟩, rfl, rfl, nofun⟩
    · cases htail rfl
    · cases h.symm.trans (hu.proceed_fail hk he)
      cases h'.symm.trans (hu'.proceed_fail hk (ha.symm.trans he))
      exact ⟨⟨_, rfl, rfl⟩, rfl, rfl, fun _ => ⟨rfl, fun _ => rfl⟩⟩
    · cases h.symm.trans (hu.proceed_both hk he)

end Sys2Proof.Machine
end

section
/-! PROOF. The payload masker: the laws of `apply_mask` (O28, O29), and APPLY_MASK on a PIN that has its bytes (O27) and on
one that still owes some (O30). -/

namespace Sys2Proof.Machine

/-! ## The rolling key (R150, R153) -/

theorem keyByte_zero (i : Nat) : keyByte 0 i = 0#8 := BitVec.extractLsb'_zero

theorem keyByte_xor (k l : Key) (i : Nat) : keyByte (k ^^^ l) i = keyByte k i ^^^ keyByte l i := BitVec.extractLsb'_xor

/-- Only the phase of an index matters. -/
theorem keyByte_add_mod (k : Key) (i r : Nat) : keyByte k (i + r % 4) = keyByte k (i + r) := by
  rw [← keyByte_mod k (i + r % 4), Nat.add_mod_mod, keyByte_mod]

/-- Byte `i` of a rotated key is byte `i + r` of the key. -/
theorem keyByte_rotateKey (k : Key) (r i : Nat) : keyByte (rotateKey k r) i = keyByte k (i + r) := by
  have hi : i % 4 < 4 := Nat.mod_lt _ (by decide)
  rw [keyByte_eq, rotateKey, keyBytes_append, Nat.add_comm i, ← keyByte_add_mod k r i]
  generalize i % 4 = j at hi
  match j, hi with
  | 0, _ => rfl
  | 1, _ => rfl
  | 2, _ => rfl
  | 3, _ => rfl

/-! ## `apply_mask` (R150, R152, R153) -/

@[simp] theorem applyMask_length (bs : List Byte) (k : Key) : (applyMask bs k).length = bs.length :=
  applyMaskFrom_length k 0 bs

theorem applyMask_getElem? (bs : List Byte) (k : Key) (i : Nat) :
    (applyMask bs k)[i]? = bs[i]?.map (· ^^^ keyByte k i) := by
  rw [applyMask, applyMaskFrom_getElem?, Nat.zero_add]

theorem applyMask_applyMask (bs : List Byte) (k l : Key) : applyMask (applyMask bs k) l = applyMask bs (k ^^^ l) := by
  apply List.ext_getElem?
  intro i
  simp only [applyMask_getElem?, Option.map_map, Function.comp_def, keyByte_xor, BitVec.xor_assoc]

theorem applyMask_zero (bs : List Byte) : applyMask bs 0 = bs := by
  apply List.ext_getElem?
  intro i
  simp only [applyMask_getElem?, keyByte_zero, BitVec.xor_zero, Option.map_id_fun', id]

/-- Masking from index `i` on is masking with the key rotated by `i`. -/
theorem applyMaskFrom_eq_applyMask_rotateKey (k : Key) (i : Nat) (bs : List Byte) :
    applyMaskFrom k i bs = applyMask bs (rotateKey k (i % 4)) := by
  apply List.ext_getElem?
  intro j
  rw [applyMaskFrom_getElem?, applyMask_getElem?, keyByte_rotateKey, keyByte_add_mod, Nat.add_comm]

theorem applyMask_append (as bs : List Byte) (k : Key) :
    applyMask (as ++ bs) k = applyMask as k ++ applyMask bs (rotateKey k (as.length % 4)) := by
  have happend : applyMask (as ++ bs) k = applyMask as k ++ applyMaskFrom k (0 + as.length) bs :=
    applyMaskFrom_append k 0 as bs
  rw [happend, Nat.zero_add, applyMaskFrom_eq_applyMask_rotateKey]

theorem applyMask_replicate_zero {n i : Nat} (k : Key) (h : i < n) :
    (applyMask (List.replicate n 0) k)[i]? = some (keyByte k i) := by
  rw [applyMask_getElem?, List.getElem?_replicate_of_lt h, Option.map_some]
  exact congrArg some BitVec.zero_xor

/-- Settles O28: the two keys compose to zero. -/
theorem maskingIsItsOwnInverse : Obligations.MaskingIsItsOwnInverse := by
  intro bs k
  rw [applyMask_applyMask, BitVec.xor_self]
  exact applyMask_zero bs

/-- Settles O29: each law byte by byte. -/
theorem maskingLaws : Obligations.MaskingLaws :=
  ⟨applyMask_length, applyMask_applyMask, applyMask_zero,
    fun _ k i h => (applyMask_replicate_zero k h).trans (congrArg some (keyByte_mod k i).symm), applyMask_append⟩

/-! ## APPLY_MASK (R150, R151) -/

section
variable (key : Key) (len : Len) (s : State)

@[simp] theorem cmdKey_maskStart : cmdKey (maskStart key len s).sq.cmd = key := by
  obtain ⟨v, hv, _, hkey, _⟩ := latch_applyMask key len s.sq.cmd
  exact (congrArg cmdKey hv).trans hkey

@[simp] theorem cmdLen_maskStart : cmdLen (maskStart key len s).sq.cmd = len := by
  obtain ⟨v, hv, _, _, hlen⟩ := latch_applyMask key len s.sq.cmd
  exact (congrArg cmdLen hv).trans hlen

end

/-- APPLY_MASK on a PIN that has all its bytes, none included. -/
theorem exec_applyMask_whole (key : Key) {len : Len} {bs rest : List Byte} {s : State} {room : Nat}
    (hlen : bs.length = len.toNat) (hpin : s.io.pin = bs ++ rest) (hroom : s.io.poutReady = bs.length + room) :
    exec (.applyMask key len) s =
      .next (finishOk (masking (maskStart key len s) rest (s.io.pout ++ applyMask bs key) room len)) := by
  rcases eq_or_ne len 0 with rfl | hne
  · obtain rfl : bs = [] := List.length_eq_zero_iff.1 hlen
    obtain rfl : s.io.pin = rest := hpin
    obtain rfl : s.io.poutReady = room := hroom.trans (Nat.zero_add room)
    rw [exec_applyMask, if_pos rfl, applyMask, applyMaskFrom, List.append_nil]
    rfl
  · have hbytes : bs ≠ [] := by
      rintro rfl
      exact hne (BitVec.eq_of_toNat_eq hlen.symm)
    have hlast : 0 + bs.length = (cmdLen (maskStart key len s).sq.cmd).toNat := by
      rw [cmdLen_maskStart, hlen, Nat.zero_add]
    have hrun := proceed_maskAll (s := maskStart key len s) rfl rfl hbytes hlast hpin hroom
    rw [cmdKey_maskStart, cmdLen_maskStart] at hrun
    rw [exec_applyMask, if_neg hne]
    exact hrun

/-- The masker waits when it holds no byte and PIN has none. -/
theorem byteStep_masking_nil {s : State} (hq : s.sq.seq = .mRun) (pout : List Byte) (ready : Nat) (pidx : Len) :
    byteStep (masking s [] pout ready pidx) = .waits :=
  (byteStep_mRun (s := masking s [] pout ready pidx) hq).trans (maskStep_waits.2 (.inl ⟨rfl, rfl⟩))

/-- APPLY_MASK on a PIN that has too few bytes: it masks those and waits for more. -/
theorem exec_applyMask_short (key : Key) {len : Len} {s : State} (hshort : s.io.pin.length < len.toNat)
    (hroom : s.io.pin.length ≤ s.io.poutReady) :
    exec (.applyMask key len) s =
      .next (masking (maskStart key len s) [] (s.io.pout ++ applyMask s.io.pin key)
        (s.io.poutReady - s.io.pin.length) (BitVec.ofNat 64 s.io.pin.length)) := by
  have hzero : len ≠ 0 := by rintro rfl; exact Nat.not_lt_zero _ hshort
  have hl : 0 + s.io.pin.length < (cmdLen (maskStart key len s).sq.cmd).toNat := by
    rwa [cmdLen_maskStart, Nat.zero_add]
  have hrun := proceed_maskSome (s := maskStart key len s) rfl rfl hl (List.append_nil _).symm
    (Nat.add_sub_cancel' hroom).symm
  have hpidx : (maskStart key len s).sq.pidx + BitVec.ofNat 64 s.io.pin.length = BitVec.ofNat 64 s.io.pin.length :=
    BitVec.zero_add _
  rw [cmdKey_maskStart, hpidx, proceed_waits (byteStep_masking_nil rfl ..)] at hrun
  rw [exec_applyMask, if_neg hzero]
  exact hrun

/-- Settles O27: the command ends in an explicit state, and byte `i` is masked with byte `i` of the rolling key. -/
theorem applyMaskXorsTheRollingKey : Obligations.ApplyMaskXorsTheRollingKey := by
  refine ⟨fun _ => decodeCommand_op8, fun key bs rest s room hlen hpin hroom => ?_⟩
  refine ⟨_, exec_applyMask_whole key (Nat.mod_eq_of_lt hlen).symm hpin hroom, ⟨rfl, rfl⟩, rfl, rfl, fun i b hb => ?_,
    applyMask_length bs key, ⟨rfl, fun _ => rfl⟩, rfl, rfl, rfl⟩
  rw [applyMask_getElem?, hb, Option.map_some, keyByte_eq]

/-- Settles O30: the bytes there are have gone out, and the masker holds none and asks for the next. -/
theorem applyMaskWaitsForItsBytes : Obligations.ApplyMaskWaitsForItsBytes := by
  intro key len s hshort hroom
  have hpidx : (BitVec.ofNat 64 s.io.pin.length).toNat = s.io.pin.length :=
    Nat.mod_eq_of_lt (hshort.trans len.isLt)
  exact ⟨_, exec_applyMask_short key hshort hroom, rfl, rfl, hpidx, rfl, rfl, ⟨rfl, fun _ => rfl⟩, rfl, rfl, rfl⟩

end Sys2Proof.Machine
end

section
/-! PROOF. The frame composer: FRAME_FORMAT on a sink that acknowledges all bytes (O36) and on one that refuses one (O37),
what the peer reads from it (O40), FRAME_LEN (O35, O39), FRAME_SET_KEY (O33) and FRAME_MESSAGE (O31). -/

namespace Sys2Proof.Machine

/-! ## FRAME_FORMAT (R162, R163) -/

/-- What a FRAME_FORMAT sends: the header of the frame and its payload as it leaves (R162). -/
def frameBytes (s : State) : List Byte := (frameHeader s).bytes s.fr.plen ++ sentPayload s

theorem length_frameHeader_bytes (s : State) :
    ((frameHeader s).bytes s.fr.plen).length = headerLength s.fr.masked s.fr.plen := by
  rw [length_bytes, frameHeader]
  cases s.fr.masked <;> rfl

theorem length_frameBytes (s : State) :
    (frameBytes s).length = headerLength s.fr.masked s.fr.plen + s.fr.plen.toNat := by
  rw [frameBytes, List.length_append, length_frameHeader_bytes, sentPayload_length]

theorem headerBytes_sendStart_frameFormat (s : State) :
    headerBytes (sendStart .frameFormat s) = (frameHeader s).bytes s.fr.plen :=
  (headerBytes_frame (s := sendStart .frameFormat s) (latch_frameFormat s.sq.cmd)).2.1

theorem sendsFrame_sendStart_frameFormat (s : State) : sendsFrame (sendStart .frameFormat s) = true :=
  (headerBytes_frame (s := sendStart .frameFormat s) (latch_frameFormat s.sq.cmd)).1

/-- A FRAME_FORMAT of the frame in `s`, with what the sink holds, its coming answers and the sequencer moved on. -/
def sendingFrame (s : State) (tx : List Byte) (answers : List TxAnswer) (sq : Sequencer) : State :=
  { accept .frameFormat s with io := { s.io with tx := tx, txAnswers := answers }, sq := sq }

/-- The header has gone out and there is no payload: the frame is consumed. -/
theorem headerDone_frame_empty {s : State} (h : sendsFrame s = true) (hz : s.fr.plen = 0) :
    headerDone s = finishOk (forgetFrame s) := by
  rw [headerDone, if_pos h, if_pos hz]

/-- The header has gone out: the payload is next. -/
theorem headerDone_frame_payload {s : State} (h : sendsFrame s = true) (hz : s.fr.plen ≠ 0) :
    headerDone s = { s with sq := { s.sq with pidx := 0, seq := .fPay } } := by
  rw [headerDone, if_pos h, if_neg hz]

/-- A refused byte consumes the frame all the same (R185). -/
theorem sendFailed_frame (e : Byte) {s : State} (h : sendsFrame s = true) :
    sendFailed e s = raise .errIoWr (some e) (forgetFrame s) := by
  rw [sendFailed, if_pos h]

section
variable {s : State} (hv : s.fr.valid = true)
include hv

/-- With the whole header acknowledged, the run stands behind it. -/
theorem exec_frameFormat_pastHeader {tail : List TxAnswer}
    (ha : s.io.txAnswers = List.replicate (headerLength s.fr.masked s.fr.plen) .ack ++ tail) :
    ∃ sq, cmdOp sq.cmd = 11 ∧ exec .frameFormat s =
      proceed (headerDone (sendingFrame s (s.io.tx ++ (frameHeader s).bytes s.fr.plen) tail sq)) := by
  have hbytes := headerBytes_sendStart_frameFormat s
  rw [← length_frameHeader_bytes, ← hbytes] at ha
  have hrun := proceed_headerAll (s := sendStart .frameFormat s) rfl rfl ha
  rw [hbytes] at hrun
  exact ⟨{ (sendStart .frameFormat s).sq with pos := _ }, latch_frameFormat s.sq.cmd, (exec_frameFormat hv).trans hrun⟩

/-- It then offers the first payload byte. -/
theorem exec_frameFormat_atPayload (hz : s.fr.plen ≠ 0) {tail : List TxAnswer}
    (ha : s.io.txAnswers = List.replicate (headerLength s.fr.masked s.fr.plen) .ack ++ tail) :
    ∃ sq, sq.seq = .fPay ∧ sq.pidx = 0 ∧ cmdOp sq.cmd = 11 ∧ exec .frameFormat s =
      proceed (sendingFrame s (s.io.tx ++ (frameHeader s).bytes s.fr.plen) tail sq) := by
  obtain ⟨sq, hcmd, hrun⟩ := exec_frameFormat_pastHeader hv ha
  rw [headerDone_frame_payload (headerBytes_frame (by exact hcmd)).1 (by exact hz)] at hrun
  exact ⟨{ sq with pidx := 0, seq := .fPay }, rfl, rfl, hcmd, hrun⟩

/-- FRAME_FORMAT on a sink that acknowledges every byte. -/
theorem exec_frameFormat_whole (hfit : s.fr.plen.toNat ≤ s.params.pbufBytes.toNat) {rest : List TxAnswer}
    (ha : s.io.txAnswers = List.replicate (headerLength s.fr.masked s.fr.plen + s.fr.plen.toNat) .ack ++ rest) :
    ∃ sq, exec .frameFormat s =
      .next (finishOk (forgetFrame (sendingFrame s (s.io.tx ++ frameBytes s) rest sq))) := by
  rw [List.replicate_add, List.append_assoc] at ha
  rcases eq_or_ne s.fr.plen 0 with hz | hz
  · have h0 : s.fr.plen.toNat = 0 := congrArg BitVec.toNat hz
    have hnone : sentPayload s = [] := List.length_eq_zero_iff.1 ((sentPayload_length s).trans h0)
    rw [h0, List.replicate_zero, List.nil_append] at ha
    obtain ⟨sq, hcmd, hrun⟩ := exec_frameFormat_pastHeader hv ha
    rw [headerDone_frame_empty (headerBytes_frame (by exact hcmd)).1 (by exact hz), proceed_idle rfl] at hrun
    rw [frameBytes, hnone, List.append_nil]
    exact ⟨sq, hrun⟩
  · obtain ⟨sq, hseq, hpidx, _, hrun⟩ := exec_frameFormat_atPayload hv hz ha
    have hall := proceed_payloadAll (s := sendingFrame s (s.io.tx ++ (frameHeader s).bytes s.fr.plen)
      (List.replicate s.fr.plen.toNat .ack ++ rest) sq) hseq hpidx hz hfit rfl
    rw [frameBytes, ← List.append_assoc]
    exact ⟨{ sq with pidx := s.fr.plen }, hrun.trans hall⟩

/-- FRAME_FORMAT on a sink that refuses byte `k` of the header. -/
theorem exec_frameFormat_failInHeader {k : Nat} {e : Byte} {rest : List TxAnswer}
    (hk : k < headerLength s.fr.masked s.fr.plen) (ha : s.io.txAnswers = List.replicate k .ack ++ .fail e :: rest) :
    ∃ sq, exec .frameFormat s = .next (raise .errIoWr (some e)
      (forgetFrame (sendingFrame s (s.io.tx ++ (frameBytes s).take k) rest sq))) := by
  have hbytes := headerBytes_sendStart_frameFormat s
  rw [← length_frameHeader_bytes] at hk
  have hpos : (sendStart .frameFormat s).sq.pos.toNat + k < (headerBytes (sendStart .frameFormat s)).length := by
    rw [hbytes]
    exact (Nat.zero_add k).trans_lt hk
  have hrun := proceed_headerFail (s := sendStart .frameFormat s) rfl hpos ha
  rw [hbytes, sendFailed_frame e (by exact sendsFrame_sendStart_frameFormat s)] at hrun
  rw [frameBytes, List.take_append_of_le_length hk.le]
  exact ⟨{ (sendStart .frameFormat s).sq with pos := _ }, (exec_frameFormat hv).trans hrun⟩

/-- FRAME_FORMAT on a sink that refuses byte `k` of the payload. -/
theorem exec_frameFormat_failInPayload (hfit : s.fr.plen.toNat ≤ s.params.pbufBytes.toNat) {k : Nat} {e : Byte}
    {rest : List TxAnswer} (hk : k < s.fr.plen.toNat)
    (ha : s.io.txAnswers = List.replicate (headerLength s.fr.masked s.fr.plen + k) .ack ++ .fail e :: rest) :
    ∃ sq, exec .frameFormat s = .next (raise .errIoWr (some e) (forgetFrame (sendingFrame s
      (s.io.tx ++ (frameBytes s).take (headerLength s.fr.masked s.fr.plen + k)) rest sq))) := by
  have hne : s.fr.plen ≠ 0 := by
    intro hz
    rw [hz] at hk
    exact Nat.not_lt_zero k hk
  rw [List.replicate_add, List.append_assoc] at ha
  obtain ⟨sq, hseq, hpidx, hcmd, hrun⟩ := exec_frameFormat_atPayload hv hne ha
  have h0 : sq.pidx.toNat = 0 := congrArg BitVec.toNat hpidx
  have hlt : sq.pidx.toNat + k < s.fr.plen.toNat := by rwa [h0, Nat.zero_add]
  have hfail := proceed_payloadFail (s := sendingFrame s (s.io.tx ++ (frameHeader s).bytes s.fr.plen)
    (List.replicate k .ack ++ .fail e :: rest) sq) hseq hfit hlt rfl
  rw [sendFailed_frame e (headerBytes_frame (by exact hcmd)).1] at hfail
  have htx : s.io.tx ++ (frameBytes s).take (headerLength s.fr.masked s.fr.plen + k) =
      s.io.tx ++ (frameHeader s).bytes s.fr.plen ++ ((sentPayload s).drop sq.pidx.toNat).take k := by
    rw [frameBytes, ← length_frameHeader_bytes, List.take_length_add_append, List.append_assoc, h0, List.drop_zero]
  rw [htx]
  exact ⟨{ sq with pidx := _ }, hrun.trans hfail⟩

/-- FRAME_FORMAT on a sink that refuses byte `k` of the frame. -/
theorem exec_frameFormat_fail (hfit : s.fr.plen.toNat ≤ s.params.pbufBytes.toNat) {k : Nat} {e : Byte}
    {rest : List TxAnswer} (hk : k < headerLength s.fr.masked s.fr.plen + s.fr.plen.toNat)
    (ha : s.io.txAnswers = List.replicate k .ack ++ .fail e :: rest) :
    ∃ sq, exec .frameFormat s = .next (raise .errIoWr (some e)
      (forgetFrame (sendingFrame s (s.io.tx ++ (frameBytes s).take k) rest sq))) := by
  rcases lt_or_ge k (headerLength s.fr.masked s.fr.plen) with hheader | hpayload
  · exact exec_frameFormat_failInHeader hv hheader ha
  · obtain ⟨j, rfl⟩ := Nat.exists_eq_add_of_le hpayload
    exact exec_frameFormat_failInPayload hv hfit (Nat.add_lt_add_iff_left.1 hk) ha

end

/-- Settles O36: the run ends in an explicit state, without a frame. -/
theorem frameFormatEmitsTheFrameOnce : Obligations.FrameFormatEmitsTheFrameOnce := by
  refine ⟨fun _ => decodeCommand_op11, fun s rest hv hfit ha => ?_⟩
  obtain ⟨sq, hrun⟩ := exec_frameFormat_whole hv hfit ha
  refine ⟨_, hrun, ⟨rfl, rfl⟩, rfl, ?_, rfl, fun _ => rfl, rfl, rfl, rfl⟩
  rw [frameBytes, ← List.append_assoc]
  rfl

/-- Settles O37: likewise, with the bytes acknowledged before the failure. -/
theorem frameFormatFailureConsumesTheFrame : Obligations.FrameFormatFailureConsumesTheFrame := by
  intro s k e rest hv hfit hk ha
  obtain ⟨sq, hrun⟩ := exec_frameFormat_fail hv hfit hk ha
  exact ⟨_, hrun, ⟨rfl, rfl⟩, rfl, rfl, rfl, fun _ => rfl, rfl, rfl, rfl⟩

/-! ## The round trip (R167) -/

/-- A parsed header that is the frame's reports the frame's key. -/
theorem key_eq_of_parsedHeader {s v : State} (h : parsedHeader v = frameHeader s) (hm : s.fr.masked = true) :
    v.res.key = s.fr.key := by
  have hmask : (if v.res.masked then some v.res.key else none) = if s.fr.masked then some s.fr.key else none :=
    congrArg FrameHeader.mask h
  rw [if_pos hm] at hmask
  split at hmask
  · exact Option.some.inj hmask
  · cases hmask

/-- Settles O40: the header by the header round trip (O20), the payload because masking is its own inverse (O28). -/
theorem frameRoundTrip : Obligations.FrameRoundTrip := by
  intro s t hv hrun hb hok
  refine ⟨frameBytes s, ?_, fun u rest hrx => ?_⟩
  · rw [(frameFormat_ended hv hrun hb).2 hok, frameBytes, List.append_assoc]
  · rw [frameBytes, List.append_assoc] at hrx
    obtain ⟨v, hparse, hvb, hvok, hheader, hlen, hrest, _⟩ := formatThenParseRecoversTheHeader _ _ _ _ hrx
    refine ⟨v, sentPayload s, hparse, hvb, hvok, hheader, hlen, hrest, sentPayload_length s, fun hm => ?_, fun hm => ?_⟩
    · rw [sentPayload, if_pos hm, key_eq_of_parsedHeader hheader hm]
      exact maskingIsItsOwnInverse _ _
    · rw [sentPayload, if_neg (by simp [hm])]

/-! ## FRAME_LEN and FRAME_SET_KEY (R161, R164, R169) -/

/-- `R_CNT` is wide enough for the length of every frame (R164). -/
theorem frameLength_toNat (masked : Bool) (len : Len) :
    (BitVec.ofNat 65 (headerLength masked len + len.toNat)).toNat = headerLength masked len + len.toNat := by
  have := headerLength_bounds masked len
  have := len.isLt
  rw [BitVec.toNat_ofNat]
  omega

/-- An operation on a frame where there is none ends ST_ERR_NO_FRAME and writes nothing else (R186). -/
theorem exec_noFrame_touchesOnlyResults {s : State} {i : Instr} (h : s.fr.valid = false)
    (hi : i = .frameFormat ∨ i = .frameLen ∨ ∃ masked key, i = .frameSetKey masked key) :
    ∃ t, exec i s = .next t ∧ t.res = { s.res with status := .errNoFrame } ∧ touchesOnlyResults s t :=
  ⟨_, exec_noFrame h hi, rfl, touchesOnlyResults_raise ..⟩

/-- Settles O35: the count is a number below 2^65. -/
theorem frameLenCountsHeaderAndPayload : Obligations.FrameLenCountsHeaderAndPayload := by
  refine ⟨fun _ => decodeCommand_op12, fun s h => exec_noFrame_touchesOnlyResults h (.inr (.inl rfl)), fun s hv => ?_⟩
  refine ⟨_, exec_frameLen hv, rfl, ?_, touchesOnlyResults_writeCount ..⟩
  rw [finishOk_writeCount_res, frameLength_toNat, headerLength_eq]

/-- Settles O39: both count the bytes of the frame. -/
theorem frameLenAgreesWithFrameFormat : Obligations.FrameLenAgreesWithFrameFormat := by
  intro s t u hlen hok hrun hb hok'
  cases hv : s.fr.valid with
  | false =>
    rw [exec_noFrame hv (.inr (.inl rfl))] at hlen
    cases hlen
    cases hok
  | true =>
    rw [exec_frameLen hv] at hlen
    cases hlen
    refine ⟨frameBytes s, ((frameFormat_ended (by exact hv) hrun hb).2 hok').trans (List.append_assoc ..), ?_⟩
    rw [finishOk_writeCount_res, frameLength_toNat, length_frameBytes]

/-- FRAME_SET_KEY on a frame: it has the key, or an UNSPEC one where it is unmasked. -/
theorem exec_frameSetKey {s : State} (hv : s.fr.valid = true) (masked : Bool) (key : Key) :
    ∃ k n, (masked = true → k = key) ∧ exec (.frameSetKey masked key) s = .next (finishOk
      { accept (.frameSetKey masked key) s with fr := { s.fr with masked := masked, key := k }, unspec := n }) := by
  cases masked with
  | true => exact ⟨key, s.unspec, fun _ => rfl, exec_frameSetKey_key hv key⟩
  | false => exact ⟨_, _, nofun, exec_frameSetKey_none hv key⟩

/-- A key takes four bytes of the header (R122). -/
theorem headerLength_eq_add_key (masked : Bool) (len : Len) :
    headerLength masked len = headerLength false len + if masked then 4 else 0 := rfl

/-- Settles O33: FR has the key, and the FRAME_LEN that follows finds it there. -/
theorem frameSetKeyGivesOrTakesTheKey : Obligations.FrameSetKeyGivesOrTakesTheKey := by
  refine ⟨fun _ => decodeCommand_op10,
    fun masked key s h => exec_noFrame_touchesOnlyResults h (.inr (.inr ⟨masked, key, rfl⟩)), fun masked key s hv => ?_⟩
  obtain ⟨k, n, hkey, hrun⟩ := exec_frameSetKey hv masked key
  refine ⟨_, hrun, ⟨rfl, rfl⟩, rfl, rfl, hkey, fun _ => rfl, rfl, ⟨rfl, rfl, rfl⟩, _, exec_frameLen hv, ?_⟩
  rw [finishOk_writeCount_res, frameLength_toNat, headerLength_eq_add_key]
  rfl

/-! ## FRAME_MESSAGE (R160, R168) -/

section
variable (opc : BitVec 4) (len : Len) (s : State)

@[simp] theorem cmdOpc_loadStart : cmdOpc (loadStart opc len s).sq.cmd = opc := by
  obtain ⟨v, hv, _, hopc, _⟩ := latch_frameMessage opc len s.sq.cmd
  exact (congrArg cmdOpc hv).trans hopc

@[simp] theorem cmdLen_loadStart : cmdLen (loadStart opc len s).sq.cmd = len := by
  obtain ⟨v, hv, _, _, hlen⟩ := latch_frameMessage opc len s.sq.cmd
  exact (congrArg cmdLen hv).trans hlen

end

/-- FR as FRAME_MESSAGE leaves it (R160). -/
theorem frameLoaded_fr (s : State) : (frameLoaded s).fr =
    { valid := true, fin := true, rsv1 := false, rsv2 := false, rsv3 := false, opc := cmdOpc s.sq.cmd, masked := false,
      key := Config.freeBits 32 .frKey s.unspec, plen := cmdLen s.sq.cmd } := rfl

theorem loading_sq_cmd (s : State) (pin : List Byte) (pbuf : Memory) (pidx : Len) :
    (loading s pin pbuf pidx).sq.cmd = s.sq.cmd := rfl

/-- FRAME_MESSAGE on a PIN that has its whole payload, the empty one included. -/
theorem exec_frameMessage_whole (opc : BitVec 4) {len : Len} {bs rest : List Byte} {s : State}
    (hlen : bs.length = len.toNat) (hfit : bs.length ≤ s.params.pbufBytes.toNat) (hpin : s.io.pin = bs ++ rest) :
    exec (.frameMessage opc len) s =
      .next (frameLoaded (loading (loadStart opc len s) rest (loadFrom 0 bs []) len)) := by
  rw [hlen] at hfit
  have hshort : ¬tooLong s.params.pbufBytes len = true := by simpa [tooLong] using hfit
  rw [exec_frameMessage, if_neg hshort]
  rcases eq_or_ne len 0 with rfl | hne
  · obtain rfl : bs = [] := List.length_eq_zero_iff.1 hlen
    obtain rfl : s.io.pin = rest := hpin
    rw [if_pos rfl]
    rfl
  · have hbytes : bs ≠ [] := by
      rintro rfl
      exact hne (BitVec.eq_of_toNat_eq hlen.symm)
    have hrun := proceed_loadAll (s := loadStart opc len s) (bs := bs) rfl hbytes (by rwa [cmdLen_loadStart])
      (by rw [cmdLen_loadStart, ← hlen]; exact Nat.zero_add _) hpin
    rw [cmdLen_loadStart] at hrun
    rw [if_neg hne]
    exact hrun

/-- A buffer that lists exactly these bytes reads as them. -/
theorem pbufBytes_eq {s : State} {bs : List Byte} (h : ∀ a, s.pbuf.read a = bs[a]?) : pbufBytes s bs.length = bs := by
  apply List.ext_getElem (by simp [pbufBytes])
  intro a _ ha
  simp [pbufBytes, pbufByte, h, ha]

theorem loadFrom_zero_nil_read (bs : List Byte) (a : Nat) : (loadFrom 0 bs []).read a = bs[a]? := by
  rw [loadFrom_read, if_neg a.not_lt_zero, Nat.zero_add, Nat.sub_zero, Memory.read_nil]
  split
  · rfl
  · next h => exact (List.getElem?_eq_none (Nat.le_of_not_lt h)).symm

/-- Settles O31: the command ends in an explicit state, whose PBUF lists the payload alone. -/
theorem frameMessageBuildsTheFrame : Obligations.FrameMessageBuildsTheFrame := by
  refine ⟨fun _ => decodeCommand_op9, fun opc bs rest s hfit hpin => ?_⟩
  have hlen : bs.length = (BitVec.ofNat 64 bs.length).toNat :=
    (Nat.mod_eq_of_lt (Nat.lt_of_le_of_lt hfit s.params.pbufBytes.isLt)).symm
  have hread := loadFrom_zero_nil_read bs
  refine ⟨_, exec_frameMessage_whole opc hlen hfit hpin, ⟨rfl, rfl⟩, rfl, ?_, hread, ?_, rfl, rfl, rfl, rfl⟩
  · rw [frameLoaded_fr, loading_sq_cmd, cmdOpc_loadStart, cmdLen_loadStart]
  · rw [framePayload, frameLoaded_fr_plen, loading_sq_cmd, cmdLen_loadStart, ← hlen]
    exact pbufBytes_eq hread

end Sys2Proof.Machine
end

section
/-! PROOF. Progress (O45), when a step does nothing or takes no command (O8), the codes an operation can end with (O46),
the reset edge (O9), and the commands that are refused with nothing but the status changed (O32, O34, O41). -/

namespace Sys2Proof.Machine

/-! ## Every step answers (O45) -/

/-- An operation in progress answers a next state: no byte step of it is stuck, and each keeps the invariant and the
premises of R229 for the next one. -/
theorem proceed_answers {s : State} (hinv : StateInv s) (henv : environmentKeepsRules s) : ∃ t, proceed s = .next t :=
  proceed_induction (P := fun s o => StateInv s → environmentKeepsRules s → ∃ t, o = .next t)
    (fun s _ _ _ => ⟨s, rfl⟩)
    (fun _ _ hm hinv henv => absurd hm (byteStep_not_stuck hinv henv))
    (fun _ _ hm ih hinv henv => ih (byteStep_keeps_inv hinv hm) ((byteStep_movedOn hm).env henv)) s hinv henv

/-- A command answers at once, or is byte steps from its start. -/
theorem exec_command_answers_or_starts {i : Instr} (hi : isCommand i = true) (s : State) :
    (∃ t, exec i s = .next t) ∨ ∃ u, Starts s i u ∧ exec i s = proceed u := by
  rcases exec_command hi s with ⟨_, t, h, _⟩ | ⟨rfl, h⟩ | ⟨_, _, _, _, _, _, _, _, rfl, h⟩ | ⟨rfl, hv, h⟩ |
    ⟨_, _, rfl, hl, h⟩ | ⟨_, _, rfl, hl, hfit, h⟩
  · exact .inl ⟨t, h⟩
  · exact .inr ⟨_, .parse, h⟩
  · exact .inr ⟨_, .header .., h⟩
  · exact .inr ⟨_, .frame hv, h⟩
  · exact .inr ⟨_, .mask hl, h⟩
  · exact .inr ⟨_, .load hl hfit, h⟩

/-- The premises of R229 speak of the streams alone, which a command finds as they were. -/
theorem Starts.env {i : Instr} {s u : State} (h : Starts s i u) (henv : environmentKeepsRules s) :
    environmentKeepsRules u := by
  rw [environmentKeepsRules, h.io]
  exact henv

/-- A command accepted in a quiet state answers a next state. -/
theorem exec_command_answers {i : Instr} {s : State} (hi : isCommand i = true) (hs : Quiet s)
    (henv : environmentKeepsRules s) : ∃ t, exec i s = .next t := by
  rcases exec_command_answers_or_starts hi s with h | ⟨u, hu, h⟩
  · exact h
  · rw [h]
    exact proceed_answers (hu.inv hs) (hu.env henv)

/-- Settles O45: a command starts within the invariant, and an operation in progress is never stuck. -/
theorem theMachineNeverStops : Obligations.TheMachineNeverStops := by
  intro s hinv henv
  rcases step_cases s with ⟨_, e⟩ | ⟨_, _, _, e⟩ | ⟨w, rest, _, hb, _, e⟩ | ⟨_, _, e⟩ | ⟨_, _, t, _, _, _, _, _, _, e⟩
  · exact ⟨_, e⟩
  · exact ⟨_, e⟩
  · rw [e]
    exact exec_command_answers (isCommand_decodeCommand w) (quiet_of_inv hinv hb w rest) henv
  · rw [e]
    exact proceed_answers hinv henv
  · exact ⟨t, e⟩

/-! ## Between commands and during one (O8) -/

/-- With BUSY = 0, no reset and no command presented there is nothing to do (R201). -/
theorem step_of_nothing {s : State} (hr : s.rstEdges = 0) (hb : s.busy = false) (hc : s.cmds = []) :
    step s = .next s := by
  simp [step, fetch, fetchCommand, hr, hb, hc]

/-- What moves the streams on leaves the presented commands on their port. -/
theorem MovedOn.cmds {s t : State} (h : MovedOn s t) : t.cmds = s.cmds := by
  obtain ⟨_, _, _, _, _, _, _, hcmds, _⟩ := h
  exact hcmds

/-- While an operation runs a step is a reset edge or byte steps, and neither takes a command (R222). -/
theorem step_cmds_of_busy {s t : State} (hb : s.busy = true) (h : step s = .next t) : t.cmds = s.cmds := by
  rcases step_cases s with ⟨_, e⟩ | ⟨_, hidle, _⟩ | ⟨_, _, _, hidle, _⟩ | ⟨_, _, e⟩ | ⟨_, _, _, _, _, _, _, _, hm, e⟩
  · rw [e] at h; cases h; rfl
  · cases hb.symm.trans hidle
  · cases hb.symm.trans hidle
  · exact (proceed_movedOn (e.symm.trans h)).cmds
  · rw [e] at h; cases h; exact (byteStep_movedOn hm).cmds

/-- Settles O8: without a command nothing is fetched, and during one the command port is not read. -/
theorem nothingHappensWithoutACommand : Obligations.NothingHappensWithoutACommand :=
  ⟨fun _ => step_of_nothing, fun _ _ => step_cmds_of_busy⟩

/-! ## The codes of each operation (O46) -/

/-- A command that ends at once ends with a code of its own. -/
theorem EndsAtOnce.mayEndWith {i : Instr} {s t : State} (h : EndsAtOnce s i t) : mayEndWith i t.res.status = true := by
  cases h with
  | refused hc => exact hc
  | _ => rfl

/-- A command that has run byte steps and is over has ended with a code of its own. -/
theorem Starts.mayEndWith {i : Instr} {s u t : State} (hu : Starts s i u) (h : proceed u = .next t)
    (hb : t.busy = false) : mayEndWith i t.res.status = true := by
  cases hu with
  | parse =>
    obtain ⟨⟨_, hbusy⟩ | ⟨_, hcode⟩, _⟩ := (parsing_parseStart s).run h
    · cases hb.symm.trans hbusy
    · exact hcode
  | header =>
    obtain ⟨⟨_, _, hbusy⟩ | ⟨_, hcode | hcode⟩, _⟩ := (formatting_sendStart ..).run h
    · cases hb.symm.trans hbusy
    · rw [hcode]; rfl
    · rw [hcode]; rfl
  | frame hv =>
    obtain ⟨⟨_, _, hbusy⟩ | ⟨_, hcode | hcode⟩, _⟩ := (emitting_sendStart s).run h
    · cases hb.symm.trans hbusy
    · rw [hcode]; rfl
    · rw [hcode]; rfl
  | mask hl =>
    obtain ⟨⟨_, hbusy⟩ | ⟨_, hcode⟩, _⟩ := (masking_maskStart ..).run h
    · cases hb.symm.trans hbusy
    · rw [hcode]; rfl
  | load hl hfit =>
    obtain ⟨⟨_, hbusy⟩ | ⟨_, hcode⟩, _⟩ := (loading_loadStart ..).run h
    · cases hb.symm.trans hbusy
    · rw [hcode]; rfl

/-- Settles O46: a command that ends at once by its outcome, any other by what its byte steps may end with. -/
theorem operationsEndOnlyWithTheirCodes : Obligations.OperationsEndOnlyWithTheirCodes := by
  intro i s t h hi hb
  rcases exec_command_next hi h with h | ⟨u, hu, h⟩
  · exact h.mayEndWith
  · exact hu.mayEndWith h hb

/-! ## The reset edge (O9) -/

/-- A pending reset edge is looked at first (R192 (1)). -/
theorem step_of_reset {s : State} (hr : s.rstEdges ≠ 0) : step s = .next (resetEdge s) := by
  simp [step, fetch, hr]

/-- Settles O9: the next state is `resetEdge s`, whose ports read its BUSY, SEQ, FR_VALID and held byte. -/
theorem resetWinsAndLeavesTheStreams : Obligations.ResetWinsAndLeavesTheStreams := fun s hr =>
  ⟨resetEdge s, step_of_reset hr, rfl, rfl, rfl, rfl, rfl, Memory.read_nil, rfl, rfl, rfl, Nat.sub_one_add_one hr, rfl,
    rfl, rfl, rfl, rfl, rfl⟩

/-! ## Refused commands (O32, O34, O41) -/

/-- Settles O32: a payload longer than PBUF is refused before any effect. -/
theorem frameMessageTooLongChangesNothing : Obligations.FrameMessageTooLongChangesNothing := by
  intro opc len s hlong
  have htoo : tooLong s.params.pbufBytes len = true := by simpa [tooLong] using hlong
  exact ⟨_, (exec_frameMessage opc len s).trans (if_pos htoo), rfl, touchesOnlyResults_raise ..⟩

/-- Settles O34: each of the three looks at FR_VALID first. -/
theorem frameOperationsWithoutAFrameAreRefused : Obligations.FrameOperationsWithoutAFrameAreRefused := by
  rintro masked key s i hv (rfl | hi | hi)
  · exact exec_noFrame_touchesOnlyResults hv (.inr (.inr ⟨masked, key, rfl⟩))
  · exact exec_noFrame_touchesOnlyResults hv (.inl hi)
  · exact exec_noFrame_touchesOnlyResults hv (.inr (.inl hi))

/-- A reserved operation is accepted and ended at once (R189). -/
theorem exec_reserved {i : Instr} (hi : i = .reservedOp0 ∨ i = .reservedOp13 ∨ i = .reservedOp14 ∨ i = .reservedOp15)
    (s : State) : exec i s = .next (raise .errBadCmd none (accept i s)) := by
  rcases hi with rfl | rfl | rfl | rfl <;> rfl

/-- Settles O41: the code alone decides the decoding, and the outcome is raised right after the command is accepted. -/
theorem reservedCodesEndBadCmd : Obligations.ReservedCodesEndBadCmd :=
  ⟨fun _ => ⟨decodeCommand_op0, decodeCommand_op13, decodeCommand_op14, decodeCommand_op15⟩,
    fun s _ hi => ⟨_, exec_reserved hi s, rfl, touchesOnlyResults_raise ..⟩⟩

end Sys2Proof.Machine
end

section
/-! PROOF. An operation in progress ends once its environment answers (O54), and a frame is emitted at most once (O38). -/

namespace Sys2Proof.Machine

/-! ## What an operation is still owed (R229, R231) -/

/-- What the operation in progress is still owed stands ready on its streams: what ends RX is settled, or there is a TX
answer for every byte still to be sent, a PIN byte for every byte still to be pulled (but the one the masker holds), a
POUT slot for every byte still to be pushed. -/
def OwedIsSupplied (s : State) : Prop :=
  match s.sq.seq with
  | .idle => True
  | .pFix0 | .pFix1 | .pExt | .pKey => s.io.rxEnd ≠ none
  | .sHdr => (headerBytes s).length + (if sendsFrame s then s.fr.plen.toNat else 0) ≤
      s.sq.pos.toNat + s.io.txAnswers.length
  | .fPay => s.fr.plen.toNat ≤ s.sq.pidx.toNat + s.io.txAnswers.length
  | .mRun => (cmdLen s.sq.cmd).toNat ≤ s.sq.pidx.toNat + s.io.pin.length + (if s.sq.hold.isSome then 1 else 0) ∧
      (cmdLen s.sq.cmd).toNat ≤ s.sq.pidx.toNat + s.io.poutReady
  | .lRun => (cmdLen s.sq.cmd).toNat ≤ s.sq.pidx.toNat + s.io.pin.length

theorem owedIsSupplied_idle {s : State} (h : s.sq.seq = .idle) : OwedIsSupplied s := by
  simp only [OwedIsSupplied, h]

theorem owedIsSupplied_parsing {s : State} (h : parsing s.sq.seq = true) :
    OwedIsSupplied s ↔ s.io.rxEnd ≠ none := by
  unfold OwedIsSupplied
  cases hq : s.sq.seq <;> simp_all [parsing]

theorem owedIsSupplied_sHdr {s : State} (h : s.sq.seq = .sHdr) : OwedIsSupplied s ↔
    (headerBytes s).length + (if sendsFrame s then s.fr.plen.toNat else 0) ≤
      s.sq.pos.toNat + s.io.txAnswers.length := by
  simp only [OwedIsSupplied, h]

theorem owedIsSupplied_fPay {s : State} (h : s.sq.seq = .fPay) : OwedIsSupplied s ↔
    s.fr.plen.toNat ≤ s.sq.pidx.toNat + s.io.txAnswers.length := by
  simp only [OwedIsSupplied, h]

theorem owedIsSupplied_mRun {s : State} (h : s.sq.seq = .mRun) : OwedIsSupplied s ↔
    (cmdLen s.sq.cmd).toNat ≤ s.sq.pidx.toNat + s.io.pin.length + (if s.sq.hold.isSome then 1 else 0) ∧
      (cmdLen s.sq.cmd).toNat ≤ s.sq.pidx.toNat + s.io.poutReady := by
  simp only [OwedIsSupplied, h]

theorem owedIsSupplied_lRun {s : State} (h : s.sq.seq = .lRun) : OwedIsSupplied s ↔
    (cmdLen s.sq.cmd).toNat ≤ s.sq.pidx.toNat + s.io.pin.length := by
  simp only [OwedIsSupplied, h]

/-! ## The bounds of the invariant, phase by phase -/

theorem StateInv.pos_lt {s : State} (h : StateInv s) (hq : s.sq.seq = .sHdr) :
    s.sq.pos.toNat < (headerBytes s).length := by
  obtain ⟨_, _, _, _, hseq⟩ := h
  simp only [seqInv, hq] at hseq
  obtain ⟨_, hpos⟩ := hseq
  exact hpos

theorem StateInv.pidx_lt_plen {s : State} (h : StateInv s) (hq : s.sq.seq = .fPay) :
    s.sq.pidx.toNat < s.fr.plen.toNat := by
  obtain ⟨_, _, _, _, hseq⟩ := h
  simp only [seqInv, hq] at hseq
  obtain ⟨_, _, hpidx⟩ := hseq
  exact hpidx

theorem StateInv.pidx_lt_cmdLen {s : State} (h : StateInv s) (hq : s.sq.seq = .mRun ∨ s.sq.seq = .lRun) :
    s.sq.pidx.toNat < (cmdLen s.sq.cmd).toNat := by
  obtain ⟨_, _, _, _, hseq⟩ := h
  rcases hq with hq | hq <;> simp only [seqInv, hq] at hseq
  · obtain ⟨_, hpidx⟩ := hseq
    exact hpidx
  · obtain ⟨_, _, hpidx, _⟩ := hseq
    exact hpidx

/-- An index below a length moves on by one without a wrap. -/
theorem toNat_add_one_of_lt {p l : Len} (h : p.toNat < l.toNat) : (p + 1).toNat = p.toNat + 1 := by bv_omega

/-! ## A byte step leaves supplied what is still owed -/

theorem parsing_keeps_owed {s t : State} (howed : OwedIsSupplied s) (hq : parsing s.sq.seq = true)
    (hm : byteStep s = .moved t) : OwedIsSupplied t := by
  have hend : t.io.rxEnd ≠ none := by
    obtain ⟨_, _, _, _, hsame, _⟩ := byteStep_movedOn hm
    rw [hsame]
    exact (owedIsSupplied_parsing hq).1 howed
  obtain ⟨_, _, _, _, _, hidle | hstay | ⟨_, hp⟩ | ⟨hhdr, _⟩⟩ := byteStep_hidden hm
  · exact owedIsSupplied_idle hidle
  · exact (owedIsSupplied_parsing (by rw [hstay]; exact hq)).2 hend
  · exact (owedIsSupplied_parsing hp).2 hend
  · simp [hhdr, parsing] at hq

/-- Once the header has gone out, a FRAME_FORMAT is owed an answer per payload byte, and a HDR_FORMAT nothing. -/
theorem headerDone_owed {s : State} (h : sendsFrame s = true → s.fr.plen.toNat ≤ s.io.txAnswers.length) :
    OwedIsSupplied (headerDone s) := by
  unfold headerDone
  split
  · next hframe =>
    split
    · exact owedIsSupplied_idle rfl
    · refine (owedIsSupplied_fPay rfl).2 ?_
      show s.fr.plen.toNat ≤ 0 + s.io.txAnswers.length
      rw [Nat.zero_add]
      exact h hframe
  · exact owedIsSupplied_idle rfl

theorem headerStep_keeps_owed {s t : State} (hinv : StateInv s) (howed : OwedIsSupplied s) (hq : s.sq.seq = .sHdr)
    (hm : headerStep s = .moved t) : OwedIsSupplied t := by
  have hpos := hinv.pos_lt hq
  have hbound := (headerBytes_bounds s).2
  rw [owedIsSupplied_sHdr hq] at howed
  obtain ⟨b, _, hpush⟩ := headerStep_moved hm
  rcases txPush_moved hpush with ⟨rest, ha, rfl⟩ | ⟨_, _, _, rfl⟩
  · rw [ha, List.length_cons] at howed
    unfold headerAcked
    simp only []
    split
    · next hlast =>
      have hlast : s.sq.pos.toNat + 1 = (headerBytes s).length := of_decide_eq_true hlast
      refine headerDone_owed fun (hframe : sendsFrame s = true) => ?_
      rw [if_pos hframe] at howed
      show s.fr.plen.toNat ≤ rest.length
      omega
    · have hsucc : (s.sq.pos + 1).toNat = s.sq.pos.toNat + 1 := by bv_omega
      refine (owedIsSupplied_sHdr (by exact hq)).2 ?_
      show (headerBytes s).length + (if sendsFrame s then s.fr.plen.toNat else 0) ≤ (s.sq.pos + 1).toNat + rest.length
      omega
  · exact owedIsSupplied_idle rfl

theorem payloadStep_keeps_owed {s t : State} (hinv : StateInv s) (howed : OwedIsSupplied s) (hq : s.sq.seq = .fPay)
    (hm : payloadStep s = .moved t) : OwedIsSupplied t := by
  have hsucc : (s.sq.pidx + 1).toNat = s.sq.pidx.toNat + 1 := toNat_add_one_of_lt (hinv.pidx_lt_plen hq)
  rw [owedIsSupplied_fPay hq] at howed
  obtain ⟨_, hpush⟩ := payloadStep_moved hm
  rcases txPush_moved hpush with ⟨rest, ha, rfl⟩ | ⟨_, _, _, rfl⟩
  · rw [ha, List.length_cons] at howed
    unfold payloadAcked
    simp only []
    split
    · exact owedIsSupplied_idle rfl
    · refine (owedIsSupplied_fPay (by exact hq)).2 ?_
      show s.fr.plen.toNat ≤ (s.sq.pidx + 1).toNat + rest.length
      omega
  · exact owedIsSupplied_idle rfl

theorem maskStep_keeps_owed {s t : State} (hinv : StateInv s) (howed : OwedIsSupplied s) (hq : s.sq.seq = .mRun)
    (hm : maskStep s = .moved t) : OwedIsSupplied t := by
  have hsucc : (s.sq.pidx + 1).toNat = s.sq.pidx.toNat + 1 := toNat_add_one_of_lt (hinv.pidx_lt_cmdLen (.inl hq))
  rw [owedIsSupplied_mRun hq] at howed
  obtain ⟨hpin, hpout⟩ := howed
  rcases maskStep_moved hm with ⟨b, rest, hh, hp, rfl⟩ | ⟨b, n, u, hh, hr, rfl, rfl⟩
  · simp only [hh, hp, List.length_cons] at hpin
    exact (owedIsSupplied_mRun (by exact hq)).2 ⟨by simpa [Nat.add_assoc] using hpin, hpout⟩
  · simp only [hh, hr, Option.isSome_some, if_true] at hpin hpout
    split
    · exact owedIsSupplied_idle rfl
    · refine (owedIsSupplied_mRun (by exact hq)).2 ?_
      simp only [hsucc, Option.isSome_none, Bool.false_eq_true, if_false]
      omega

theorem loadStep_keeps_owed {s t : State} (hinv : StateInv s) (howed : OwedIsSupplied s) (hq : s.sq.seq = .lRun)
    (hm : loadStep s = .moved t) : OwedIsSupplied t := by
  have hsucc : (s.sq.pidx + 1).toNat = s.sq.pidx.toNat + 1 := toNat_add_one_of_lt (hinv.pidx_lt_cmdLen (.inr hq))
  rw [owedIsSupplied_lRun hq] at howed
  obtain ⟨_, b, rest, u, hp, rfl, rfl⟩ := loadStep_moved hm
  rw [hp, List.length_cons] at howed
  split
  · exact owedIsSupplied_idle rfl
  · refine (owedIsSupplied_lRun (by exact hq)).2 ?_
    simp only [hsucc]
    omega

/-- A byte step settles what it takes or sends, and no more than that. -/
theorem byteStep_keeps_owed {s t : State} (hinv : StateInv s) (howed : OwedIsSupplied s)
    (hm : byteStep s = .moved t) : OwedIsSupplied t := by
  rcases byteStep_cases s with ⟨_, e⟩ | ⟨hq, _⟩ | ⟨hq, e⟩ | ⟨hq, e⟩ | ⟨hq, e⟩ | ⟨hq, e⟩
  · cases e.symm.trans hm
  · exact parsing_keeps_owed howed hq hm
  · exact headerStep_keeps_owed hinv howed hq (e.symm.trans hm)
  · exact payloadStep_keeps_owed hinv howed hq (e.symm.trans hm)
  · exact maskStep_keeps_owed hinv howed hq (e.symm.trans hm)
  · exact loadStep_keeps_owed hinv howed hq (e.symm.trans hm)

/-! ## No operation waits while what it is owed is there -/

theorem headerStep_waits {s : State} (hpos : s.sq.pos.toNat < (headerBytes s).length) (hw : headerStep s = .waits) :
    s.io.txAnswers = [] := by
  rw [headerStep, List.getElem?_eq_getElem hpos] at hw
  exact txPush_waits.1 hw

theorem payloadStep_waits {s : State} (hw : payloadStep s = .waits) : s.io.txAnswers = [] := by
  unfold payloadStep at hw
  split at hw
  · exact txPush_waits.1 hw
  · cases hw

theorem loadStep_waits {s : State} (hw : loadStep s = .waits) : s.io.pin = [] := by
  unfold loadStep at hw
  split at hw
  · split at hw
    · assumption
    · cases hw
  · cases hw

/-- An operation waits only for what it is still owed: a machine that waits with that supplied is in no operation. -/
theorem idle_of_waits_of_owed {s : State} (hinv : StateInv s) (howed : OwedIsSupplied s)
    (hw : byteStep s = .waits) : s.sq.seq = .idle := by
  rcases byteStep_cases s with ⟨hq, _⟩ | ⟨hq, e⟩ | ⟨hq, e⟩ | ⟨hq, e⟩ | ⟨hq, e⟩ | ⟨hq, e⟩
  · exact hq
  all_goals exfalso; rw [e] at hw
  · exact (owedIsSupplied_parsing hq).1 howed (parseStep_waits.1 hw).2
  · have hpos := hinv.pos_lt hq
    rw [owedIsSupplied_sHdr hq, headerStep_waits hpos hw, List.length_nil] at howed
    omega
  · have hpidx := hinv.pidx_lt_plen hq
    rw [owedIsSupplied_fPay hq, payloadStep_waits hw, List.length_nil] at howed
    omega
  · have hpidx := hinv.pidx_lt_cmdLen (.inl hq)
    obtain ⟨hpin, hpout⟩ := (owedIsSupplied_mRun hq).1 howed
    rcases maskStep_waits.1 hw with ⟨hh, hp⟩ | ⟨_, hr⟩
    · simp only [hh, hp, List.length_nil, Option.isSome_none, Bool.false_eq_true, if_false] at hpin
      omega
    · omega
  · have hpidx := hinv.pidx_lt_cmdLen (.inr hq)
    rw [owedIsSupplied_lRun hq, loadStep_waits hw, List.length_nil] at howed
    omega

/-! ## The operation ends (O54) -/

/-- An operation in progress that is supplied with what it is owed goes on until it is over. -/
theorem proceed_ends {s : State} (hinv : StateInv s) (henv : environmentKeepsRules s) (howed : OwedIsSupplied s) :
    ∃ t, proceed s = .next t ∧ t.busy = false := by
  obtain ⟨t, ht⟩ := proceed_answers hinv henv
  obtain ⟨hinv', howed'⟩ : StateInv t ∧ OwedIsSupplied t :=
    proceed_keeps (P := fun u => StateInv u ∧ OwedIsSupplied u)
      (fun _ _ ⟨hi, ho⟩ hm => ⟨byteStep_keeps_inv hi hm, byteStep_keeps_owed hi ho hm⟩) ⟨hinv, howed⟩ ht
  have hidle : t.sq.seq = .idle := idle_of_waits_of_owed hinv' howed' (proceed_quiet ht)
  obtain ⟨hbusy, _⟩ := hinv'
  exact ⟨t, ht, Bool.eq_false_iff.2 fun hb => hbusy.1 hb hidle⟩

/-- An operation in progress that waits for no fixed byte 0 goes on in the next step. -/
theorem step_resumes {s : State} (hr : s.rstEdges = 0) (hb : s.busy = true) (hq : s.sq.seq ≠ .pFix0) :
    step s = proceed s := by
  simp [step, fetch, hr, hb, hq]

/-- Settles O54: what is owed stays supplied along byte steps, and none waits while it is. A fixed byte 0 that arrives
without the rest of its header is a step of its own; the one after it goes on. -/
theorem operationsEndWhenTheEnvironmentAnswers : Obligations.OperationsEndWhenTheEnvironmentAnswers := by
  intro s hinv henv hbusy hreset hrx hheader hpayload hload hmask hpout
  have howed : OwedIsSupplied s := by
    unfold OwedIsSupplied
    cases hq : s.sq.seq with
    | idle => trivial
    | pFix0 | pFix1 | pExt | pKey => exact hrx (by simp [rxReady, parsing, hq])
    | sHdr => exact hheader hq
    | fPay => exact hpayload hq
    | mRun => exact ⟨hmask hq, hpout hq⟩
    | lRun => exact hload hq
  rcases step_cases s with ⟨hr, _⟩ | ⟨_, hb, _⟩ | ⟨_, _, _, hb, _⟩ | ⟨_, _, hstep⟩ |
    ⟨b, rest, t, _, _, hq, hbytes, _, hm, hstep⟩
  · exact absurd hreset hr
  · cases hbusy.symm.trans hb
  · cases hbusy.symm.trans hb
  · obtain ⟨t, ht, hover⟩ := proceed_ends hinv henv howed
    exact ⟨t, hstep.trans ht, .inl hover⟩
  · obtain ⟨u, hu, hover⟩ := proceed_ends (byteStep_keeps_inv hinv hm) ((byteStep_movedOn hm).env henv)
      (byteStep_keeps_owed hinv howed hm)
    have hresumes : step t = proceed t := by
      cases (byteStep_fixedByte0 hq hbytes).symm.trans hm
      exact step_resumes hreset hbusy (by simp [takeFixedByte0])
    exact ⟨t, hstep, .inr ⟨u, hresumes.trans hu, hover⟩⟩

/-! ## A frame is emitted at most once (O38) -/

/-- A FRAME_FORMAT that has ended leaves no frame: it found none, or has consumed it. -/
theorem frameFormat_leaves_no_frame {s t : State} (h : exec .frameFormat s = .next t) (hb : t.busy = false) :
    t.fr.valid = false := by
  cases hv : s.fr.valid with
  | true => exact (frameFormat_ended hv h hb).1
  | false => rw [exec_noFrame hv (.inl rfl)] at h; cases h; exact hv

/-- Without a frame, the command that makes one without a byte step is a FRAME_MESSAGE of no byte. -/
theorem EndsAtOnce.frame_made {i : Instr} {s t : State} (h : EndsAtOnce s i t) (hv : s.fr.valid = false)
    (hv' : t.fr.valid = true) : ∃ opc len, i = .frameMessage opc len ∧ t.res.status = .ok ∧ t.busy = false := by
  cases h with
  | loadedNothing opc => exact ⟨opc, 0, rfl, rfl, rfl⟩
  | _ => cases hv.symm.trans hv'

/-- A FRAME_MESSAGE on its way has no frame yet, or it has ended ST_OK. -/
def FrameNotBeforeOk (u : State) : Prop :=
  u.sq.seq = .lRun ∧ u.fr.valid = false ∨ u.sq.seq = .idle ∧ u.res.status = .ok ∧ u.busy = false

theorem FrameNotBeforeOk.step {u v : State} (h : FrameNotBeforeOk u) (hm : byteStep u = .moved v) :
    FrameNotBeforeOk v := by
  rcases h with ⟨hq, hv⟩ | ⟨hq, _⟩
  · rw [byteStep_lRun hq] at hm
    obtain ⟨_, _, _, _, _, rfl, rfl⟩ := loadStep_moved hm
    split
    · exact .inr ⟨rfl, rfl, rfl⟩
    · exact .inl ⟨hq, hv⟩
  · cases (byteStep_idle hq).symm.trans hm

/-- Without a frame, the command that makes one by byte steps is a FRAME_MESSAGE that has ended ST_OK. -/
theorem Starts.frame_made {i : Instr} {s u t : State} (hu : Starts s i u) (h : proceed u = .next t)
    (hv : s.fr.valid = false) (hv' : t.fr.valid = true) :
    ∃ opc len, i = .frameMessage opc len ∧ t.res.status = .ok ∧ t.busy = false := by
  have hmade : t.fr ≠ s.fr := fun hsame => Bool.false_ne_true (hv.symm.trans (hsame ▸ hv'))
  cases hu with
  | parse =>
    obtain ⟨_, _, hsame, _⟩ := (parsing_parseStart s).run h
    exact absurd hsame hmade
  | header =>
    obtain ⟨_, _, hsame, _⟩ := (formatting_sendStart ..).run h
    exact absurd hsame hmade
  | frame hvalid => cases hv.symm.trans hvalid
  | mask hl =>
    obtain ⟨_, _, hsame, _⟩ := (masking_maskStart ..).run h
    exact absurd hsame hmade
  | @load opc len hl hfit =>
    rcases proceed_keeps (P := FrameNotBeforeOk) (fun _ _ => FrameNotBeforeOk.step) (.inl ⟨rfl, rfl⟩) h with
      ⟨_, hnone⟩ | ⟨_, hok, hb⟩
    · cases hnone.symm.trans hv'
    · exact ⟨opc, len, rfl, hok, hb⟩

/-- Settles O38: a FRAME_FORMAT consumes the frame, without one the frame operations are refused, and of the commands
only FRAME_MESSAGE makes another. -/
theorem aFrameIsEmittedAtMostOnce : Obligations.AFrameIsEmittedAtMostOnce := by
  refine ⟨fun _ _ => frameFormat_leaves_no_frame, fun t masked key i hv hi => ?_, fun i t u hv h hi hv' => ?_⟩
  · obtain ⟨u, hu, hres, _, _, hio, _⟩ := frameOperationsWithoutAFrameAreRefused masked key t i hv hi
    exact ⟨u, hu, congrArg ResultBank.status hres, hio⟩
  · rcases exec_command_next hi h with h | ⟨_, hstart, h⟩
    · exact h.frame_made hv hv'
    · exact hstart.frame_made h hv hv'

end Sys2Proof.Machine
end
